-- ==== Sys2Proof/Word.lean ====
section
/-! DEFINITION. The word types of the chunk engine, and the pixel, its unit of data (spec/00_scope.md R7, R8, R12). -/

namespace Sys2Proof

/-- A byte of a buffer or one channel of a pixel (R7). -/
abbrev Byte := BitVec 8

/-- Width, height and the magic constant (R7, R9). -/
abbrev Word32 := BitVec 32

/-- Lengths, pointers, the pixel index and the info words (R8). -/
abbrev Word64 := BitVec 64

/-- A slot number of the index cache, 0..63 (R40). -/
abbrev Slot := BitVec 6

/-- A pixel: four 8-bit channels, also in a 3-channel pass (R12, R131).
Its derived equality is the exact per-channel equality of R133. -/
structure Pixel where
  r : Byte
  g : Byte
  b : Byte
  a : Byte
deriving DecidableEq, Repr, Inhabited

/-- The clear value of a cache slot, (0, 0, 0, 0) (R140); also the default of `P_PREV_INIT` (R9). -/
def Pixel.clear : Pixel := ⟨0, 0, 0, 0⟩

/-- The index cache's register file: exactly 64 pixel slots (R40). -/
abbrev Cache := Vector Pixel 64

end Sys2Proof
end

