-- ==== Sys2Proof/Syntax.lean ====
section
/-! DEFINITION. The instructions: the six chunk kinds of spec/opcode_table.json, in its order
(spec/41_chunk_codec.md R160 to R165). Operands are the decoded ones of spec/30_encoding.md R108. -/

namespace Sys2Proof

/-- One chunk. -/
inductive Instr where
  /-- RGB literal, R164. -/
  | rgb (r g b : Byte)
  /-- RGBA literal, R165. -/
  | rgba (r g b a : Byte)
  /-- INDEX slot, R160. -/
  | index (i : Slot)
  /-- DIFF, R161: the deltas of red, green and blue. -/
  | diff (dr dg db : Int)
  /-- LUMA, R162: the green delta, then red minus green and blue minus green. -/
  | luma (dg drg dbg : Int)
  /-- RUN, R163: the run length L. -/
  | run (len : Nat)
deriving DecidableEq, Repr

end Sys2Proof
end

