-- ==== Sys2Proof/WellFormed.lean ====
section
/-! DEFINITION. Which operands a chunk can hold: the ranges of spec/30_encoding.md R108. -/

namespace Sys2Proof

/-- The operands lie in the ranges of R108. The operands of RGB, RGBA and INDEX are bit fields, so every value is in
range. -/
def Instr.wellFormed : Instr → Bool
  | .rgb _ _ _ => true
  | .rgba _ _ _ _ => true
  | .index _ => true
  | .diff dr dg db =>
    decide (-2 ≤ dr ∧ dr ≤ 1) && decide (-2 ≤ dg ∧ dg ≤ 1) && decide (-2 ≤ db ∧ db ≤ 1)
  | .luma dg drg dbg =>
    decide (-32 ≤ dg ∧ dg ≤ 31) && decide (-8 ≤ drg ∧ drg ≤ 7) && decide (-8 ≤ dbg ∧ dbg ≤ 7)
  | .run len => decide (1 ≤ len ∧ len ≤ 62)

end Sys2Proof
end

