-- ==== Sys2Proof/Decode.lean ====
section
/-! DEFINITION. The stream format of spec/30_encoding.md: decoding a chunk from bytes, encoding one, the header and
the end marker, big-endian numbers (spec/20_memory.md R74), and the listing syntax (R114). -/

namespace Sys2Proof

/-! ### Fields -/

/-- The 2-bit tag `b1[7:6]` of a first byte (R102). -/
def tagOf (b1 : Byte) : BitVec 2 := b1.extractLsb' 6 2

/-- The 6-bit operand field `b1[5:0]` of a first byte (R102). -/
def lowSix (b1 : Byte) : BitVec 6 := b1.extractLsb' 0 6

/-- A field read as a delta: the zero-extended field less its bias (R108). -/
def unbias {w : Nat} (bias : Nat) (field : BitVec w) : Int := (field.toNat : Int) - bias

/-- A delta stored in a field of `w` bits with its bias (R105, R106). -/
def biased (w bias : Nat) (delta : Int) : BitVec w := BitVec.ofInt w (delta + bias)

/-! ### Decoding -/

/-- What the decoder reads from bytes. Every first byte selects a chunk kind (R112), so the only rejections are of
bytes that end too soon. -/
inductive Decoded where
  /-- The chunk, and the bytes after it. -/
  | ok (i : Instr) (rest : List Byte)
  /-- There is no byte to hold a tag. -/
  | noTagByte
  /-- The bytes end inside the chunk that the first byte selects. -/
  | truncated
deriving DecidableEq, Repr

/-- The length of the chunk that a first byte selects (R110, R111). -/
def chunkLength (b1 : Byte) : Nat :=
  if b1 = 0xFE then 4 else if b1 = 0xFF then 5 else if tagOf b1 = 0b10 then 2 else 1

/-- Decoding, in the test order of R110 and R254: the two literal tags first. -/
def decode : List Byte → Decoded
  | [] => .noTagByte
  | b1 :: rest =>
    if b1 = 0xFE then
      match rest with
      | r :: g :: b :: rest => .ok (.rgb r g b) rest
      | _ => .truncated
    else if b1 = 0xFF then
      match rest with
      | r :: g :: b :: a :: rest => .ok (.rgba r g b a) rest
      | _ => .truncated
    else if tagOf b1 = 0b00 then .ok (.index (lowSix b1)) rest
    else if tagOf b1 = 0b01 then
      .ok (.diff (unbias 2 (b1.extractLsb' 4 2)) (unbias 2 (b1.extractLsb' 2 2))
        (unbias 2 (b1.extractLsb' 0 2))) rest
    else if tagOf b1 = 0b10 then
      match rest with
      | b2 :: rest =>
        .ok (.luma (unbias 32 (lowSix b1)) (unbias 8 (b2.extractLsb' 4 4))
          (unbias 8 (b2.extractLsb' 0 4))) rest
      | [] => .truncated
    else .ok (.run ((lowSix b1).toNat + 1)) rest

/-! ### Encoding -/

/-- The bytes of a chunk (R103 to R107, R109); meant for well-formed chunks. -/
def encode : Instr → List Byte
  | .rgb r g b => [0xFE, r, g, b]
  | .rgba r g b a => [0xFF, r, g, b, a]
  | .index i => [(0b00#2 ++ i : BitVec 8)]
  | .diff dr dg db => [(0b01#2 ++ biased 2 2 dr ++ biased 2 2 dg ++ biased 2 2 db : BitVec 8)]
  | .luma dg drg dbg =>
    [(0b10#2 ++ biased 6 32 dg : BitVec 8), (biased 4 8 drg ++ biased 4 8 dbg : BitVec 8)]
  | .run len => [(0b11#2 ++ BitVec.ofNat 6 (len - 1) : BitVec 8)]

/-! ### Big-endian numbers, header and end marker -/

/-- `BE32` (R13): four bytes, most significant first. -/
def be32 (b0 b1 b2 b3 : Byte) : Word32 := b0 ++ b1 ++ b2 ++ b3

/-- `bytesBE32` (R13), the inverse of `be32`. -/
def bytesBE32 (v : Word32) : List Byte :=
  [v.extractLsb' 24 8, v.extractLsb' 16 8, v.extractLsb' 8 8, v.extractLsb' 0 8]

/-- The 14 header bytes (R100, R210). -/
def headerBytes (magic w hgt : Word32) (ch cs : Byte) : List Byte :=
  bytesBE32 magic ++ bytesBE32 w ++ bytesBE32 hgt ++ [ch, cs]

/-- The end marker (R101). -/
def endMarker : List Byte := [0, 0, 0, 0, 0, 0, 0, 1]

/-! ### The opcode table's numbering -/

/-- The bytes of an instruction whose bits are `w`, bit 0 the least significant bit of the first byte: the first
`nbits` bits as given, the bits above them zero, up to the longest chunk of 5 bytes. -/
def tableBytes (nbits w : Nat) : List Byte :=
  (List.range 5).map fun j => BitVec.ofNat 8 ((w % 2 ^ nbits) / 2 ^ (8 * j))

/-- The chunk that the decoder reads from an instruction in the opcode table's numbering. -/
def decodeTableWord (nbits w : Nat) : Option Instr :=
  match decode (tableBytes nbits w) with
  | .ok i _ => some i
  | .noTagByte => none
  | .truncated => none

/-! ### The listing syntax of R114 -/

/-- A byte in decimal. -/
def listByte (b : Byte) : String := toString b.toNat

/-- A chunk in the listing syntax of R114. -/
def Instr.listing : Instr → String
  | .rgb r g b => "RGB " ++ listByte r ++ "," ++ listByte g ++ "," ++ listByte b
  | .rgba r g b a =>
    "RGBA " ++ listByte r ++ "," ++ listByte g ++ "," ++ listByte b ++ "," ++ listByte a
  | .index i => "INDEX " ++ toString i.toNat
  | .diff dr dg db => "DIFF " ++ toString dr ++ "," ++ toString dg ++ "," ++ toString db
  | .luma dg drg dbg => "LUMA " ++ toString dg ++ "," ++ toString drg ++ "," ++ toString dbg
  | .run len => "RUN " ++ toString len

end Sys2Proof
end

