-- ==== Sys2Proof/Config.lean ====
section
/-! DEFINITION. The parameters of an instance (spec/00_scope.md R9), the names of its units and agents
(spec/10_state.md R30, R31), and the free values: what the spec leaves open has no body here, so no proof can
see it. -/

namespace Sys2Proof

/-- The named parameters of R9. They are no state of the block (R57); the model carries them as a field of State that
no step writes, so that a claim about every state is a claim about every value of them (log entry 1, DESIGN CHOICE,
safe). -/
structure Params where
  /-- `P_MAX_PIXELS`: the largest pixel count of an image. -/
  maxPixels : Word64
  /-- `P_MAGIC`: the first four bytes of a stream, the first byte most significant. -/
  magic : Word32
  /-- `P_PREV_INIT`: the previous pixel at the start of a pass. -/
  prevInit : Pixel
  /-- `P_DEC_UPDATE_ON_INDEX`: DEC writes the cache after an INDEX chunk. -/
  decUpdateOnIndex : Bool
deriving DecidableEq, Repr

/-- The defaults of R9: 400 000 000 pixels, "qoif", the transparent pixel, no write after INDEX. -/
def Params.default : Params :=
  { maxPixels := 400000000, magic := 0x716F6966, prevInit := Pixel.clear, decUpdateOnIndex := false }

/-- The two units of an instance (R30). -/
inductive UnitId where
  | enc
  | dec
deriving DecidableEq, Repr

/-- The agents whose steps interleave (R31). -/
inductive Agent where
  | host
  | enc
  | dec
deriving DecidableEq, Repr, Inhabited

/-- A free byte: an unspecified byte of a buffer (R88, R320, R332). The argument is the draw counter of State. -/
opaque Config.freeByte : Nat → Byte

/-- A free byte of IN: what a unit reads where another unit's writes are in no order with its pass (R84; log entry 22).
The arguments are the number drawn at the pass's START and the storage address. -/
opaque Config.freeInput : Nat → Nat → Byte

/-- A free 64-bit value: an unspecified register or latch (R54, R320), an info word with no stated value. -/
opaque Config.freeWord : Nat → Word64

/-- A free pixel: an unspecified `prev` or cache slot after hardware reset (R320). -/
opaque Config.freePixel : Nat → Pixel

/-- The agent that moves next where the spec leaves the interleaving open (R31). -/
opaque Config.freeAgent : Nat → Agent

end Sys2Proof
end

