-- ==== Sys2Proof/Machine/State.lean ====
section
/-! DEFINITION. The state of one instance (spec/10_state.md), as plain data, its value right after reset
(spec/70_reset_and_hazards.md R321), and the reasons for which the machine can stop. -/

namespace Sys2Proof.Machine

/-- The state-machine state of a unit (R32). -/
inductive Phase where
  | idle
  | validate
  | header
  | pixels
  | footer
  | done
  | error
deriving DecidableEq, Repr

/-- The errors that end a pass (R281). The I/O pass-through of code 11 is never raised (R284), so it is none of
them. -/
inductive PassError where
  | invalidChannels
  | emptyImage
  | imageTooLarge
  | badEncodingDataSize
  | inputBufferTooSmall
  | outputBufferTooSmall
  | invalidMagic
  | unexpectedBufferEnd
  | invalidColorSpace
  | invalidPadding
deriving DecidableEq, Repr

/-- The host-visible registers of a unit that hold a value (R50). CTRL reads 0 and STATUS is a function of the phase
(R51), so neither stands here; reserved bits are not stored. -/
structure Regs where
  /-- `ERR_CODE`, bits 7:0. -/
  errCode : Byte
  /-- `ERR_INFO0`. -/
  errInfo0 : Word64
  /-- `ERR_INFO1`. -/
  errInfo1 : Word64
  /-- `WIDTH`. -/
  width : Word32
  /-- `HEIGHT`. -/
  height : Word32
  /-- `CHANNELS`, bits 7:0. -/
  channels : Byte
  /-- `COLORSPACE`, bits 7:0. -/
  colorspace : Byte
  /-- `IN_LEN`. -/
  inLen : Word64
  /-- `OUT_CAP`. -/
  outCap : Word64
  /-- `OUT_LEN`. -/
  outLen : Word64
  /-- `IN_USED`. -/
  inUsed : Word64
deriving DecidableEq, Repr

/-- The pass latches (R37). -/
structure Latches where
  w : Word32
  hgt : Word32
  ch : Byte
  cs : Byte
  n : Word64
  inLen : Word64
  outCap : Word64
deriving DecidableEq, Repr

/-- Some storage addresses: from the first number up to, and not with, the second. -/
abbrev Window := Nat × Nat

/-- One unit (R30). Both units have the same pieces. -/
structure UnitState where
  /-- The state-machine state (R32). -/
  phase : Phase
  /-- The host-visible registers (R50). -/
  regs : Regs
  /-- The pass latches (R37). -/
  lat : Latches
  /-- The previous-pixel register (R33). -/
  prev : Pixel
  /-- The index cache (R40). -/
  idx : Cache
  /-- The unit's run counter: `run` in ENC (R34), `drun` in DEC (R35). -/
  run : BitVec 6
  /-- Index of the next pixel (R36). -/
  k : Word64
  /-- Next input byte offset (R36). -/
  ipos : Word64
  /-- Next output byte offset (R36). -/
  opos : Word64
  /-- Where the platform binds IN: the storage address of `IN[0]` (R73, D5; log entry 4, DESIGN CHOICE, safe). -/
  inBase : Nat
  /-- Where the platform binds OUT: the storage address of `OUT[0]`. -/
  outBase : Nat
  /-- A START was accepted and no STATUS read has returned DONE or ERROR since (R83, R331; log entry 11, DEDUCED,
  safe). -/
  awaited : Bool
  /-- The storage that passes of this unit wrote, and whose writes no STATUS read of DONE or ERROR has put before the
  host's accesses yet (R83; log entry 11, DEDUCED, safe). -/
  unseen : List Window
  /-- The storage whose writes by the other unit are in no order with the writes of this unit's pass: the other unit's
  `unseen` when this pass was started (R84; log entry 22, DEDUCED, safe). -/
  unorderedOut : List Window
  /-- The part of it that is in no order with the reads of this unit's pass either: what the host had not written since
  (R83, R84; log entry 22, DEDUCED, safe). -/
  unorderedIn : List Window
  /-- The number at which the pass takes the free bytes that it reads in `unorderedIn`. -/
  passDraw : Nat
deriving DecidableEq, Repr

/-- What the host can do (R31): register accesses (R50), accesses to storage, binding a unit's buffers (R325) and
hardware reset (R320). -/
inductive HostAction where
  | readReg (u : UnitId) (reg : Nat)
  | writeReg (u : UnitId) (reg : Nat) (v : Word64)
  | readMem (addr : Nat)
  | writeMem (addr : Nat) (v : Byte)
  | bind (u : UnitId) (inBase outBase : Nat)
  | hardwareReset
deriving DecidableEq, Repr

/-- The storage that the buffers are bound to: cells with strictly rising addresses, none of them holding the byte
that an unlisted address reads as. -/
abbrev Memory := List Host.Cell

/-- The whole machine. -/
structure State where
  enc : UnitState
  dec : UnitState
  /-- The parameters of R9; no step writes them. -/
  params : Params
  /-- Storage; IN and OUT of both units are windows of it (R70). -/
  mem : Memory
  /-- The storage that the host and an earlier pass both wrote, with no order between the two; the host's was the later
  write in the order of the steps (R83, R84; log entry 23, DEDUCED, safe). -/
  contested : List Window
  /-- The host's pending actions, oldest first. -/
  hostIn : List HostAction
  /-- What the host's reads returned, oldest first. -/
  hostOut : List Word64
  /-- The agents that move next (R31); when it is empty, a free value names the agent. -/
  schedule : List Agent
  /-- The counter at which a free value is taken. -/
  draws : Nat
deriving DecidableEq, Repr

/-- Every register is 0 after reset (R50, R321). -/
def Regs.reset : Regs :=
  { errCode := 0, errInfo0 := 0, errInfo1 := 0, width := 0, height := 0, channels := 0, colorspace := 0
    inLen := 0, outCap := 0, outLen := 0, inUsed := 0 }

/-- The latches after reset: unspecified in the spec (R321), named zero here (log entry 2, DESIGN CHOICE, unsafe). -/
def Latches.reset : Latches :=
  { w := 0, hgt := 0, ch := 0, cs := 0, n := 0, inLen := 0, outCap := 0 }

/-- A unit after reset: phase IDLE and every register 0 (R321). The hidden fields are unspecified in the spec and
named zero here (log entry 2, DESIGN CHOICE, unsafe). -/
def UnitState.reset (inBase outBase : Nat) : UnitState :=
  { phase := .idle, regs := Regs.reset, lat := Latches.reset, prev := Pixel.clear
    idx := Vector.replicate 64 Pixel.clear, run := 0, k := 0, ipos := 0, opos := 0
    inBase := inBase, outBase := outBase, awaited := false, unseen := [], unorderedOut := [], unorderedIn := []
    passDraw := 0 }

/-- The machine right after reset (R321). The four buffers are bound to disjoint windows of 2^64 bytes (log entry 4). -/
def State.reset : State :=
  { enc := UnitState.reset 0 (2 ^ 64)
    dec := UnitState.reset (2 * 2 ^ 64) (3 * 2 ^ 64)
    params := Params.default, mem := [], contested := [], hostIn := [], hostOut := [], schedule := [], draws := 0 }

/-- Why the machine stops with a fault: a step the spec gives no meaning to. Under the invariant of Safety.lean no step
faults, so stopping is safe (log entry 9). -/
inductive Fault where
  /-- Raised by a MemRead or MemWrite that leaves IN or OUT: the primitives are "Defined only when" the bytes lie
  inside (R13), and R72 says that a unit never makes such an access. Safe. -/
  | outOfRange
  /-- Raised by a pixel step whose channel latch is neither 3 nor 4: R130 and R134 give a pixel a byte form for these
  two only, and VALIDATE lets no other through. Safe. -/
  | badChannelLatch
  /-- Raised by DEC in phase HEADER: DEC has no HEADER step and never enters that phase (R240). Safe. -/
  | decHasNoHeaderStep
deriving DecidableEq, Repr

/-- Why the machine refuses to go on: what the spec tells a model to refuse. -/
inductive Refusal where
  /-- An instruction without a meaning yet; raised by no arm of exec. Safe. -/
  | notModelled (mnemonic : String)
  /-- Raised by a START whose IN and OUT overlap, or that shares a buffer with a running pass which one of the two
  writes: "A model refuses such a launch" (R330). Safe. -/
  | overlappingBuffers
  /-- Raised by a host write to IN of a pass that a STATUS read has not shown to have ended: "the host must not write
  `IN` between its START write and the STATUS read that returns DONE or ERROR" (R331, I13 "refuse"). Safe. -/
  | hostWroteInput
  /-- Raised by a host write to OUT of a BUSY pass: "while BUSY the host must not write `OUT`" (R332, I14 "write:
  refuse"). Safe. -/
  | hostWroteOutput
  /-- Raised by rebinding the buffers of a pass that has not been seen to end (log entry 12, DESIGN CHOICE). Safe. -/
  | bindDuringPass
deriving DecidableEq, Repr

/-- The outcome of a step of this machine. -/
abbrev Result := Host.Outcome State Fault Refusal

end Sys2Proof.Machine
end

