-- ==== Sys2Proof/Machine/Flags.lean ====
section
/-! DEFINITION. The status of a unit. The block has no condition codes (spec/10_state.md R39); its status is
STATUS.STATE (R51), the error code (spec/60_exceptions.md R281) and the run-active condition (R38). -/

namespace Sys2Proof.Machine

/-- `STATUS.STATE` (R50, R51): 0 IDLE, 1 BUSY, 2 DONE, 3 ERROR. -/
def statusCode : Phase → Nat
  | .idle => 0
  | .validate => 1
  | .header => 1
  | .pixels => 1
  | .footer => 1
  | .done => 2
  | .error => 3

/-- The unit is BUSY (R51): a pass runs. -/
def busy (p : Phase) : Bool := statusCode p == 1

/-- The source's RunActive (R38): `run > 0` in ENC, `drun > 0` in DEC. -/
def runActive (x : UnitState) : Bool := x.run != 0

/-- The numeric code of an error (R281). -/
def errorCode : PassError → Byte
  | .invalidChannels => 1
  | .emptyImage => 2
  | .imageTooLarge => 3
  | .badEncodingDataSize => 4
  | .inputBufferTooSmall => 5
  | .outputBufferTooSmall => 6
  | .invalidMagic => 7
  | .unexpectedBufferEnd => 8
  | .invalidColorSpace => 9
  | .invalidPadding => 10

/-- A pass whose end the host has not seen: it runs, or no STATUS read has returned DONE or ERROR since its START
(R83, R331). -/
def passOpen (x : UnitState) : Bool := busy x.phase || x.awaited

end Sys2Proof.Machine
end

