-- ==== Sys2Proof/Machine/Operands.lean ====
section
/-! DEFINITION. The pixel model (spec/40_pixel_model.md): pixels from and to bytes, the index hash, channel deltas;
the choice of a chunk for a pixel (spec/42_encoder.md R217 to R219) and the worst-case stream length (R202). -/

namespace Sys2Proof.Machine

/-! ### Pixels and bytes -/

/-- `pix` (R130): three bytes give an opaque pixel, four bytes give all channels. -/
def pixelOfBytes : List Byte → Option Pixel
  | [c0, c1, c2] => some ⟨c0, c1, c2, 255⟩
  | [c0, c1, c2, c3] => some ⟨c0, c1, c2, c3⟩
  | _ => none

/-- `out` (R134): the bytes DEC writes for a pixel, alpha dropped when `ch = 3`. -/
def bytesOfPixel (ch : Byte) (p : Pixel) : Option (List Byte) :=
  if ch = 4 then some [p.r, p.g, p.b, p.a]
  else if ch = 3 then some [p.r, p.g, p.b]
  else none

/-- A channel by its index (R132). -/
def channelOf (p : Pixel) (c : Fin 4) : Byte :=
  match c with
  | 0 => p.r
  | 1 => p.g
  | 2 => p.b
  | 3 => p.a

/-! ### The index hash -/

/-- `hash` (R135), computed on integers. -/
def pixelHash (p : Pixel) : Slot :=
  BitVec.ofNat 6 (p.r.toNat * 3 + p.g.toNat * 5 + p.b.toNat * 7 + p.a.toNat * 11)

/-! ### Channel deltas -/

/-- `s8` (R11): a byte read as two's complement. -/
def s8 (v : Byte) : Int := if v.toNat < 128 then (v.toNat : Int) else (v.toNat : Int) - 256

/-- `sd` (R137): the signed delta from `y` to `x`, wrapping modulo 256. -/
def signedDelta (x y : Byte) : Int := s8 (x - y)

/-- `cadd` (R138): a channel plus a delta, modulo 256. -/
def channelAdd (y : Byte) (d : Int) : Byte := BitVec.ofInt 8 ((y.toNat : Int) + d)

/-- The pixel of a DIFF chunk (R161). -/
def diffPixel (prev : Pixel) (dr dg db : Int) : Pixel :=
  ⟨channelAdd prev.r dr, channelAdd prev.g dg, channelAdd prev.b db, prev.a⟩

/-- The pixel of a LUMA chunk (R162). -/
def lumaPixel (prev : Pixel) (dg drg dbg : Int) : Pixel :=
  ⟨channelAdd prev.r (dg + drg), channelAdd prev.g dg, channelAdd prev.b (dg + dbg), prev.a⟩

/-! ### ENC's choice of a chunk -/

/-- The deltas fit DIFF (R217). -/
def fitsDiff (dr dg db : Int) : Bool :=
  decide (-2 ≤ dr ∧ dr ≤ 1) && decide (-2 ≤ dg ∧ dg ≤ 1) && decide (-2 ≤ db ∧ db ≤ 1)

/-- The deltas fit LUMA (R218). -/
def fitsLuma (dr dg db : Int) : Bool :=
  decide (-32 ≤ dg ∧ dg ≤ 31) && decide (-8 ≤ dr - dg ∧ dr - dg ≤ 7)
    && decide (-8 ≤ db - dg ∧ db - dg ≤ 7)

/-- The chunk of a pixel that is neither a repetition nor an index hit: selections (c) to (e) of R211. -/
def codedChunk (prev p : Pixel) : Instr :=
  let dr := signedDelta p.r prev.r
  let dg := signedDelta p.g prev.g
  let db := signedDelta p.b prev.b
  if p.a = prev.a then
    if fitsDiff dr dg db then .diff dr dg db
    else if fitsLuma dr dg db then .luma dg (dr - dg) (db - dg)
    else .rgb p.r p.g p.b
  else .rgba p.r p.g p.b p.a

/-- The chunk of a pixel that is no repetition: selection (b), then `codedChunk` (R211, R216). -/
def chunkFor (prev : Pixel) (idx : Cache) (p : Pixel) : Instr :=
  if idx[(pixelHash p).toNat] = p then .index (pixelHash p) else codedChunk prev p

/-! ### Lengths -/

/-- `MaxLen` (R202), on integers. -/
def maxLen (prevInit : Pixel) (n ch : Nat) : Nat :=
  14 + 8 + n * (ch + 1) + (if ch = 3 ∧ prevInit.a ≠ 255 then 1 else 0)

end Sys2Proof.Machine
end

