-- ==== Sys2Proof/Machine/Ops.lean ====
section
/-! DEFINITION. The named operations over storage, buffers, cache and registers; raising an error
(spec/60_exceptions.md R290) and leaving it by a START (spec/10_state.md R52). -/

namespace Sys2Proof.Machine

/-! ### Storage -/

/-- What an address that the list does not name reads as (log entry 3, DESIGN CHOICE, unsafe). -/
def unlistedByte : Byte := 0

/-- The byte at an address. -/
def Memory.read (m : Memory) (a : Nat) : Byte :=
  match m with
  | [] => unlistedByte
  | c :: rest => if c.1 = a then c.2 else Memory.read rest a

/-- The list without an address. -/
def Memory.erase (m : Memory) (a : Nat) : Memory :=
  match m with
  | [] => []
  | c :: rest => if c.1 = a then Memory.erase rest a else c :: Memory.erase rest a

/-- A cell put before the first higher address. -/
def Memory.place (m : Memory) (a : Nat) (v : Byte) : Memory :=
  match m with
  | [] => [(a, v)]
  | c :: rest => if a < c.1 then (a, v) :: c :: rest else c :: Memory.place rest a v

/-- One byte written. -/
def Memory.write (m : Memory) (a : Nat) (v : Byte) : Memory :=
  if v = unlistedByte then m.erase a else (m.erase a).place a v

/-- Bytes written at rising addresses (R77: every access is a byte access). -/
def Memory.writeBytes (m : Memory) (a : Nat) (bs : List Byte) : Memory :=
  match bs with
  | [] => m
  | v :: rest => Memory.writeBytes (m.write a v) (a + 1) rest

/-- `count` bytes from rising addresses. -/
def Memory.readBytes (m : Memory) (a count : Nat) : List Byte :=
  match count with
  | 0 => []
  | c + 1 => m.read a :: Memory.readBytes m (a + 1) c

/-- `count` bytes from address `a` on become free values, taken at the draw counter from `d` on. -/
def Memory.drawBytes (m : Memory) (a d count : Nat) : Memory :=
  match count with
  | 0 => m
  | c + 1 => (Memory.drawBytes m a d c).write (a + c) (Config.freeByte (d + c))

/-- Addresses strictly rise, none is below `lo`, and no cell holds the unlisted byte. -/
def Memory.wfFrom (lo : Nat) (m : Memory) : Bool :=
  match m with
  | [] => true
  | c :: rest => decide (lo ≤ c.1) && c.2 != unlistedByte && Memory.wfFrom (c.1 + 1) rest

/-- The canonical form of storage. -/
def Memory.wf (m : Memory) : Bool := Memory.wfFrom 0 m

/-! ### Units -/

/-- The unit of a name. -/
def State.unit (s : State) : UnitId → UnitState
  | .enc => s.enc
  | .dec => s.dec

/-- The state with one unit replaced. -/
def State.setUnit (s : State) (u : UnitId) (x : UnitState) : State :=
  match u with
  | .enc => { s with enc := x }
  | .dec => { s with dec := x }

/-- The other unit. -/
def otherUnit : UnitId → UnitId
  | .enc => .dec
  | .dec => .enc

/-! ### Sets of storage addresses -/

/-- The address lies in one of the windows. -/
def covered (ws : List Window) (a : Nat) : Bool := ws.any fun w => decide (w.1 ≤ a ∧ a < w.2)

/-- One window without the addresses of another: what lies before it, and what lies after it. -/
def windowWithout (c w : Window) : List Window :=
  (if w.1 < min w.2 c.1 then [(w.1, min w.2 c.1)] else []) ++
  (if max w.1 c.2 < w.2 then [(max w.1 c.2, w.2)] else [])

/-- The windows without the addresses of `cut`. -/
def windowsWithout (ws cut : List Window) : List Window :=
  match cut with
  | [] => ws
  | c :: rest => windowsWithout (ws.flatMap (windowWithout c)) rest

/-! ### The buffers IN and OUT (R70, R13) -/

/-- A byte of a pass's IN: the byte of storage, or a free byte where the other unit's writes are in no order with the
pass (R84; log entry 22). -/
def inByte (x : UnitState) (m : Memory) (a : Nat) : Byte :=
  if covered x.unorderedIn a then Config.freeInput x.passDraw a else m.read a

/-- `count` bytes of a pass's IN, from storage address `a` on. -/
def inBytes (x : UnitState) (m : Memory) (a count : Nat) : List Byte :=
  match count with
  | 0 => []
  | c + 1 => inByte x m a :: inBytes x m (a + 1) c

/-- `MemRead(IN, a, count)` (R13): none outside IN. -/
def memRead (u : UnitId) (s : State) (a count : Nat) : Option (List Byte) :=
  if a + count ≤ (s.unit u).lat.inLen.toNat then some (inBytes (s.unit u) s.mem ((s.unit u).inBase + a) count)
  else none

/-- `MemWrite(OUT, a, length bs, bs)` (R13): none outside OUT. -/
def memWrite (u : UnitId) (s : State) (a : Nat) (bs : List Byte) : Option State :=
  if a + bs.length ≤ (s.unit u).lat.outCap.toNat then
    some { s with mem := s.mem.writeBytes ((s.unit u).outBase + a) bs }
  else none

/-- The length of IN of the pass: the latch, or before VALIDATE has set it the register it is taken from (R37). -/
def passInLen (x : UnitState) : Nat := if x.phase = .validate then x.regs.inLen.toNat else x.lat.inLen.toNat

/-- The capacity of OUT of the pass, likewise. -/
def passOutCap (x : UnitState) : Nat := if x.phase = .validate then x.regs.outCap.toNat else x.lat.outCap.toNat

/-- The storage address lies in IN of the unit's pass. -/
def inInput (x : UnitState) (a : Nat) : Bool := decide (x.inBase ≤ a ∧ a < x.inBase + passInLen x)

/-- The storage address lies in OUT of the unit's pass. -/
def inOutput (x : UnitState) (a : Nat) : Bool := decide (x.outBase ≤ a ∧ a < x.outBase + passOutCap x)

/-- Two windows of storage have an address in common. -/
def windowsMeet (a m b l : Nat) : Bool := decide (max a b < min (a + m) (b + l))

/-! ### The index cache (R141, R142) -/

/-- LOOKUP. -/
def cacheLookup (idx : Cache) (h : Slot) : Pixel := idx[h.toNat]

/-- WRITE at the pixel's own hash slot; every WRITE of the block is of this form (R142). -/
def cacheWrite (idx : Cache) (p : Pixel) : Cache := idx.set (pixelHash p).toNat p

/-- CLEAR (R140). -/
def cacheCleared : Cache := Vector.replicate 64 Pixel.clear

/-! ### Errors (R290, R292) -/

/-- An info word (R282): zero-extended to 64 bits; a value that does not fit has no stated word and is free (log
entry 13, DESIGN CHOICE, safe). -/
def infoWord (d v : Nat) : Word64 := if v < 2 ^ 64 then BitVec.ofNat 64 v else Config.freeWord d

/-- `raise E(i0, i1)` (R290) in a step of a unit. -/
def raise (u : UnitId) (e : PassError) (i0 i1 : Nat) (s : State) : State :=
  let x := s.unit u
  { s.setUnit u { x with
      phase := .error
      regs := { x.regs with
        errCode := errorCode e, errInfo0 := infoWord s.draws i0, errInfo1 := infoWord (s.draws + 1) i1
        outLen := 0, inUsed := 0 } } with draws := s.draws + 2 }

/-- An error of DEC's PIXELS or FOOTER step: the bytes of OUT that earlier pixel steps of the pass wrote become
unspecified (R88, I9; log entry 10), none of them is contested by the host any more, since the START came after the
host's write (log entry 23), then R290. -/
def raiseDecoding (e : PassError) (s : State) : State :=
  let count := s.dec.k.toNat * s.dec.lat.ch.toNat
  raise .dec e 0 0 { s with
    mem := s.mem.drawBytes s.dec.outBase s.draws count, draws := s.draws + count
    contested := windowsWithout s.contested [(s.dec.outBase, s.dec.outBase + count)]
    dec := { s.dec with unseen := (s.dec.outBase, s.dec.outBase + count) :: s.dec.unseen } }

/-! ### Completion (R55) -/

/-- As `drawBytes`, at the addresses that the windows cover only. -/
def Memory.drawCovered (m : Memory) (ws : List Window) (a d count : Nat) : Memory :=
  match count with
  | 0 => m
  | c + 1 =>
    let m := Memory.drawCovered m ws a d c
    if covered ws (a + c) then m.write (a + c) (Config.freeByte (d + c)) else m

/-- The first `count` bytes of OUT, which the unit's pass has written: one that the other unit wrote too, with no order
between the two (R84), holds a free value (log entry 22). What the host had written there before the START is
overwritten, so none of them is contested by the host (log entry 23). -/
def settleOutput (u : UnitId) (count : Nat) (s : State) : State :=
  let x := s.unit u
  { s with
    mem := s.mem.drawCovered x.unorderedOut x.outBase s.draws count, draws := s.draws + count
    contested := windowsWithout s.contested [(x.outBase, x.outBase + count)] }

/-- A pass ends DONE with its results (R55). It has written `OUT[0 .. outLen - 1]` (R87), which the host has not been
shown yet (R83). -/
def completePass (outLen inUsed : Word64) (x : UnitState) : UnitState :=
  { x with
    phase := .done, regs := { x.regs with outLen := outLen, inUsed := inUsed }
    unseen := (x.outBase, x.outBase + outLen.toNat) :: x.unseen }

/-! ### START (R52) -/

/-- The registers after a START (R52): error and result registers 0, and in DEC the header registers too. -/
def startRegs (u : UnitId) (r : Regs) : Regs :=
  let r := { r with errCode := 0, errInfo0 := 0, errInfo1 := 0, outLen := 0, inUsed := 0 }
  match u with
  | .enc => r
  | .dec => { r with width := 0, height := 0, channels := 0, colorspace := 0 }

/-- A START that is accepted (R52). It is also the only way out of ERROR and DONE beside hardware reset (R292). It
puts the host's writes, and what the host has seen, before the pass, and nothing else of the other unit (R83, R84; log
entry 22). -/
def startPass (u : UnitId) (s : State) : State :=
  let x := s.unit u
  let y := s.unit (otherUnit u)
  { s.setUnit u { x with
      phase := .validate, regs := startRegs u x.regs, awaited := true
      unorderedOut := y.unseen, unorderedIn := windowsWithout y.unseen s.contested
      passDraw := s.draws } with draws := s.draws + 1 }

/-! ### DEC's pixel step (R250) -/

/-- The step's end: write the pixel to OUT, advance `k` and `opos`, move to FOOTER after the last pixel (R250,
R253). -/
def finishPixel (px : Pixel) (s : State) : Result :=
  let d := s.dec
  match bytesOfPixel d.lat.ch px with
  | none => .fault .badChannelLatch
  | some bs =>
    match memWrite .dec s (d.k.toNat * d.lat.ch.toNat) bs with
    | none => .fault .outOfRange
    | some s =>
      .next { s with dec := { d with
        opos := d.opos + d.lat.ch.setWidth 64
        k := d.k + 1
        phase := if d.k + 1 = d.lat.n then .footer else d.phase } }

/-- The bytes of a chunk of length `len` do not all lie inside IN (R252). -/
def chunkPastEnd (len : Nat) (s : State) : Bool := decide (s.dec.lat.inLen.toNat < s.dec.ipos.toNat + len)

/-- A chunk of `len` bytes has produced `px`: `ipos` moves past it and `prev` becomes `px`; the cache takes `px` when
`write` is set (R144, R160 to R162, R164, R165). -/
def takeChunk (len : Nat) (write : Bool) (px : Pixel) (s : State) : State :=
  let d := s.dec
  { s with dec := { d with
      ipos := d.ipos + BitVec.ofNat 64 len
      idx := if write then cacheWrite d.idx px else d.idx
      prev := px } }

/-- A chunk of more than one byte: raise UnexpectedBufferEnd before any write, or produce the pixel (R162, R164,
R165). -/
def longChunk (len : Nat) (px : Pixel) (s : State) : Result :=
  if chunkPastEnd len s then .next (raiseDecoding .unexpectedBufferEnd s)
  else finishPixel px (takeChunk len true px s)

/-! ### ENC's output -/

/-- `emit` (R13). -/
def emit (bs : List Byte) (s : State) : Option State :=
  match memWrite .enc s s.enc.opos.toNat bs with
  | none => none
  | some s => some { s with enc := { s.enc with opos := s.enc.opos + BitVec.ofNat 64 bs.length } }

end Sys2Proof.Machine
end

