-- ==== Sys2Proof/Machine/Delta.lean ====
section
/-! DEFINITION. The delta chunks in DEC: DIFF and LUMA (spec/41_chunk_codec.md R161, R162). -/

namespace Sys2Proof.Machine

/-- DIFF (R161). -/
def execDiff (dr dg db : Int) (s : State) : Result :=
  let px := diffPixel s.dec.prev dr dg db
  finishPixel px (takeChunk 1 true px s)

/-- LUMA (R162). -/
def execLuma (dg drg dbg : Int) (s : State) : Result := longChunk 2 (lumaPixel s.dec.prev dg drg dbg) s

end Sys2Proof.Machine
end

