-- ==== Sys2Proof/Machine/Literal.lean ====
section
/-! DEFINITION. The literal chunks in DEC: RGB and RGBA (spec/41_chunk_codec.md R164, R165). -/

namespace Sys2Proof.Machine

/-- RGB (R164): alpha is the previous pixel's. -/
def execRgb (r g b : Byte) (s : State) : Result := longChunk 4 ⟨r, g, b, s.dec.prev.a⟩ s

/-- RGBA (R165). -/
def execRgba (r g b a : Byte) (s : State) : Result := longChunk 5 ⟨r, g, b, a⟩ s

end Sys2Proof.Machine
end

