-- ==== Sys2Proof/Machine/Short.lean ====
section
/-! DEFINITION. The chunks in DEC that repeat a known pixel: INDEX and RUN (spec/41_chunk_codec.md R160, R163). -/

namespace Sys2Proof.Machine

/-- INDEX (R160): the cache takes the pixel again only when `P_DEC_UPDATE_ON_INDEX` is true (R144). -/
def execIndex (i : Slot) (s : State) : Result :=
  let px := cacheLookup s.dec.idx i
  finishPixel px (takeChunk 1 s.params.decUpdateOnIndex px s)

/-- RUN (R163): the first repetition now, `L - 1` more owed; no cache write, `prev` unchanged. -/
def execRun (len : Nat) (s : State) : Result :=
  finishPixel s.dec.prev
    { s with dec := { s.dec with ipos := s.dec.ipos + 1, run := BitVec.ofNat 6 (len - 1) } }

end Sys2Proof.Machine
end

