-- ==== Sys2Proof/Machine/Decoder.lean ====
section
/-! DEFINITION. The steps of DEC (spec/43_decoder.md): VALIDATE, PIXELS with its fetch of a chunk, FOOTER. -/

namespace Sys2Proof.Machine

/-- VALIDATE (R244): the buffer length first, then the header is read and copied to the registers, then the header
checks in the order of R286, then the pass state. -/
def decValidate (s : State) : Result :=
  let r := s.dec.regs
  let s := { s with dec := { s.dec with lat := { s.dec.lat with inLen := r.inLen, outCap := r.outCap } } }
  if r.inLen.toNat < 22 then .next (raise .dec .inputBufferTooSmall r.inLen.toNat 22 s)
  else match memRead .dec s 0 14 with
  | some [m0, m1, m2, m3, w0, w1, w2, w3, h0, h1, h2, h3, ch, cs] =>
    let magic := be32 m0 m1 m2 m3
    let w := be32 w0 w1 w2 w3
    let hgt := be32 h0 h1 h2 h3
    let s := { s with dec := { s.dec with
      lat := { s.dec.lat with w := w, hgt := hgt, ch := ch, cs := cs }
      regs := { s.dec.regs with width := w, height := hgt, channels := ch, colorspace := cs } } }
    if magic ≠ s.params.magic then .next (raise .dec .invalidMagic magic.toNat 0 s)
    else if ch ≠ 3 ∧ ch ≠ 4 then .next (raise .dec .invalidChannels ch.toNat 0 s)
    else if cs ≠ 0 ∧ cs ≠ 1 then .next (raise .dec .invalidColorSpace cs.toNat 0 s)
    else if w = 0 ∨ hgt = 0 then .next (raise .dec .emptyImage w.toNat hgt.toNat s)
    else
      let n := w.toNat * hgt.toNat
      let s := { s with dec := { s.dec with lat := { s.dec.lat with n := BitVec.ofNat 64 n } } }
      if s.params.maxPixels.toNat < n then .next (raise .dec .imageTooLarge w.toNat hgt.toNat s)
      else if r.outCap.toNat < n * ch.toNat then
        .next (raise .dec .outputBufferTooSmall r.outCap.toNat (n * ch.toNat) s)
      else
        .next { s with dec := { s.dec with
          prev := s.params.prevInit, run := 0, k := 0, ipos := 14, opos := 0
          idx := cacheCleared, phase := .pixels } }
  | _ => .fault .outOfRange

/-- The bytes of IN from `ipos` on, as many as the longest chunk has and IN still holds. The decoder looks only at the
bytes of the chunk it finds (log entry 16). -/
def chunkWindow (s : State) : List Byte :=
  inBytes s.dec s.mem (s.dec.inBase + s.dec.ipos.toNat) (min 5 (s.dec.lat.inLen.toNat - s.dec.ipos.toNat))

/-- PIXELS (R250): a repetition of the active run (R251), or the next chunk; a tag byte or a chunk past the end of IN
raises UnexpectedBufferEnd (R252). -/
def decPixel (s : State) : Result :=
  if runActive s.dec then
    finishPixel s.dec.prev { s with dec := { s.dec with run := s.dec.run - 1 } }
  else
    match decode (chunkWindow s) with
    | .ok i _ => exec i s
    | .noTagByte => .next (raiseDecoding .unexpectedBufferEnd s)
    | .truncated => .next (raiseDecoding .unexpectedBufferEnd s)

/-- FOOTER (R262): the next 8 bytes must be the end marker. -/
def decFooter (s : State) : Result :=
  let d := s.dec
  if d.lat.inLen.toNat < d.ipos.toNat + 8 then .next (raiseDecoding .invalidPadding s)
  else match memRead .dec s d.ipos.toNat 8 with
  | none => .fault .outOfRange
  | some marker =>
    if marker ≠ endMarker then .next (raiseDecoding .invalidPadding s)
    else
      let outLen := BitVec.ofNat 64 (d.lat.n.toNat * d.lat.ch.toNat)
      .next (settleOutput .dec outLen.toNat { s with dec := completePass outLen (d.ipos + 8) d })

/-- A step of DEC. In IDLE, DONE and ERROR it has none and nothing changes (R240, R302; log entry 18). -/
def decStep (s : State) : Result :=
  match s.dec.phase with
  | .idle => .next s
  | .validate => decValidate s
  | .header => .fault .decHasNoHeaderStep
  | .pixels => decPixel s
  | .footer => decFooter s
  | .done => .next s
  | .error => .next s

end Sys2Proof.Machine
end

