-- ==== Sys2Proof/Machine/Encoder.lean ====
section
/-! DEFINITION. The steps of ENC (spec/42_encoder.md): VALIDATE, HEADER, PIXELS, FOOTER. -/

namespace Sys2Proof.Machine

/-- VALIDATE (R205): the checks in the order of R286, then the pass state. It reads no byte of IN and writes no byte of
OUT. `ipos` starts at 0 (R322; log entry 14). -/
def encValidate (s : State) : Result :=
  let r := s.enc.regs
  let s := { s with enc := { s.enc with lat := { s.enc.lat with
    w := r.width, hgt := r.height, ch := r.channels, cs := r.colorspace
    inLen := r.inLen, outCap := r.outCap } } }
  let ch := r.channels.toNat
  if r.channels ≠ 3 ∧ r.channels ≠ 4 then .next (raise .enc .invalidChannels ch 0 s)
  else if r.colorspace ≠ 0 ∧ r.colorspace ≠ 1 then
    .next (raise .enc .invalidColorSpace r.colorspace.toNat 0 s)
  else if r.width = 0 ∨ r.height = 0 then .next (raise .enc .emptyImage r.width.toNat r.height.toNat s)
  else
    let n := r.width.toNat * r.height.toNat
    let s := { s with enc := { s.enc with lat := { s.enc.lat with n := BitVec.ofNat 64 n } } }
    if s.params.maxPixels.toNat < n then
      .next (raise .enc .imageTooLarge r.width.toNat r.height.toNat s)
    else if r.inLen.toNat ≠ n * ch then
      .next (raise .enc .badEncodingDataSize r.inLen.toNat (n * ch) s)
    else if r.outCap.toNat < maxLen s.params.prevInit n ch then
      .next (raise .enc .outputBufferTooSmall r.outCap.toNat (maxLen s.params.prevInit n ch) s)
    else
      .next { s with enc := { s.enc with
        prev := s.params.prevInit, run := 0, k := 0, ipos := 0, opos := 0
        idx := cacheCleared, phase := .header } }

/-- HEADER (R210). -/
def encHeader (s : State) : Result :=
  let l := s.enc.lat
  match emit (headerBytes s.params.magic l.w l.hgt l.ch l.cs) s with
  | none => .fault .outOfRange
  | some s => .next { s with enc := { s.enc with phase := .pixels } }

/-- The end of a PIXELS step: `k` and `ipos = k * ch` advance, and after the last pixel the phase is FOOTER (R211, R36;
log entry 14). -/
def encAdvance (s : State) : State :=
  let e := s.enc
  { s with enc := { e with
      k := e.k + 1
      ipos := e.ipos + e.lat.ch.setWidth 64
      phase := if e.k + 1 = e.lat.n then .footer else e.phase } }

/-- What a PIXELS step emits and leaves in `run`, `prev` and `idx` for the pixel `p`; `last` says that it is the
image's last (R211, R212, R214 to R220). -/
def encPixelEffect (last : Bool) (p : Pixel) (e : UnitState) : List Byte × UnitState :=
  if p = e.prev then
    let run := e.run + 1
    if run = 62 ∨ last then (encode (.run run.toNat), { e with run := 0 })
    else ([], { e with run := run })
  else
    let flush := if runActive e then encode (.run e.run.toNat) else []
    let hit := cacheLookup e.idx (pixelHash p) = p
    (flush ++ encode (chunkFor e.prev e.idx p),
      { e with run := 0, idx := if hit then e.idx else cacheWrite e.idx p, prev := p })

/-- PIXELS (R211): read pixel `k` (R213), code it, advance. -/
def encPixel (s : State) : Result :=
  let e := s.enc
  match memRead .enc s (e.k.toNat * e.lat.ch.toNat) e.lat.ch.toNat with
  | none => .fault .outOfRange
  | some bytes =>
    match pixelOfBytes bytes with
    | none => .fault .badChannelLatch
    | some p =>
      let effect := encPixelEffect (decide (e.k.toNat + 1 = e.lat.n.toNat)) p e
      match emit effect.1 { s with enc := effect.2 } with
      | none => .fault .outOfRange
      | some s => .next (encAdvance s)

/-- FOOTER (R221). -/
def encFooter (s : State) : Result :=
  match emit endMarker s with
  | none => .fault .outOfRange
  | some s =>
    let e := s.enc
    .next (settleOutput .enc e.opos.toNat
      { s with enc := completePass e.opos (BitVec.ofNat 64 (e.lat.n.toNat * e.lat.ch.toNat)) e })

/-- A step of ENC. In IDLE, DONE and ERROR it has none and nothing changes (R200, R302; log entry 18). -/
def encStep (s : State) : Result :=
  match s.enc.phase with
  | .idle => .next s
  | .validate => encValidate s
  | .header => encHeader s
  | .pixels => encPixel s
  | .footer => encFooter s
  | .done => .next s
  | .error => .next s

end Sys2Proof.Machine
end

