-- ==== Sys2Proof/Machine/HostIface.lean ====
section
/-! DEFINITION. The host's actions: register reads and writes (spec/10_state.md R50 to R54), START (R52), storage,
binding (spec/70_reset_and_hazards.md R325) and hardware reset (R320). -/

namespace Sys2Proof.Machine

/-! ### Register reads -/

/-- The value of a register, zero-extended; CTRL, reserved bits and registers 13 and above read 0 (R50). -/
def regValue (x : UnitState) (reg : Nat) : Word64 :=
  match reg with
  | 1 => BitVec.ofNat 64 (statusCode x.phase)
  | 2 => x.regs.errCode.setWidth 64
  | 3 => x.regs.errInfo0
  | 4 => x.regs.errInfo1
  | 5 => x.regs.width.setWidth 64
  | 6 => x.regs.height.setWidth 64
  | 7 => x.regs.channels.setWidth 64
  | 8 => x.regs.colorspace.setWidth 64
  | 9 => x.regs.inLen
  | 10 => x.regs.outCap
  | 11 => x.regs.outLen
  | 12 => x.regs.inUsed
  | _ => 0

/-- The registers whose value is unspecified while the unit is BUSY (R54). -/
def unspecifiedWhileBusy (u : UnitId) (reg : Nat) : Bool :=
  match reg with
  | 3 => true
  | 4 => true
  | 11 => true
  | 12 => true
  | 5 => u == .dec
  | 6 => u == .dec
  | 7 => u == .dec
  | 8 => u == .dec
  | _ => false

/-- How many low bits of a register can differ from 0 (R50). -/
def regBits (reg : Nat) : Nat :=
  match reg with
  | 5 => 32
  | 6 => 32
  | 7 => 8
  | 8 => 8
  | _ => 64

/-- A free value of a register: free in its bits, its reserved bits 0 (R50, R54; log entry 20, DEDUCED, safe). -/
def freeReg (d reg : Nat) : Word64 := ((Config.freeWord d).setWidth (regBits reg)).setWidth 64

/-- The state after a register read: reads have no side effect on the block (R54). A read of STATUS that returns DONE
or ERROR is the ordering point of R83 and R84: the host sees all that this unit has written from then on (log entry
11). -/
def noteStatusRead (u : UnitId) (reg : Nat) (s : State) : State :=
  let x := s.unit u
  if reg = 1 ∧ (x.phase = .done ∨ x.phase = .error) then s.setUnit u { x with awaited := false, unseen := [] }
  else s

/-- A register read. -/
def hostReadReg (u : UnitId) (reg : Nat) (s : State) : State :=
  let x := s.unit u
  if busy x.phase ∧ unspecifiedWhileBusy u reg then
    { s with hostOut := s.hostOut ++ [freeReg s.draws reg], draws := s.draws + 1 }
  else
    { noteStatusRead u reg s with hostOut := s.hostOut ++ [regValue x reg] }

/-! ### Register writes -/

/-- The registers after a write of an RW register (R50, R53): truncated to the register's width; R registers, reserved
fields and registers that do not exist ignore it. -/
def writtenRegs (u : UnitId) (reg : Nat) (v : Word64) (r : Regs) : Regs :=
  match u, reg with
  | .enc, 5 => { r with width := v.setWidth 32 }
  | .enc, 6 => { r with height := v.setWidth 32 }
  | .enc, 7 => { r with channels := v.setWidth 8 }
  | .enc, 8 => { r with colorspace := v.setWidth 8 }
  | _, 9 => { r with inLen := v }
  | _, 10 => { r with outCap := v }
  | _, _ => r

/-- A launch of `u` now would break R73: its IN and OUT overlap, or it shares with the other unit's running pass a
buffer that one of the two writes (R330). -/
def launchHazard (u : UnitId) (s : State) : Bool :=
  let x := s.unit u
  let y := s.unit (otherUnit u)
  let inLen := x.regs.inLen.toNat
  let outCap := x.regs.outCap.toNat
  windowsMeet x.inBase inLen x.outBase outCap
    || (busy y.phase
      && (windowsMeet x.outBase outCap y.inBase (passInLen y)
        || windowsMeet x.outBase outCap y.outBase (passOutCap y)
        || windowsMeet x.inBase inLen y.outBase (passOutCap y)))

/-- A write of CTRL (R52): bit 0 starts a pass unless one runs; the other bits are reserved. -/
def hostWriteCtrl (u : UnitId) (v : Word64) (s : State) : Result :=
  if v.getLsbD 0 = false ∨ busy (s.unit u).phase then .next s
  else if launchHazard u s then .refused .overlappingBuffers
  else .next (startPass u s)

/-- A register write (R52, R53). -/
def hostWriteReg (u : UnitId) (reg : Nat) (v : Word64) (s : State) : Result :=
  let x := s.unit u
  if reg = 0 then hostWriteCtrl u v s
  else if busy x.phase then .next s
  else .next (s.setUnit u { x with regs := writtenRegs u reg v x.regs })

/-! ### Storage -/

/-- The address lies in OUT of a BUSY pass (R332, I14). -/
def outputOfRunningPass (x : UnitState) (a : Nat) : Bool := busy x.phase && inOutput x a

/-- No order puts a write of this unit to the address before the host's next access: it lies in OUT of a running pass
(R332), or a pass wrote it and no STATUS read has shown that (R83). -/
def hiddenFromHost (x : UnitState) (a : Nat) : Bool := outputOfRunningPass x a || covered x.unseen a

/-- The address lies in IN of a pass whose end the host has not seen (R331). A second START before that STATUS read puts
its own IN in the place of the ended pass's, so bytes of the first IN outside the second are the host's again (log entry
24, DESIGN CHOICE, unsafe). -/
def inputOfOpenPass (x : UnitState) (a : Nat) : Bool := passOpen x && inInput x a

/-- A storage read: unspecified where a unit's writes are in no order with it, or with what the host wrote there (R83,
R332; log entries 11 and 23). -/
def hostReadMem (a : Nat) (s : State) : State :=
  if hiddenFromHost s.enc a ∨ hiddenFromHost s.dec a ∨ covered s.contested a then
    { s with hostOut := s.hostOut ++ [(Config.freeByte s.draws).setWidth 64], draws := s.draws + 1 }
  else { s with hostOut := s.hostOut ++ [(s.mem.read a).setWidth 64] }

/-- The contested storage once the host has written a byte: a byte that a pass wrote unseen is contested from then on,
and any other is the host's (R83, R84; log entry 23, DEDUCED, safe). -/
def contestedAfterWrite (a : Nat) (s : State) : List Window :=
  if covered s.enc.unseen a ∨ covered s.dec.unseen a then (a, a + 1) :: s.contested
  else windowsWithout s.contested [(a, a + 1)]

/-- A storage write: refused in IN of a pass whose end the host has not seen (R331, I13) and in OUT of a BUSY pass
(R332, I14). Once the pass has ended a write to its OUT is done, and what the pass wrote unseen is contested. -/
def hostWriteMem (a : Nat) (v : Byte) (s : State) : Result :=
  if inputOfOpenPass s.enc a ∨ inputOfOpenPass s.dec a then .refused .hostWroteInput
  else if outputOfRunningPass s.enc a ∨ outputOfRunningPass s.dec a then .refused .hostWroteOutput
  else .next { s with mem := s.mem.write a v, contested := contestedAfterWrite a s }

/-- Binding a unit's buffers (R325 step 1); refused while a pass is open (log entry 12). -/
def hostBind (u : UnitId) (inBase outBase : Nat) (s : State) : Result :=
  if passOpen (s.unit u) then .refused .bindDuringPass
  else .next (s.setUnit u { s.unit u with inBase := inBase, outBase := outBase })

/-! ### Hardware reset -/

/-- A unit after hardware reset (R320, R321): registers 0, phase IDLE, everything hidden free, taken at the draw
counter from `d` on. The binding is the platform's and stays. A reset is no ordering point (R84): what the host had not
been shown stays unseen, and so does OUT of a pass that the reset ends. -/
def resetUnit (d : Nat) (x : UnitState) : UnitState :=
  { phase := .idle, regs := Regs.reset
    lat := { w := (Config.freeWord d).setWidth 32, hgt := (Config.freeWord (d + 1)).setWidth 32
             ch := (Config.freeWord (d + 2)).setWidth 8, cs := (Config.freeWord (d + 3)).setWidth 8
             n := Config.freeWord (d + 4), inLen := Config.freeWord (d + 5)
             outCap := Config.freeWord (d + 6) }
    prev := Config.freePixel d, idx := Vector.ofFn fun h => Config.freePixel (d + 1 + h.val)
    run := (Config.freeWord (d + 7)).setWidth 6, k := Config.freeWord (d + 8)
    ipos := Config.freeWord (d + 9), opos := Config.freeWord (d + 10)
    inBase := x.inBase, outBase := x.outBase, awaited := false
    unseen := if busy x.phase then (x.outBase, x.outBase + passOutCap x) :: x.unseen else x.unseen
    unorderedOut := [], unorderedIn := [], passDraw := x.passDraw }

/-- How many draws a unit's hidden state takes at most. -/
def resetDraws : Nat := 65

/-- OUT of a pass that a hardware reset ends: every byte in 0 .. out_cap - 1 becomes free (R320, I10; log entry 17), and
none of them is contested by the host any more (log entry 23). -/
def drawRunningOutput (x : UnitState) (s : State) : State :=
  if busy x.phase then
    { s with
      mem := s.mem.drawBytes x.outBase s.draws (passOutCap x), draws := s.draws + passOutCap x
      contested := windowsWithout s.contested [(x.outBase, x.outBase + passOutCap x)] }
  else s

/-- Hardware reset (R320), at any time, of both units. -/
def hardwareReset (s : State) : State :=
  let s := drawRunningOutput s.dec (drawRunningOutput s.enc s)
  { s with enc := resetUnit s.draws s.enc, dec := resetUnit (s.draws + resetDraws) s.dec
           draws := s.draws + 2 * resetDraws }

/-! ### The host's step -/

/-- One action of the host. -/
def hostDo (a : HostAction) (s : State) : Result :=
  match a with
  | .readReg u reg => .next (hostReadReg u reg s)
  | .writeReg u reg v => hostWriteReg u reg v s
  | .readMem addr => .next (hostReadMem addr s)
  | .writeMem addr v => hostWriteMem addr v s
  | .bind u inBase outBase => hostBind u inBase outBase s
  | .hardwareReset => .next (hardwareReset s)

/-- A step of the host: its oldest pending action; without one nothing changes. -/
def hostStep (s : State) : Result :=
  match s.hostIn with
  | [] => .next s
  | a :: rest => hostDo a { s with hostIn := rest }

end Sys2Proof.Machine
end

