-- ==== Sys2Proof/Machine/Schedule.lean ====
section
/-! DEFINITION. Which agent moves (spec/10_state.md R31), and the pass that a chunk placed for the next step runs in. -/

namespace Sys2Proof.Machine

/-- The agent that moves next: the head of the schedule, or a free choice when it is used up (log entry 5). -/
def nextAgent (s : State) : Agent :=
  match s.schedule with
  | [] => Config.freeAgent s.draws
  | a :: _ => a

/-- The state in which the chosen agent moves: the schedule, or the draw counter, has advanced. -/
def afterChoice (s : State) : State :=
  match s.schedule with
  | [] => { s with draws := s.draws + 1 }
  | _ :: rest => { s with schedule := rest }

/-- The move of an agent. -/
def agentStep (a : Agent) (s : State) : Result :=
  match a with
  | .host => hostStep s
  | .enc => encStep s
  | .dec => decStep s

/-- DEC at the first pixel of a pass over a 2 x 1 image of 4 channels whose stream is long enough for any chunk:
header, 5 bytes at offset 14, end marker. No byte of its IN is in no order with it. `prev`,
the cache and the binding are as before. -/
def loadedUnit (d : UnitState) : UnitState :=
  { d with
    phase := .pixels, run := 0, k := 0, ipos := 14, opos := 0, awaited := true, unorderedOut := []
    unorderedIn := []
    regs := { d.regs with
      errCode := 0, width := 2, height := 1, channels := 4, colorspace := 0, inLen := 27, outCap := 8 }
    lat := { w := 2, hgt := 1, ch := 4, cs := 0, n := 2, inLen := 27, outCap := 8 } }

/-- The chunk's bytes stand where DEC fetches next, and DEC moves next. -/
def placeChunk (bytes : List Byte) (s : State) : State :=
  { s with
    dec := loadedUnit s.dec
    mem := s.mem.writeBytes (s.dec.inBase + 14) bytes
    schedule := .dec :: s.schedule }

end Sys2Proof.Machine
end

