-- ==== Sys2Proof/Machine/Step.lean ====
section
/-! DEFINITION. One step of the machine: one atomic transition of one agent (spec/00_scope.md R10, spec/10_state.md
R31). -/

namespace Sys2Proof.Machine

/-- One step: the next agent moves. -/
def step (s : State) : Host.Outcome State Fault Refusal := agentStep (nextAgent s) (afterChoice s)

/-- `s` with an instruction of the opcode table's numbering placed for the next step. DEC runs no program from a plain
program counter: its chunks are the stream of a pass, so this sets what a pass at its first pixel holds (log entry
15). -/
def State.withFetchWord (s : State) (nbits w : Nat) : State := placeChunk (tableBytes nbits w) s

end Sys2Proof.Machine
end

