-- ==== Sys2Proof/Safety.lean ====
section
/-! DEFINITION. What the claims call a sound state (the invariant of every step), a safe state (no fault), and the
terms in which they say what a pixel step of DEC does. -/

namespace Sys2Proof.Safety

open Sys2Proof.Machine

/-! ### The invariant -/

/-- The latches hold a header that VALIDATE lets through (R100, R205, R244). -/
def ValidHeader (params : Params) (l : Latches) : Prop :=
  (l.ch = 3 ∨ l.ch = 4) ∧ (l.cs = 0 ∨ l.cs = 1) ∧ l.w ≠ 0 ∧ l.hgt ≠ 0 ∧
  l.n.toNat = l.w.toNat * l.hgt.toNat ∧ l.n.toNat ≤ params.maxPixels.toNat

/-- The cache invariant of R143: every slot holds the clear value or a pixel whose hash is the slot. -/
def CacheSound (idx : Cache) : Prop := ∀ h : Slot, cacheLookup idx h = Pixel.clear ∨ pixelHash (cacheLookup idx h) = h

/-- The phases of a pass whose VALIDATE step has passed. -/
def running (p : Phase) : Bool := p == .header || p == .pixels || p == .footer

/-- How many bytes ENC may have written when it stands before pixel `k`: the share of `MaxLen` (R202) of the pixels
before `k`, less one byte for a run that is still owed and less the extra byte of R202 while it is unused. -/
def streamBudget (params : Params) (x : UnitState) : Prop :=
  x.opos.toNat + (if x.run = 0 then 0 else 1) + (if x.lat.ch = 3 ∧ x.prev.a ≠ 255 then 1 else 0) + 8 ≤
    maxLen params.prevInit x.k.toNat x.lat.ch.toNat

/-- What holds of the registers of either unit at every step boundary (R51, R52, R55, R281). `raised` lists the
errors the unit can raise. -/
structure RegsSound (raised : List Byte) (x : UnitState) : Prop where
  noError : x.phase ≠ .error → x.regs.errCode = 0 ∧ x.regs.errInfo0 = 0 ∧ x.regs.errInfo1 = 0
  error : x.phase = .error → x.regs.errCode ∈ raised
  noResult : x.phase ≠ .done → x.regs.outLen = 0 ∧ x.regs.inUsed = 0

/-- The invariant of ENC. -/
structure EncSound (params : Params) (x : UnitState) : Prop where
  regs : RegsSound [1, 2, 3, 4, 6, 9] x
  latches : running x.phase = true →
    ValidHeader params x.lat ∧ x.lat.inLen.toNat = x.lat.n.toNat * x.lat.ch.toNat ∧
    maxLen params.prevInit x.lat.n.toNat x.lat.ch.toNat ≤ x.lat.outCap.toNat
  latched : running x.phase = true →
    x.lat.w = x.regs.width ∧ x.lat.hgt = x.regs.height ∧ x.lat.ch = x.regs.channels ∧
    x.lat.cs = x.regs.colorspace ∧ x.lat.inLen = x.regs.inLen ∧ x.lat.outCap = x.regs.outCap
  input : running x.phase = true → x.ipos.toNat = x.k.toNat * x.lat.ch.toNat
  start : x.phase = .header →
    x.k = 0 ∧ x.run = 0 ∧ x.opos = 0 ∧ x.prev = params.prevInit ∧ x.idx = cacheCleared
  pixel : x.phase = .pixels →
    x.k.toNat < x.lat.n.toNat ∧ x.run.toNat ≤ 61 ∧ 14 ≤ x.opos.toNat ∧ streamBudget params x
  last : x.phase = .footer → x.k = x.lat.n ∧ x.run = 0 ∧ streamBudget params x
  cache : running x.phase = true → CacheSound x.idx

/-- The invariant of DEC. -/
structure DecSound (params : Params) (x : UnitState) : Prop where
  regs : RegsSound [1, 2, 3, 5, 6, 7, 8, 9, 10] x
  noHeader : x.phase ≠ .header
  latches : running x.phase = true →
    ValidHeader params x.lat ∧ x.lat.n.toNat * x.lat.ch.toNat ≤ x.lat.outCap.toNat
  latched : running x.phase = true →
    x.lat.w = x.regs.width ∧ x.lat.hgt = x.regs.height ∧ x.lat.ch = x.regs.channels ∧
    x.lat.cs = x.regs.colorspace ∧ x.lat.inLen = x.regs.inLen ∧ x.lat.outCap = x.regs.outCap
  output : running x.phase = true → x.opos.toNat = x.k.toNat * x.lat.ch.toNat
  input : running x.phase = true → 14 ≤ x.ipos.toNat ∧ x.ipos.toNat ≤ x.lat.inLen.toNat
  pixel : x.phase = .pixels → x.k.toNat < x.lat.n.toNat
  owed : running x.phase = true → x.run.toNat ≤ 61
  last : x.phase = .footer → x.k = x.lat.n
  cache : running x.phase = true → CacheSound x.idx

/-- The buffers of running passes are apart (R73): a unit's IN and OUT, and one unit's OUT and the other's buffers. -/
structure BuffersApart (s : State) : Prop where
  enc : busy s.enc.phase = true →
    windowsMeet s.enc.inBase (passInLen s.enc) s.enc.outBase (passOutCap s.enc) = false
  dec : busy s.dec.phase = true →
    windowsMeet s.dec.inBase (passInLen s.dec) s.dec.outBase (passOutCap s.dec) = false
  both : busy s.enc.phase = true → busy s.dec.phase = true →
    windowsMeet s.enc.outBase (passOutCap s.enc) s.dec.outBase (passOutCap s.dec) = false ∧
    windowsMeet s.enc.outBase (passOutCap s.enc) s.dec.inBase (passInLen s.dec) = false ∧
    windowsMeet s.enc.inBase (passInLen s.enc) s.dec.outBase (passOutCap s.dec) = false

/-- The invariant of the machine. -/
structure Sound (s : State) : Prop where
  mem : s.mem.wf = true
  enc : EncSound s.params s.enc
  dec : DecSound s.params s.dec
  apart : BuffersApart s

/-- A safe state: its next step is no fault, so the step makes no access outside IN or OUT (R72). -/
def Safe (s : State) : Prop := ∀ f, step s ≠ .fault f

/-! ### What a pixel step of DEC does -/

/-- The next pixel's bytes lie in OUT and the channel count is one that gives a pixel bytes (R72, R134). -/
def PixelRoom (s : State) : Prop :=
  (s.dec.lat.ch = 3 ∨ s.dec.lat.ch = 4) ∧
  s.dec.k.toNat * s.dec.lat.ch.toNat + s.dec.lat.ch.toNat ≤ s.dec.lat.outCap.toNat

/-- The storage address of the first byte of DEC's next pixel, `OUT[k * ch]` (R250). -/
def pixelAddress (s : State) : Nat := s.dec.outBase + s.dec.k.toNat * s.dec.lat.ch.toNat

/-- What every pixel step of DEC that raises no error does around `prev`, `idx` and the run counter (R250): `len`
stream bytes are consumed, `px` is written to OUT without alpha when `ch = 3`, `k` and `opos` advance, and the phase
is FOOTER after the last pixel. All else is unchanged. -/
structure PixelStep (s t : State) (len : Nat) (px : Pixel) : Prop where
  ipos : t.dec.ipos = s.dec.ipos + BitVec.ofNat 64 len
  k : t.dec.k = s.dec.k + 1
  opos : t.dec.opos = s.dec.opos + s.dec.lat.ch.setWidth 64
  phase : t.dec.phase = if s.dec.k + 1 = s.dec.lat.n then .footer else s.dec.phase
  stored : ∀ c : Fin 4, c.val < s.dec.lat.ch.toNat → t.mem.read (pixelAddress s + c.val) = channelOf px c
  unstored : ∀ a, (a < pixelAddress s ∨ pixelAddress s + s.dec.lat.ch.toNat ≤ a) → t.mem.read a = s.mem.read a
  regs : t.dec.regs = s.dec.regs
  lat : t.dec.lat = s.dec.lat
  binding : t.dec.inBase = s.dec.inBase ∧ t.dec.outBase = s.dec.outBase ∧ t.dec.awaited = s.dec.awaited
  order : t.dec.unseen = s.dec.unseen ∧ t.dec.unorderedOut = s.dec.unorderedOut ∧
    t.dec.unorderedIn = s.dec.unorderedIn ∧ t.dec.passDraw = s.dec.passDraw ∧ t.contested = s.contested
  enc : t.enc = s.enc
  params : t.params = s.params
  outside : t.hostIn = s.hostIn ∧ t.hostOut = s.hostOut ∧ t.schedule = s.schedule ∧ t.draws = s.draws

/-- The cache after a WRITE of `px` (R142): its hash slot holds it, every other slot is unchanged. -/
def CacheTook (before after : Cache) (px : Pixel) : Prop :=
  ∀ h : Slot, cacheLookup after h = if h = pixelHash px then px else cacheLookup before h

/-- What raising an error in a PIXELS or FOOTER step of DEC does (R290, R88): the error registers and the phase are
written, the result registers are 0, of storage at most the bytes of OUT that earlier pixel steps of the pass wrote
change (log entry 10), these are unseen from then on (log entry 11) and not contested by the host (log entry 23), and no
other field of the unit changes. -/
structure DecodingRaised (s t : State) (code : Byte) : Prop where
  dec : t.dec = { s.dec with
    phase := .error
    regs := { s.dec.regs with errCode := code, errInfo0 := 0, errInfo1 := 0, outLen := 0, inUsed := 0 }
    unseen := (s.dec.outBase, pixelAddress s) :: s.dec.unseen }
  unstored : ∀ a, (a < s.dec.outBase ∨ pixelAddress s ≤ a) → t.mem.read a = s.mem.read a
  enc : t.enc = s.enc
  contested : ∀ a, covered t.contested a =
    (covered s.contested a && !decide (s.dec.outBase ≤ a ∧ a < pixelAddress s))
  params : t.params = s.params
  outside : t.hostIn = s.hostIn ∧ t.hostOut = s.hostOut ∧ t.schedule = s.schedule

/-- A raise in a VALIDATE step (R290): the error registers and the phase, given the unit as the step has left its
latches and header registers; storage is untouched. -/
structure ValidateRaised (u : UnitId) (s t : State) (lat : Latches) (regs : Regs) (code : Byte) (i0 i1 : Word64) :
    Prop where
  unit : t.unit u = { s.unit u with
    phase := .error, lat := lat
    regs := { regs with errCode := code, errInfo0 := i0, errInfo1 := i1, outLen := 0, inUsed := 0 } }
  other : t.unit (otherUnit u) = s.unit (otherUnit u)
  mem : t.mem = s.mem
  contested : t.contested = s.contested
  params : t.params = s.params
  outside : t.hostIn = s.hostIn ∧ t.hostOut = s.hostOut ∧ t.schedule = s.schedule

end Sys2Proof.Safety
end

