-- ==== Sys2Proof/Certificates/Slice0/Obligations.lean ====
section
/-! DEFINITION. The statements about the model, for the provers. Each docstring names the rule of spec/ it says. -/

open Sys2Proof Sys2Proof.Machine Sys2Proof.Safety

/-! ### The pixel model (spec/40_pixel_model.md) -/

/-- R135: the hash is the weighted sum modulo 64, whatever width of at least 6 bits the wrapping sum is done in. -/
def Obligations.HashIsWeightedSumModSixtyFour : Prop :=
  ∀ p : Pixel,
    (pixelHash p).toNat = (p.r.toNat * 3 + p.g.toNat * 5 + p.b.toNat * 7 + p.a.toNat * 11) % 64 ∧
    ∀ w : Nat, 6 ≤ w →
      (BitVec.ofNat w p.r.toNat * BitVec.ofNat w 3 + BitVec.ofNat w p.g.toNat * BitVec.ofNat w 5 +
        BitVec.ofNat w p.b.toNat * BitVec.ofNat w 7 + BitVec.ofNat w p.a.toNat * BitVec.ofNat w 11).toNat % 64 =
      (pixelHash p).toNat

/-- R137: the signed delta lies in -128..127 and is the channel difference modulo 256. -/
def Obligations.SignedDeltaIsWrappedDifference : Prop :=
  ∀ x y : Byte, -128 ≤ signedDelta x y ∧ signedDelta x y ≤ 127 ∧
    (signedDelta x y - ((x.toNat : Int) - (y.toNat : Int))) % 256 = 0

/-- R139: adding the delta restores the channel, and deltas add up. -/
def Obligations.DeltaAddRestoresChannel : Prop :=
  (∀ x y : Byte, channelAdd y (signedDelta x y) = x) ∧
  ∀ (y : Byte) (d1 d2 : Int), channelAdd (channelAdd y d1) d2 = channelAdd y (d1 + d2)

/-! ### The stream format (spec/30_encoding.md) -/

/-- R103 to R109: every well-formed chunk is decoded from its bytes, whatever follows them. -/
def Obligations.DecodeOfEncode : Prop :=
  ∀ (i : Instr) (rest : List Byte), i.wellFormed = true → decode (encode i ++ rest) = .ok i rest

/-- The other direction: what the decoder reads is well formed, and its encoding is the bytes it was read from. -/
def Obligations.DecodedIsEncodingOfWellFormed : Prop :=
  ∀ (bs rest : List Byte) (i : Instr), decode bs = .ok i rest → i.wellFormed = true ∧ bs = encode i ++ rest

/-- R108, R110: the first byte alone selects the kind and the length, by its range, and the operands are its fields
less their biases. -/
def Obligations.FirstByteSelectsChunk : Prop :=
  ∀ (b1 x2 x3 x4 x5 : Byte) (rest : List Byte), ∃ i left,
    decode (b1 :: x2 :: x3 :: x4 :: x5 :: rest) = .ok i left ∧
    ((b1 = 0xFE ∧ i = .rgb x2 x3 x4 ∧ left = x5 :: rest) ∨
     (b1 = 0xFF ∧ i = .rgba x2 x3 x4 x5 ∧ left = rest) ∨
     (b1.toNat ≤ 0x3F ∧ i = .index (BitVec.ofNat 6 b1.toNat) ∧ left = x2 :: x3 :: x4 :: x5 :: rest) ∨
     (0x40 ≤ b1.toNat ∧ b1.toNat ≤ 0x7F ∧
      i = .diff (((b1.toNat / 16 % 4 : Nat) : Int) - 2) (((b1.toNat / 4 % 4 : Nat) : Int) - 2)
        (((b1.toNat % 4 : Nat) : Int) - 2) ∧ left = x2 :: x3 :: x4 :: x5 :: rest) ∨
     (0x80 ≤ b1.toNat ∧ b1.toNat ≤ 0xBF ∧
      i = .luma (((b1.toNat % 64 : Nat) : Int) - 32) (((x2.toNat / 16 : Nat) : Int) - 8)
        (((x2.toNat % 16 : Nat) : Int) - 8) ∧ left = x3 :: x4 :: x5 :: rest) ∨
     (0xC0 ≤ b1.toNat ∧ b1.toNat ≤ 0xFD ∧ i = .run (b1.toNat % 64 + 1) ∧
      left = x2 :: x3 :: x4 :: x5 :: rest))

/-- R110, R112, R252: bytes are rejected exactly when there is none, or when they end inside the chunk that the first
byte selects. -/
def Obligations.DecodeRejectsOnlyShortBytes : Prop :=
  decode [] = .noTagByte ∧
  ∀ (b1 : Byte) (rest : List Byte), decode (b1 :: rest) ≠ .noTagByte ∧
    (decode (b1 :: rest) = .truncated ↔
      (b1 = 0xFE ∧ rest.length < 3) ∨ (b1 = 0xFF ∧ rest.length < 4) ∨
      (0x80 ≤ b1.toNat ∧ b1.toNat ≤ 0xBF ∧ rest = []))

/-- Words written out from the encodings of R103 to R107, decoded (a sanity statement). -/
def Obligations.WordsDecodeAsTheTableSays : Prop :=
  decodeTableWord 8 0b00110101 = some (.index 53) ∧
  decodeTableWord 8 0b01110011 = some (.diff 1 (-2) 1) ∧
  decodeTableWord 16 0b0011110010101000 = some (.luma 8 (-5) 4) ∧
  decodeTableWord 8 0b11000100 = some (.run 5) ∧
  decodeTableWord 32 0x1E140AFE = some (.rgb 10 20 30) ∧
  decodeTableWord 40 0x04030201FF = some (.rgba 1 2 3 4)

/-- R74, R13: big-endian numbers. -/
def Obligations.BigEndianNumbers : Prop :=
  ∀ b0 b1 b2 b3 : Byte,
    (be32 b0 b1 b2 b3).toNat = b0.toNat * 2 ^ 24 + b1.toNat * 2 ^ 16 + b2.toNat * 2 ^ 8 + b3.toNat ∧
    bytesBE32 (be32 b0 b1 b2 b3) = [b0, b1, b2, b3]

/-! ### The chunks in DEC (spec/41_chunk_codec.md): what each completes to, and what it leaves alone -/

/-- R164 (DEC): RGB takes the three channels and the previous alpha; 4 bytes; the cache and `prev` take the pixel. -/
def Obligations.RgbTakesPreviousAlpha : Prop :=
  ∀ (r g b : Byte) (s : State), PixelRoom s → s.dec.ipos.toNat + 4 ≤ s.dec.lat.inLen.toNat →
    ∃ t, exec (.rgb r g b) s = .next t ∧ PixelStep s t 4 ⟨r, g, b, s.dec.prev.a⟩ ∧
      t.dec.prev = ⟨r, g, b, s.dec.prev.a⟩ ∧ t.dec.run = s.dec.run ∧
      CacheTook s.dec.idx t.dec.idx ⟨r, g, b, s.dec.prev.a⟩

/-- R165 (DEC): RGBA takes all four channels; 5 bytes; the cache and `prev` take the pixel. -/
def Obligations.RgbaTakesAllChannels : Prop :=
  ∀ (r g b a : Byte) (s : State), PixelRoom s → s.dec.ipos.toNat + 5 ≤ s.dec.lat.inLen.toNat →
    ∃ t, exec (.rgba r g b a) s = .next t ∧ PixelStep s t 5 ⟨r, g, b, a⟩ ∧
      t.dec.prev = ⟨r, g, b, a⟩ ∧ t.dec.run = s.dec.run ∧ CacheTook s.dec.idx t.dec.idx ⟨r, g, b, a⟩

/-- R160, R144 (DEC): INDEX gives the slot's pixel; 1 byte; `prev` takes it, the cache only with
`P_DEC_UPDATE_ON_INDEX`, and then at the pixel's own hash slot. -/
def Obligations.IndexTakesCachedPixel : Prop :=
  ∀ (i : Slot) (s : State), PixelRoom s →
    ∃ t, exec (.index i) s = .next t ∧ PixelStep s t 1 (cacheLookup s.dec.idx i) ∧
      t.dec.prev = cacheLookup s.dec.idx i ∧ t.dec.run = s.dec.run ∧
      (s.params.decUpdateOnIndex = false → t.dec.idx = s.dec.idx) ∧
      (s.params.decUpdateOnIndex = true → CacheTook s.dec.idx t.dec.idx (cacheLookup s.dec.idx i))

/-- R161 (DEC): DIFF adds its deltas to the previous pixel's channels modulo 256 and keeps alpha; 1 byte. -/
def Obligations.DiffAddsDeltas : Prop :=
  ∀ (dr dg db : Int) (s : State), PixelRoom s →
    ∃ t px, exec (.diff dr dg db) s = .next t ∧ PixelStep s t 1 px ∧
      px.r = s.dec.prev.r + BitVec.ofInt 8 dr ∧ px.g = s.dec.prev.g + BitVec.ofInt 8 dg ∧
      px.b = s.dec.prev.b + BitVec.ofInt 8 db ∧ px.a = s.dec.prev.a ∧
      t.dec.prev = px ∧ t.dec.run = s.dec.run ∧ CacheTook s.dec.idx t.dec.idx px

/-- R162 (DEC): LUMA adds the green delta to green, and to red and blue the green delta plus their own, modulo 256;
alpha is kept; 2 bytes. -/
def Obligations.LumaAddsGreenAndRelativeDeltas : Prop :=
  ∀ (dg drg dbg : Int) (s : State), PixelRoom s → s.dec.ipos.toNat + 2 ≤ s.dec.lat.inLen.toNat →
    ∃ t px, exec (.luma dg drg dbg) s = .next t ∧ PixelStep s t 2 px ∧
      px.r = s.dec.prev.r + BitVec.ofInt 8 (dg + drg) ∧ px.g = s.dec.prev.g + BitVec.ofInt 8 dg ∧
      px.b = s.dec.prev.b + BitVec.ofInt 8 (dg + dbg) ∧ px.a = s.dec.prev.a ∧
      t.dec.prev = px ∧ t.dec.run = s.dec.run ∧ CacheTook s.dec.idx t.dec.idx px

/-- R163 (DEC): RUN L gives the previous pixel once and leaves L - 1 owed; 1 byte; `prev` and the cache are
unchanged. -/
def Obligations.RunOwesTheRest : Prop :=
  ∀ (len : Nat) (s : State), 1 ≤ len → len ≤ 62 → PixelRoom s →
    ∃ t, exec (.run len) s = .next t ∧ PixelStep s t 1 s.dec.prev ∧
      t.dec.run.toNat = len - 1 ∧ t.dec.prev = s.dec.prev ∧ t.dec.idx = s.dec.idx

/-- R162, R164, R165, R252: a chunk of more than one byte whose bytes pass the end of IN raises UnexpectedBufferEnd
(code 8), before it writes anything of its own. Which bytes of OUT may change in that step is the model's choice (log
entry 10), and so are the notes that they are unseen (log entry 11) and contested by the host no more (log entry 23). -/
def Obligations.ChunkPastEndRaises : Prop :=
  ∀ (i : Instr) (s : State), 2 ≤ (encode i).length →
    s.dec.lat.inLen.toNat < s.dec.ipos.toNat + (encode i).length →
    ∃ t, exec i s = .next t ∧ DecodingRaised s t 8

/-- The frame of every chunk: ENC, the parameters, the host's queues, DEC's latches and binding are unchanged; DEC's
registers, and the model's notes of the order of R84 (log entries 11, 22 and 23), too unless the chunk raised; and so is
every byte outside DEC's OUT up to the pixel's end (R71, R88, R250). -/
def Obligations.ChunkTouchesOnlyDecAndItsOutput : Prop :=
  ∀ (i : Instr) (s t : State), exec i s = .next t →
    t.enc = s.enc ∧ t.params = s.params ∧ t.hostIn = s.hostIn ∧ t.hostOut = s.hostOut ∧ t.schedule = s.schedule ∧
    t.dec.lat = s.dec.lat ∧ t.dec.inBase = s.dec.inBase ∧ t.dec.outBase = s.dec.outBase ∧
    t.dec.awaited = s.dec.awaited ∧ t.dec.unorderedOut = s.dec.unorderedOut ∧
    t.dec.unorderedIn = s.dec.unorderedIn ∧ t.dec.passDraw = s.dec.passDraw ∧
    (t.dec.phase = .error ∨
      (t.dec.regs = s.dec.regs ∧ t.dec.unseen = s.dec.unseen ∧ t.contested = s.contested)) ∧
    ∀ a, (a < s.dec.outBase ∨ pixelAddress s + s.dec.lat.ch.toNat ≤ a) →
      t.mem.read a = s.mem.read a ∧ covered t.contested a = covered s.contested a

/-! ### DEC's steps (spec/43_decoder.md) -/

/-- A step of DEC in PIXELS with no active run executes the chunk that its window decodes to. `afterChoice` only
takes the agent off the schedule. -/
def Obligations.StepRunsTheDecodedChunk : Prop :=
  ∀ (s : State) (i : Instr) (rest : List Byte), nextAgent s = .dec → s.dec.phase = .pixels → s.dec.run = 0 →
    decode (chunkWindow s) = .ok i rest → step s = exec i (afterChoice s)

/-- The same from the bytes: when the bytes of IN from `ipos` on are the encoding of a well-formed chunk, all of them
inside IN, the step executes it (R250, R254). -/
def Obligations.StepRunsTheChunkInTheStream : Prop :=
  ∀ (s : State) (i : Instr), nextAgent s = .dec → s.dec.phase = .pixels → s.dec.run = 0 → i.wellFormed = true →
    s.dec.ipos.toNat + (encode i).length ≤ s.dec.lat.inLen.toNat →
    inBytes s.dec s.mem (s.dec.inBase + s.dec.ipos.toNat) (encode i).length = encode i →
    step s = exec i (afterChoice s)

/-- R252: in PIXELS with no active run, no tag byte left, or a chunk whose bytes pass the end of IN, raises
UnexpectedBufferEnd (code 8). Which bytes of OUT may change in that step is the model's choice (log entry 10), and so are
the notes that they are unseen (log entry 11) and contested by the host no more (log entry 23). -/
def Obligations.StreamEndRaises : Prop :=
  ∀ s : State, nextAgent s = .dec → s.dec.phase = .pixels → s.dec.run = 0 →
    (s.dec.lat.inLen.toNat < s.dec.ipos.toNat + 1 ∨
      s.dec.lat.inLen.toNat <
        s.dec.ipos.toNat + chunkLength (inByte s.dec s.mem (s.dec.inBase + s.dec.ipos.toNat))) →
    ∃ t, step s = .next t ∧ DecodingRaised (afterChoice s) t 8

/-- R251: while a run is active the step reads no byte, writes `prev` to OUT again and decrements the counter; `prev`
and the cache are unchanged. -/
def Obligations.ActiveRunRepeatsThePixel : Prop :=
  ∀ s : State, nextAgent s = .dec → s.dec.phase = .pixels → s.dec.run ≠ 0 → PixelRoom s →
    ∃ t, step s = .next t ∧ PixelStep (afterChoice s) t 0 s.dec.prev ∧
      t.dec.run.toNat + 1 = s.dec.run.toNat ∧ t.dec.prev = s.dec.prev ∧ t.dec.idx = s.dec.idx

/-- R244, R245, R281: an IN shorter than 22 bytes raises InputBufferTooSmall (code 5) before any byte is read; the
header registers keep the 0 of the START. -/
def Obligations.DecShortInputRaises : Prop :=
  ∀ s : State, nextAgent s = .dec → s.dec.phase = .validate → s.dec.regs.inLen.toNat < 22 →
    ∃ t, step s = .next t ∧
      ValidateRaised .dec (afterChoice s) t
        { s.dec.lat with inLen := s.dec.regs.inLen, outCap := s.dec.regs.outCap } s.dec.regs
        5 s.dec.regs.inLen 22

/-- R244, R246, R286: with at least 22 bytes the header is read into latches and registers, and the first failing
check is reported, in the order magic, channels, colorspace, empty, too large, OUT too small. A required size that does
not fit 64 bits gives the free word of log entry 13. -/
def Obligations.DecHeaderChecksInOrder : Prop :=
  ∀ (s : State) (magic w hgt : Word32) (ch cs : Byte) (lat latN : Latches) (regs : Regs),
    nextAgent s = .dec → s.dec.phase = .validate → 22 ≤ s.dec.regs.inLen.toNat →
    inBytes s.dec s.mem s.dec.inBase 14 = headerBytes magic w hgt ch cs →
    lat = { s.dec.lat with
      w := w, hgt := hgt, ch := ch, cs := cs, inLen := s.dec.regs.inLen, outCap := s.dec.regs.outCap } →
    latN = { lat with n := BitVec.ofNat 64 (w.toNat * hgt.toNat) } →
    regs = { s.dec.regs with width := w, height := hgt, channels := ch, colorspace := cs } →
    (magic ≠ s.params.magic → ∃ t, step s = .next t ∧
      ValidateRaised .dec (afterChoice s) t lat regs 7 (magic.setWidth 64) 0) ∧
    (magic = s.params.magic → ch ≠ 3 → ch ≠ 4 → ∃ t, step s = .next t ∧
      ValidateRaised .dec (afterChoice s) t lat regs 1 (ch.setWidth 64) 0) ∧
    (magic = s.params.magic → ch = 3 ∨ ch = 4 → cs ≠ 0 → cs ≠ 1 → ∃ t, step s = .next t ∧
      ValidateRaised .dec (afterChoice s) t lat regs 9 (cs.setWidth 64) 0) ∧
    (magic = s.params.magic → ch = 3 ∨ ch = 4 → cs = 0 ∨ cs = 1 → w = 0 ∨ hgt = 0 → ∃ t, step s = .next t ∧
      ValidateRaised .dec (afterChoice s) t lat regs 2 (w.setWidth 64) (hgt.setWidth 64)) ∧
    (magic = s.params.magic → ch = 3 ∨ ch = 4 → cs = 0 ∨ cs = 1 → w ≠ 0 → hgt ≠ 0 →
      s.params.maxPixels.toNat < w.toNat * hgt.toNat → ∃ t, step s = .next t ∧
      ValidateRaised .dec (afterChoice s) t latN regs 3 (w.setWidth 64) (hgt.setWidth 64)) ∧
    (magic = s.params.magic → ch = 3 ∨ ch = 4 → cs = 0 ∨ cs = 1 → w ≠ 0 → hgt ≠ 0 →
      w.toNat * hgt.toNat ≤ s.params.maxPixels.toNat →
      s.dec.regs.outCap.toNat < w.toNat * hgt.toNat * ch.toNat → ∃ t, step s = .next t ∧
      ValidateRaised .dec (afterChoice s) t latN regs 6 s.dec.regs.outCap
        (infoWord ((afterChoice s).draws + 1) (w.toNat * hgt.toNat * ch.toNat)))

/-- R244, R247, R322, R140: a header that passes every check starts the pixel phase, with `prev` at `P_PREV_INIT`, the
run counter, `k` and `opos` 0, `ipos` 14 and the cache cleared; no byte of storage changes. -/
def Obligations.DecValidateStartsPixels : Prop :=
  ∀ (s : State) (w hgt : Word32) (ch cs : Byte),
    nextAgent s = .dec → s.dec.phase = .validate → 22 ≤ s.dec.regs.inLen.toNat →
    inBytes s.dec s.mem s.dec.inBase 14 = headerBytes s.params.magic w hgt ch cs →
    ch = 3 ∨ ch = 4 → cs = 0 ∨ cs = 1 → w ≠ 0 → hgt ≠ 0 →
    w.toNat * hgt.toNat ≤ s.params.maxPixels.toNat →
    w.toNat * hgt.toNat * ch.toNat ≤ s.dec.regs.outCap.toNat →
    ∃ t, step s = .next t ∧ t.mem = s.mem ∧ t.contested = s.contested ∧ t.enc = s.enc ∧ t.params = s.params ∧
      t.hostIn = s.hostIn ∧
      t.hostOut = s.hostOut ∧ (∀ h : Slot, cacheLookup t.dec.idx h = Pixel.clear) ∧
      t.dec = { s.dec with
        phase := .pixels, prev := s.params.prevInit, run := 0, k := 0, ipos := 14, opos := 0, idx := t.dec.idx
        regs := { s.dec.regs with width := w, height := hgt, channels := ch, colorspace := cs }
        lat := { w := w, hgt := hgt, ch := ch, cs := cs, n := BitVec.ofNat 64 (w.toNat * hgt.toNat)
                 inLen := s.dec.regs.inLen, outCap := s.dec.regs.outCap } }

/-- R262: at FOOTER, fewer than 8 bytes left, or 8 bytes that are not the end marker, raise InvalidPadding (code 10);
else the pass is DONE, `IN_USED` is the offset just past the marker and `OUT_LEN` is `n * ch`. Bytes after the marker
play no part (R263). The bytes of OUT up to `OUT_LEN` are unseen by the host from then on (log entry 11); of storage
only those can change that the other unit wrote too, with no order between the two (log entry 22), and none is contested
by the host any more (log entry 23). What a raise leaves of OUT is the model's choice (log entry 10), and so are the notes
that these bytes are unseen (log entry 11) and contested no more (log entry 23). -/
def Obligations.DecFooterChecksEndMarker : Prop :=
  ∀ s : State, nextAgent s = .dec → s.dec.phase = .footer →
    (s.dec.lat.inLen.toNat < s.dec.ipos.toNat + 8 → ∃ t, step s = .next t ∧ DecodingRaised (afterChoice s) t 10) ∧
    (s.dec.ipos.toNat + 8 ≤ s.dec.lat.inLen.toNat →
      inBytes s.dec s.mem (s.dec.inBase + s.dec.ipos.toNat) 8 ≠ [0, 0, 0, 0, 0, 0, 0, 1] →
      ∃ t, step s = .next t ∧ DecodingRaised (afterChoice s) t 10) ∧
    (s.dec.ipos.toNat + 8 ≤ s.dec.lat.inLen.toNat →
      inBytes s.dec s.mem (s.dec.inBase + s.dec.ipos.toNat) 8 = [0, 0, 0, 0, 0, 0, 0, 1] →
      ∃ t, step s = .next t ∧
        t.dec = { s.dec with
          phase := .done
          regs := { s.dec.regs with
            inUsed := s.dec.ipos + 8
            outLen := BitVec.ofNat 64 (s.dec.lat.n.toNat * s.dec.lat.ch.toNat) }
          unseen :=
            (s.dec.outBase, s.dec.outBase + s.dec.lat.n.toNat * s.dec.lat.ch.toNat % 2 ^ 64) :: s.dec.unseen } ∧
        (∀ a, (a < s.dec.outBase ∨ s.dec.outBase + s.dec.lat.n.toNat * s.dec.lat.ch.toNat ≤ a ∨
          covered s.dec.unorderedOut a = false) → t.mem.read a = s.mem.read a) ∧
        (∀ a, covered t.contested a = (covered s.contested a &&
          !decide (s.dec.outBase ≤ a ∧ a < s.dec.outBase + s.dec.lat.n.toNat * s.dec.lat.ch.toNat % 2 ^ 64))) ∧
        t.enc = s.enc ∧ t.params = s.params ∧ t.hostIn = s.hostIn ∧ t.hostOut = s.hostOut)

/-! ### ENC's steps (spec/42_encoder.md) -/

/-- R205, R286: ENC's VALIDATE reports the first failing check, in the order channels, colorspace, empty, too large,
wrong IN length, OUT too small, and touches no byte of storage (R88). Sizes that do not fit 64 bits give the free word
of log entry 13. -/
def Obligations.EncChecksInOrder : Prop :=
  ∀ (s : State) (r : Regs) (n : Nat) (lat latN : Latches),
    nextAgent s = .enc → s.enc.phase = .validate → r = s.enc.regs → n = r.width.toNat * r.height.toNat →
    lat = { s.enc.lat with
      w := r.width, hgt := r.height, ch := r.channels, cs := r.colorspace, inLen := r.inLen, outCap := r.outCap } →
    latN = { lat with n := BitVec.ofNat 64 n } →
    (r.channels ≠ 3 → r.channels ≠ 4 → ∃ t, step s = .next t ∧
      ValidateRaised .enc (afterChoice s) t lat r 1 (r.channels.setWidth 64) 0) ∧
    (r.channels = 3 ∨ r.channels = 4 → r.colorspace ≠ 0 → r.colorspace ≠ 1 → ∃ t, step s = .next t ∧
      ValidateRaised .enc (afterChoice s) t lat r 9 (r.colorspace.setWidth 64) 0) ∧
    (r.channels = 3 ∨ r.channels = 4 → r.colorspace = 0 ∨ r.colorspace = 1 → r.width = 0 ∨ r.height = 0 →
      ∃ t, step s = .next t ∧
      ValidateRaised .enc (afterChoice s) t lat r 2 (r.width.setWidth 64) (r.height.setWidth 64)) ∧
    (r.channels = 3 ∨ r.channels = 4 → r.colorspace = 0 ∨ r.colorspace = 1 → r.width ≠ 0 → r.height ≠ 0 →
      s.params.maxPixels.toNat < n → ∃ t, step s = .next t ∧
      ValidateRaised .enc (afterChoice s) t latN r 3 (r.width.setWidth 64) (r.height.setWidth 64)) ∧
    (r.channels = 3 ∨ r.channels = 4 → r.colorspace = 0 ∨ r.colorspace = 1 → r.width ≠ 0 → r.height ≠ 0 →
      n ≤ s.params.maxPixels.toNat → r.inLen.toNat ≠ n * r.channels.toNat → ∃ t, step s = .next t ∧
      ValidateRaised .enc (afterChoice s) t latN r 4 r.inLen
        (infoWord ((afterChoice s).draws + 1) (n * r.channels.toNat))) ∧
    (r.channels = 3 ∨ r.channels = 4 → r.colorspace = 0 ∨ r.colorspace = 1 → r.width ≠ 0 → r.height ≠ 0 →
      n ≤ s.params.maxPixels.toNat → r.inLen.toNat = n * r.channels.toNat →
      r.outCap.toNat <
        22 + n * (r.channels.toNat + 1) + (if r.channels = 3 ∧ s.params.prevInit.a ≠ 255 then 1 else 0) →
      ∃ t, step s = .next t ∧
      ValidateRaised .enc (afterChoice s) t latN r 6 r.outCap
        (infoWord ((afterChoice s).draws + 1)
          (22 + n * (r.channels.toNat + 1) + (if r.channels = 3 ∧ s.params.prevInit.a ≠ 255 then 1 else 0))))

/-- R205, R322, R140, R202: registers that pass every check start the header phase, with `prev` at `P_PREV_INIT`, the
run counter and the pointers 0 and the cache cleared; no byte of storage changes. -/
def Obligations.EncValidateStartsHeader : Prop :=
  ∀ (s : State) (r : Regs) (n : Nat),
    nextAgent s = .enc → s.enc.phase = .validate → r = s.enc.regs → n = r.width.toNat * r.height.toNat →
    r.channels = 3 ∨ r.channels = 4 → r.colorspace = 0 ∨ r.colorspace = 1 → r.width ≠ 0 → r.height ≠ 0 →
    n ≤ s.params.maxPixels.toNat → r.inLen.toNat = n * r.channels.toNat →
    22 + n * (r.channels.toNat + 1) + (if r.channels = 3 ∧ s.params.prevInit.a ≠ 255 then 1 else 0) ≤
      r.outCap.toNat →
    ∃ t, step s = .next t ∧ t.mem = s.mem ∧ t.contested = s.contested ∧ t.dec = s.dec ∧ t.params = s.params ∧
      t.hostIn = s.hostIn ∧
      t.hostOut = s.hostOut ∧ (∀ h : Slot, cacheLookup t.enc.idx h = Pixel.clear) ∧
      t.enc = { s.enc with
        phase := .header, prev := s.params.prevInit, run := 0, k := 0, ipos := 0, opos := 0, idx := t.enc.idx
        lat := { w := r.width, hgt := r.height, ch := r.channels, cs := r.colorspace, n := BitVec.ofNat 64 n
                 inLen := r.inLen, outCap := r.outCap } }

/-- R210, R100: the HEADER step writes the 14 header bytes at OUT[0..13], big-endian width and height, and moves to
PIXELS. -/
def Obligations.EncHeaderWritesFourteenBytes : Prop :=
  ∀ s : State, nextAgent s = .enc → s.enc.phase = .header → s.enc.opos = 0 → 14 ≤ s.enc.lat.outCap.toNat →
    ∃ t, step s = .next t ∧
      t.mem.readBytes s.enc.outBase 14 =
        bytesBE32 s.params.magic ++ bytesBE32 s.enc.lat.w ++ bytesBE32 s.enc.lat.hgt ++
          [s.enc.lat.ch, s.enc.lat.cs] ∧
      (∀ a, (a < s.enc.outBase ∨ s.enc.outBase + 14 ≤ a) → t.mem.read a = s.mem.read a) ∧
      t.enc = { s.enc with opos := 14, phase := .pixels } ∧ t.dec = s.dec ∧ t.params = s.params ∧
      t.contested = s.contested ∧ t.hostIn = s.hostIn ∧ t.hostOut = s.hostOut ∧ t.draws = (afterChoice s).draws

/-- R211, R212, R214: a pixel equal to `prev` grows the run; the run is flushed as one RUN byte when it reaches 62 or
the pixel is the image's last, else nothing is emitted; `prev` and the cache are unchanged. -/
def Obligations.EncRepetitionGrowsOrFlushesRun : Prop :=
  ∀ (s : State) (bs : List Byte), nextAgent s = .enc → s.enc.phase = .pixels →
    memRead .enc s (s.enc.k.toNat * s.enc.lat.ch.toNat) s.enc.lat.ch.toNat = some bs →
    pixelOfBytes bs = some s.enc.prev → s.enc.run.toNat ≤ 61 →
    s.enc.opos.toNat + 1 ≤ s.enc.lat.outCap.toNat →
    ∃ t, step s = .next t ∧ t.dec = s.dec ∧ t.params = s.params ∧ t.hostIn = s.hostIn ∧ t.hostOut = s.hostOut ∧
      t.contested = s.contested ∧
      (s.enc.run.toNat + 1 = 62 ∨ s.enc.k.toNat + 1 = s.enc.lat.n.toNat →
        t.mem.read (s.enc.outBase + s.enc.opos.toNat) = 0xC0#8 ||| BitVec.ofNat 8 s.enc.run.toNat ∧
        (∀ a, a ≠ s.enc.outBase + s.enc.opos.toNat → t.mem.read a = s.mem.read a) ∧
        t.enc = { s.enc with
          run := 0, opos := s.enc.opos + 1, k := s.enc.k + 1
          ipos := s.enc.ipos + s.enc.lat.ch.setWidth 64
          phase := if s.enc.k + 1 = s.enc.lat.n then .footer else .pixels }) ∧
      (s.enc.run.toNat + 1 ≠ 62 → s.enc.k.toNat + 1 ≠ s.enc.lat.n.toNat →
        t.mem = s.mem ∧
        t.enc = { s.enc with
          run := s.enc.run + 1, k := s.enc.k + 1
          ipos := s.enc.ipos + s.enc.lat.ch.setWidth 64
          phase := if s.enc.k + 1 = s.enc.lat.n then .footer else .pixels })

/-- R211, R215 to R220: a pixel that differs from `prev` first flushes an owed run as one RUN byte, then its chunk
follows; `prev` becomes the pixel, the run counter is 0, and the cache takes the pixel unless it was an index hit. -/
def Obligations.EncBreakFlushesThenEmitsChunk : Prop :=
  ∀ (s : State) (bs flush : List Byte) (p : Pixel), nextAgent s = .enc → s.enc.phase = .pixels →
    memRead .enc s (s.enc.k.toNat * s.enc.lat.ch.toNat) s.enc.lat.ch.toNat = some bs →
    pixelOfBytes bs = some p → p ≠ s.enc.prev → s.enc.run.toNat ≤ 61 →
    flush = (if s.enc.run = 0 then [] else [0xC0#8 ||| BitVec.ofNat 8 (s.enc.run.toNat - 1)]) →
    s.enc.opos.toNat + flush.length + (encode (chunkFor s.enc.prev s.enc.idx p)).length ≤
      s.enc.lat.outCap.toNat →
    ∃ t, step s = .next t ∧ t.dec = s.dec ∧ t.params = s.params ∧ t.hostIn = s.hostIn ∧ t.hostOut = s.hostOut ∧
      t.contested = s.contested ∧
      t.mem.readBytes (s.enc.outBase + s.enc.opos.toNat)
        (flush.length + (encode (chunkFor s.enc.prev s.enc.idx p)).length) =
        flush ++ encode (chunkFor s.enc.prev s.enc.idx p) ∧
      (∀ a, (a < s.enc.outBase + s.enc.opos.toNat ∨
          s.enc.outBase + s.enc.opos.toNat + flush.length +
            (encode (chunkFor s.enc.prev s.enc.idx p)).length ≤ a) → t.mem.read a = s.mem.read a) ∧
      (cacheLookup s.enc.idx (pixelHash p) = p → t.enc.idx = s.enc.idx) ∧
      CacheTook s.enc.idx t.enc.idx p ∧
      t.enc = { s.enc with
        prev := p, run := 0, idx := t.enc.idx, k := s.enc.k + 1
        opos := s.enc.opos + BitVec.ofNat 64 (flush.length + (encode (chunkFor s.enc.prev s.enc.idx p)).length)
        ipos := s.enc.ipos + s.enc.lat.ch.setWidth 64
        phase := if s.enc.k + 1 = s.enc.lat.n then .footer else .pixels }

/-- R216 to R219: the selection order for a pixel that differs from `prev`: INDEX when the hash slot holds it; else
RGBA when alpha changes; else DIFF, LUMA or RGB by the ranges of the deltas. -/
def Obligations.EncSelectionOrder : Prop :=
  ∀ (prev p : Pixel) (idx : Cache) (dr dg db : Int),
    dr = signedDelta p.r prev.r → dg = signedDelta p.g prev.g → db = signedDelta p.b prev.b →
    (cacheLookup idx (pixelHash p) = p → chunkFor prev idx p = .index (pixelHash p)) ∧
    (cacheLookup idx (pixelHash p) ≠ p →
      (p.a ≠ prev.a → chunkFor prev idx p = .rgba p.r p.g p.b p.a) ∧
      (p.a = prev.a → (-2 ≤ dr ∧ dr ≤ 1) ∧ (-2 ≤ dg ∧ dg ≤ 1) ∧ (-2 ≤ db ∧ db ≤ 1) →
        chunkFor prev idx p = .diff dr dg db) ∧
      (p.a = prev.a → ¬((-2 ≤ dr ∧ dr ≤ 1) ∧ (-2 ≤ dg ∧ dg ≤ 1) ∧ (-2 ≤ db ∧ db ≤ 1)) →
        (-32 ≤ dg ∧ dg ≤ 31) ∧ (-8 ≤ dr - dg ∧ dr - dg ≤ 7) ∧ (-8 ≤ db - dg ∧ db - dg ≤ 7) →
        chunkFor prev idx p = .luma dg (dr - dg) (db - dg)) ∧
      (p.a = prev.a → ¬((-2 ≤ dr ∧ dr ≤ 1) ∧ (-2 ≤ dg ∧ dg ≤ 1) ∧ (-2 ≤ db ∧ db ≤ 1)) →
        ¬((-32 ≤ dg ∧ dg ≤ 31) ∧ (-8 ≤ dr - dg ∧ dr - dg ≤ 7) ∧ (-8 ≤ db - dg ∧ db - dg ≤ 7)) →
        chunkFor prev idx p = .rgb p.r p.g p.b))

/-- R222: the chunk ENC chooses for a pixel that differs from `prev` is well formed, is no RUN, is no DIFF of three
zero deltas, and is INDEX i only when slot i holds the pixel. -/
def Obligations.EncChunkIsWellFormedAndNoIdleDiff : Prop :=
  ∀ (prev p : Pixel) (idx : Cache), p ≠ prev →
    (chunkFor prev idx p).wellFormed = true ∧ (∀ len, chunkFor prev idx p ≠ .run len) ∧
    chunkFor prev idx p ≠ .diff 0 0 0 ∧
    ∀ i, chunkFor prev idx p = .index i → i = pixelHash p ∧ cacheLookup idx i = p

/-- R167: the chunk ENC chooses for `p` from (`prev`, `idx`), executed by DEC from the same `prev` and `idx`, gives
`p`, and DEC's `prev` and cache become what ENC's become, for either value of `P_DEC_UPDATE_ON_INDEX`. -/
def Obligations.DecodedChunkRestoresPixelAndState : Prop :=
  ∀ (e : UnitState) (p : Pixel) (last : Bool) (s : State), p ≠ e.prev → s.dec.prev = e.prev → s.dec.idx = e.idx →
    PixelRoom s → s.dec.ipos.toNat + (encode (chunkFor e.prev e.idx p)).length ≤ s.dec.lat.inLen.toNat →
    ∃ t, exec (chunkFor e.prev e.idx p) s = .next t ∧
      PixelStep s t (encode (chunkFor e.prev e.idx p)).length p ∧
      t.dec.prev = (encPixelEffect last p e).2.prev ∧ t.dec.idx = (encPixelEffect last p e).2.idx ∧
      t.dec.run = s.dec.run

/-- R221, R101: the FOOTER step appends the end marker, sets `OUT_LEN` to the stream's length and `IN_USED` to
`n * ch`, and the pass is DONE. The bytes of OUT up to `OUT_LEN` are unseen by the host from then on (log entry 11); one
that the other unit wrote too, with no order between the two, is left open (log entry 22), and none is contested by the
host any more (log entry 23). -/
def Obligations.EncFooterAppendsEndMarker : Prop :=
  ∀ s : State, nextAgent s = .enc → s.enc.phase = .footer →
    s.enc.opos.toNat + 8 ≤ s.enc.lat.outCap.toNat →
    ∃ t, step s = .next t ∧
      (∀ j : Nat, j < 8 → covered s.enc.unorderedOut (s.enc.outBase + s.enc.opos.toNat + j) = false →
        t.mem.read (s.enc.outBase + s.enc.opos.toNat + j) = if j = 7 then 1 else 0) ∧
      (∀ a, (a < s.enc.outBase ∨ s.enc.outBase + s.enc.opos.toNat + 8 ≤ a ∨
          (a < s.enc.outBase + s.enc.opos.toNat ∧ covered s.enc.unorderedOut a = false)) →
        t.mem.read a = s.mem.read a) ∧
      (∀ a, covered t.contested a = (covered s.contested a &&
        !decide (s.enc.outBase ≤ a ∧ a < s.enc.outBase + (s.enc.opos + 8).toNat))) ∧
      t.enc = { s.enc with
        phase := .done, opos := s.enc.opos + 8
        regs := { s.enc.regs with
          outLen := s.enc.opos + 8
          inUsed := BitVec.ofNat 64 (s.enc.lat.n.toNat * s.enc.lat.ch.toNat) }
        unseen := (s.enc.outBase, s.enc.outBase + (s.enc.opos + 8).toNat) :: s.enc.unseen } ∧
      t.dec = s.dec ∧ t.params = s.params ∧ t.hostIn = s.hostIn ∧ t.hostOut = s.hostOut

/-! ### Errors (spec/60_exceptions.md) -/

/-- R88: whenever a step of ENC ends in ERROR, no byte of storage has changed in it. -/
def Obligations.EncErrorWritesNoByte : Prop :=
  ∀ s t : State, encStep s = .next t → t.enc.phase = .error → t.mem = s.mem

/-- R200, R240: in one step a unit's phase stays, advances in the order of its pass, ends in ERROR from a phase that
can raise, starts a pass when it is not BUSY, or becomes IDLE by the host's hardware reset (R52, R320: nothing else ends
a pass early). -/
def Obligations.PhasesFollowThePassOrder : Prop :=
  ∀ s t : State, step s = .next t →
    (t.enc.phase = s.enc.phase ∨
      (t.enc.phase = .idle ∧ nextAgent s = .host ∧ ∃ rest, s.hostIn = .hardwareReset :: rest) ∨
      (busy s.enc.phase = false ∧ t.enc.phase = .validate) ∨
      (s.enc.phase, t.enc.phase) ∈
        [(Phase.validate, Phase.header), (.validate, .error), (.header, .pixels), (.pixels, .footer),
         (.footer, .done)]) ∧
    (t.dec.phase = s.dec.phase ∨
      (t.dec.phase = .idle ∧ nextAgent s = .host ∧ ∃ rest, s.hostIn = .hardwareReset :: rest) ∨
      (busy s.dec.phase = false ∧ t.dec.phase = .validate) ∨
      (s.dec.phase, t.dec.phase) ∈
        [(Phase.validate, Phase.pixels), (.validate, .error), (.pixels, .footer), (.pixels, .error),
         (.footer, .done), (.footer, .error)])

/-- R292, R302: a unit that is not BUSY keeps its phase until a host write of CTRL with bit 0 set starts a pass, or a
hardware reset. -/
def Obligations.QuiescentUnitLeftOnlyByHost : Prop :=
  ∀ (u : UnitId) (s t : State), step s = .next t → busy (s.unit u).phase = false →
    (t.unit u).phase ≠ (s.unit u).phase →
    nextAgent s = .host ∧
      ((∃ v rest, s.hostIn = .writeReg u 0 v :: rest ∧ v.getLsbD 0 = true ∧ (t.unit u).phase = .validate) ∨
       (∃ rest, s.hostIn = .hardwareReset :: rest ∧ (t.unit u).phase = .idle))

/-! ### The host's interface (spec/10_state.md, spec/70_reset_and_hazards.md) -/

/-- R52, R73, R330: a START is accepted when the unit is not BUSY, no address lies in both its IN and its OUT, and none
in a buffer that it shares with the other unit's running pass where one of the two writes. It clears the error and
result registers (and DEC's header registers) and begins VALIDATE; nothing else of the unit, the other unit or storage
changes. `awaited`, `unorderedOut`, `unorderedIn` and `passDraw` are the model's notes of the order of R83 and R84 (log
entries 11, 22 and 23): the pass is in no order with what the other unit wrote and the host has not seen, but its reads
of what the host wrote since. -/
def Obligations.StartBeginsPass : Prop :=
  ∀ (u : UnitId) (v : Word64) (s : State) (rest : List HostAction) (x y : UnitState), nextAgent s = .host →
    s.hostIn = .writeReg u 0 v :: rest → v.getLsbD 0 = true → x = s.unit u → y = s.unit (otherUnit u) →
    busy x.phase = false →
    (∀ a, (x.inBase ≤ a ∧ a < x.inBase + x.regs.inLen.toNat) →
      ¬(x.outBase ≤ a ∧ a < x.outBase + x.regs.outCap.toNat)) →
    (busy y.phase = true → ∀ a,
      ((x.outBase ≤ a ∧ a < x.outBase + x.regs.outCap.toNat) → inInput y a = false ∧ inOutput y a = false) ∧
      ((x.inBase ≤ a ∧ a < x.inBase + x.regs.inLen.toNat) → inOutput y a = false)) →
    ∃ t, step s = .next t ∧ t.hostIn = rest ∧ t.hostOut = s.hostOut ∧ t.mem = s.mem ∧ t.contested = s.contested ∧
      t.params = s.params ∧ t.unit (otherUnit u) = y ∧
      (∀ a, covered (t.unit u).unorderedIn a = (covered y.unseen a && !covered s.contested a)) ∧
      t.unit u = { x with
        phase := .validate, awaited := true, unorderedOut := y.unseen, unorderedIn := (t.unit u).unorderedIn
        passDraw := (afterChoice s).draws
        regs := { x.regs with
          errCode := 0, errInfo0 := 0, errInfo1 := 0, outLen := 0, inUsed := 0
          width := if u = .dec then 0 else x.regs.width
          height := if u = .dec then 0 else x.regs.height
          channels := if u = .dec then 0 else x.regs.channels
          colorspace := if u = .dec then 0 else x.regs.colorspace } }

/-- R52, R53, R333: while a unit is BUSY every register write to it, START among them, changes nothing but the host's
queue. -/
def Obligations.WritesWhileBusyHaveNoEffect : Prop :=
  ∀ (u : UnitId) (reg : Nat) (v : Word64) (s : State) (rest : List HostAction), nextAgent s = .host →
    s.hostIn = .writeReg u reg v :: rest → busy (s.unit u).phase = true →
    step s = .next { afterChoice s with hostIn := rest }

/-- R50, R53: while a unit is not BUSY a write of an RW register stores the value in the register's width; a write of an
R register, of CTRL without its bit 0, or of a number that is no register, stores nothing and starts nothing. -/
def Obligations.WritesWhileIdleStoreInWidth : Prop :=
  ∀ (u : UnitId) (reg : Nat) (v : Word64) (s : State) (rest : List HostAction), nextAgent s = .host →
    s.hostIn = .writeReg u reg v :: rest → busy (s.unit u).phase = false → (reg ≠ 0 ∨ v.getLsbD 0 = false) →
    ∃ t, step s = .next t ∧ t.hostIn = rest ∧ t.hostOut = s.hostOut ∧ t.mem = s.mem ∧ t.contested = s.contested ∧
      t.params = s.params ∧ t.unit (otherUnit u) = s.unit (otherUnit u) ∧
      t.unit u = { s.unit u with regs := { (s.unit u).regs with
        width := if u = .enc ∧ reg = 5 then v.setWidth 32 else (s.unit u).regs.width
        height := if u = .enc ∧ reg = 6 then v.setWidth 32 else (s.unit u).regs.height
        channels := if u = .enc ∧ reg = 7 then v.setWidth 8 else (s.unit u).regs.channels
        colorspace := if u = .enc ∧ reg = 8 then v.setWidth 8 else (s.unit u).regs.colorspace
        inLen := if reg = 9 then v else (s.unit u).regs.inLen
        outCap := if reg = 10 then v else (s.unit u).regs.outCap } }

/-- R50, R51, R54: a register read of a unit that is not BUSY, and of a BUSY unit where R54 does not exempt the
register, returns the register, zero-extended; CTRL and numbers that are no register read 0; STATUS reads 0, 1, 2 or 3.
The block does not change. A read of STATUS that returns DONE or ERROR is the ordering point of R83: it closes the
unit's pass, and nothing that this unit wrote is unseen after it; every other read leaves `awaited` and `unseen`, the
model's notes of that order (log entry 11), as they are. -/
def Obligations.ReadsWhileIdleReturnTheRegister : Prop :=
  ∀ (u : UnitId) (reg : Nat) (s : State) (rest : List HostAction), nextAgent s = .host →
    s.hostIn = .readReg u reg :: rest →
    (busy (s.unit u).phase = false ∨ ¬(reg ∈ [3, 4, 11, 12] ∨ (u = .dec ∧ reg ∈ [5, 6, 7, 8]))) →
    ∃ t v, step s = .next t ∧ t.hostIn = rest ∧ t.hostOut = s.hostOut ++ [v] ∧ t.mem = s.mem ∧
      t.contested = s.contested ∧ t.params = s.params ∧
      (¬(reg = 1 ∧ ((s.unit u).phase = .done ∨ (s.unit u).phase = .error)) → t.enc = s.enc ∧ t.dec = s.dec) ∧
      (reg = 1 → ((s.unit u).phase = .done ∨ (s.unit u).phase = .error) →
        t.unit u = { s.unit u with awaited := false, unseen := [] } ∧
        t.unit (otherUnit u) = s.unit (otherUnit u)) ∧
      (reg = 0 → v = 0) ∧
      (reg = 1 → (s.unit u).phase = .idle → v = 0) ∧
      (reg = 1 → busy (s.unit u).phase = true → v = 1) ∧
      (reg = 1 → (s.unit u).phase = .done → v = 2) ∧
      (reg = 1 → (s.unit u).phase = .error → v = 3) ∧
      (reg = 2 → v.toNat = (s.unit u).regs.errCode.toNat) ∧
      (reg = 3 → v = (s.unit u).regs.errInfo0) ∧ (reg = 4 → v = (s.unit u).regs.errInfo1) ∧
      (reg = 5 → v.toNat = (s.unit u).regs.width.toNat) ∧ (reg = 6 → v.toNat = (s.unit u).regs.height.toNat) ∧
      (reg = 7 → v.toNat = (s.unit u).regs.channels.toNat) ∧
      (reg = 8 → v.toNat = (s.unit u).regs.colorspace.toNat) ∧
      (reg = 9 → v = (s.unit u).regs.inLen) ∧ (reg = 10 → v = (s.unit u).regs.outCap) ∧
      (reg = 11 → v = (s.unit u).regs.outLen) ∧ (reg = 12 → v = (s.unit u).regs.inUsed) ∧
      (13 ≤ reg → v = 0)

/-- R54: what a BUSY unit's result, info and (in DEC) header registers read as does not depend on the registers: two
states that differ in them return the same free value. STATUS reads 1. -/
def Obligations.ReadsWhileBusyAreFree : Prop :=
  ∀ (u : UnitId) (reg : Nat) (s s' : State) (rest rest' : List HostAction),
    nextAgent s = .host → nextAgent s' = .host → (afterChoice s).draws = (afterChoice s').draws →
    s.hostIn = .readReg u reg :: rest → s'.hostIn = .readReg u reg :: rest' →
    busy (s.unit u).phase = true → busy (s'.unit u).phase = true →
    (reg ∈ [3, 4, 11, 12] ∨ (u = .dec ∧ reg ∈ [5, 6, 7, 8]) ∨ reg = 1) →
    ∃ t t' v, step s = .next t ∧ step s' = .next t' ∧ t.hostOut = s.hostOut ++ [v] ∧
      t'.hostOut = s'.hostOut ++ [v] ∧ (reg = 1 → v = 1) ∧ t.enc = s.enc ∧ t.dec = s.dec ∧ t.mem = s.mem

/-- R73, R330: a START of a unit that is not BUSY, with an address in both its IN and its OUT, or in a buffer it
shares with the other unit's running pass where one of the two writes, is refused. -/
def Obligations.OverlappingLaunchIsRefused : Prop :=
  ∀ (u : UnitId) (v : Word64) (s : State) (rest : List HostAction) (a : Nat) (x y : UnitState),
    nextAgent s = .host → s.hostIn = .writeReg u 0 v :: rest → v.getLsbD 0 = true →
    x = s.unit u → y = s.unit (otherUnit u) → busy x.phase = false →
    (((x.inBase ≤ a ∧ a < x.inBase + x.regs.inLen.toNat) ∧ (x.outBase ≤ a ∧ a < x.outBase + x.regs.outCap.toNat)) ∨
     (busy y.phase = true ∧
      (((x.outBase ≤ a ∧ a < x.outBase + x.regs.outCap.toNat) ∧ (inInput y a = true ∨ inOutput y a = true)) ∨
       ((x.inBase ≤ a ∧ a < x.inBase + x.regs.inLen.toNat) ∧ inOutput y a = true)))) →
    step s = .refused .overlappingBuffers

/-- R85, R331, R332: until the host has read the end of a unit's latest pass from STATUS, its write to a byte of that
pass's IN is refused, and while the pass is BUSY its write to a byte of OUT is (log entries 11 and 12). Every other write
is done and changes that byte alone. That takes in, by the model's choice (log entry 24, DESIGN CHOICE, unsafe), a write
to IN of an earlier pass that no STATUS read has shown, where the byte lies outside the IN of a second START; and a write
to OUT of a pass that has ended and whose end the host has not seen. A write orders nothing: what is unseen stays so, and
the byte is contested from then on if it was unseen, and is the host's if not (log entry 23). -/
def Obligations.StorageWritesRespectOpenPasses : Prop :=
  ∀ (a : Nat) (v : Byte) (s : State) (rest : List HostAction), nextAgent s = .host →
    s.hostIn = .writeMem a v :: rest →
    (∀ u, passOpen (s.unit u) = true → inInput (s.unit u) a = true → step s = .refused .hostWroteInput) ∧
    (∀ u, busy (s.unit u).phase = true → inOutput (s.unit u) a = true →
      ∃ r, step s = .refused r ∧ (r = .hostWroteInput ∨ r = .hostWroteOutput)) ∧
    ((∀ u, (passOpen (s.unit u) = true → inInput (s.unit u) a = false) ∧
        (busy (s.unit u).phase = true → inOutput (s.unit u) a = false)) →
      ∃ t, step s = .next t ∧ (∀ x, t.mem.read x = if x = a then v else s.mem.read x) ∧
        (∀ x, covered t.contested x = if x = a then covered s.enc.unseen a || covered s.dec.unseen a
          else covered s.contested x) ∧
        t.enc = s.enc ∧ t.dec = s.dec ∧ t.params = s.params ∧ t.hostIn = rest ∧ t.hostOut = s.hostOut)

/-- R83, R332: a host read of storage changes nothing of the block. It returns the byte unless the byte lies in OUT of a
BUSY pass, or a pass wrote it and is unseen (log entry 11), or the host's write to it and a pass's are in no order (log
entry 23); there it returns a free value: two states that differ in storage and in the units, and agree on the draw
counter, return the same one. -/
def Obligations.StorageReadsSeeEndedPasses : Prop :=
  ∀ (a : Nat) (s : State) (rest : List HostAction), nextAgent s = .host → s.hostIn = .readMem a :: rest →
    ∃ t v, step s = .next t ∧ t.hostOut = s.hostOut ++ [v] ∧ t.enc = s.enc ∧ t.dec = s.dec ∧ t.mem = s.mem ∧
      t.contested = s.contested ∧ t.params = s.params ∧ t.hostIn = rest ∧
      ((∀ u, ¬(busy (s.unit u).phase = true ∧ inOutput (s.unit u) a = true) ∧
          covered (s.unit u).unseen a = false) → covered s.contested a = false →
        v.toNat = (s.mem.read a).toNat) ∧
      ∀ (s' : State) (rest' : List HostAction), nextAgent s' = .host → s'.hostIn = .readMem a :: rest' →
        (afterChoice s').draws = (afterChoice s).draws →
        ((∃ u, (busy (s.unit u).phase = true ∧ inOutput (s.unit u) a = true) ∨ covered (s.unit u).unseen a = true) ∨
          covered s.contested a = true) →
        ((∃ u, (busy (s'.unit u).phase = true ∧ inOutput (s'.unit u) a = true) ∨
            covered (s'.unit u).unseen a = true) ∨ covered s'.contested a = true) →
        ∃ t', step s' = .next t' ∧ t'.hostOut = s'.hostOut ++ [v]

/-- R83, R84: a byte that a pass wrote stays unseen through every step, hardware reset, the next START and a host write
among them, until a STATUS read shows that a pass of this unit has ended (log entry 11). A contested byte stays so
until the host writes it when no pass's write to it is unseen, or a pass ends that notes it among what it wrote, DONE,
in ERROR or by hardware reset (log entry 23). And in a sound state every byte of storage that a step changes is hidden
from the host after it, unless the host wrote it. -/
def Obligations.WritesStayUnseenUntilAStatusRead : Prop :=
  (∀ (u : UnitId) (a : Nat) (s t : State), step s = .next t → covered (s.unit u).unseen a = true →
    covered (t.unit u).unseen a = true ∨
    (nextAgent s = .host ∧ ∃ rest, s.hostIn = .readReg u 1 :: rest ∧
      ((s.unit u).phase = .done ∨ (s.unit u).phase = .error))) ∧
  (∀ (a : Nat) (s t : State), step s = .next t → covered s.contested a = true →
    covered t.contested a = true ∨
    (nextAgent s = .host ∧ covered s.enc.unseen a = false ∧ covered s.dec.unseen a = false ∧
      ∃ v rest, s.hostIn = .writeMem a v :: rest) ∨
    ∃ u w, busy (s.unit u).phase = true ∧ busy (t.unit u).phase = false ∧
      (t.unit u).unseen = w :: (s.unit u).unseen ∧ w.1 ≤ a ∧ a < w.2) ∧
  ∀ (a : Nat) (s t : State), Sound s → step s = .next t → t.mem.read a ≠ s.mem.read a →
    hiddenFromHost t.enc a = true ∨ hiddenFromHost t.dec a = true ∨
    (nextAgent s = .host ∧ ∃ v rest, s.hostIn = .writeMem a v :: rest)

/-- R320, R321: hardware reset sets every register of both units to 0 and both phases to IDLE; the binding and the
parameters stay; and every byte stays but those of OUT of a pass it ends. It is no ordering point (R84): what is unseen
stays unseen, so is OUT of a pass it ends, and what is contested stays so but for OUT of a pass it ends (log entries 11
and 23). -/
def Obligations.HardwareResetClearsRegisters : Prop :=
  ∀ (s : State) (rest : List HostAction), nextAgent s = .host → s.hostIn = .hardwareReset :: rest →
    ∃ t, step s = .next t ∧ t.hostIn = rest ∧ t.hostOut = s.hostOut ∧ t.params = s.params ∧
      (∀ a, covered t.contested a = (covered s.contested a &&
        !(busy s.enc.phase && inOutput s.enc a) && !(busy s.dec.phase && inOutput s.dec a))) ∧
      (∀ u, (t.unit u).phase = .idle ∧ (t.unit u).inBase = (s.unit u).inBase ∧
        (t.unit u).outBase = (s.unit u).outBase ∧
        (∀ a, covered (t.unit u).unseen a = (covered (s.unit u).unseen a ||
          (busy (s.unit u).phase && inOutput (s.unit u) a))) ∧
        (t.unit u).regs = { errCode := 0, errInfo0 := 0, errInfo1 := 0, width := 0, height := 0, channels := 0
                            colorspace := 0, inLen := 0, outCap := 0, outLen := 0, inUsed := 0 }) ∧
      ∀ a, (∀ u, busy (s.unit u).phase = true → inOutput (s.unit u) a = false) → t.mem.read a = s.mem.read a

/-- R321: the state right after reset: both units IDLE with every register 0; no pass is in progress. -/
def Obligations.ResetStateIsIdle : Prop :=
  ∀ u : UnitId, (State.reset.unit u).phase = .idle ∧ statusCode (State.reset.unit u).phase = 0 ∧
    ∀ reg, regValue (State.reset.unit u) reg = 0

/-- R240, R200, R302: a unit in IDLE, DONE or ERROR has no step: nothing changes but what the choice of the agent takes
(the schedule, or the draw counter). -/
def Obligations.QuiescentUnitHasNoStep : Prop :=
  ∀ s : State, (nextAgent s = .enc → busy s.enc.phase = false → step s = .next (afterChoice s)) ∧
    (nextAgent s = .dec → busy s.dec.phase = false → step s = .next (afterChoice s))

/-! ### Rules of the whole machine -/

/-- R57, R9: no step changes the parameters. -/
def Obligations.ParametersNeverChange : Prop := ∀ s t : State, step s = .next t → t.params = s.params

/-- R30, R31, R71: in a sound state a step of ENC changes nothing of DEC and no byte outside ENC's OUT. -/
def Obligations.EncWritesOnlyItsOutput : Prop :=
  ∀ s t : State, Sound s → nextAgent s = .enc → step s = .next t →
    t.dec = s.dec ∧ t.hostIn = s.hostIn ∧ t.hostOut = s.hostOut ∧
    ∀ a, inOutput s.enc a = false → t.mem.read a = s.mem.read a

/-- R30, R31, R71: in a sound state a step of DEC changes nothing of ENC and no byte outside DEC's OUT. -/
def Obligations.DecWritesOnlyItsOutput : Prop :=
  ∀ s t : State, Sound s → nextAgent s = .dec → step s = .next t →
    t.enc = s.enc ∧ t.hostIn = s.hostIn ∧ t.hostOut = s.hostOut ∧
    ∀ a, inOutput s.dec a = false → t.mem.read a = s.mem.read a

/-- R264, R30, R84: what a step of DEC does is a function of DEC, the parameters and the bytes of its IN that are in an
order with its pass (the others are free, log entry 22): two states that agree on these, whatever ENC, the host and
other storage are, answer states that agree on DEC, and on every byte they agreed on before. (The draw counter is the
model's name for the free values, so it agrees too.) -/
def Obligations.DecStepDependsOnlyOnItsInput : Prop :=
  ∀ s s' t : State, s.dec = s'.dec → s.params = s'.params → s.draws = s'.draws →
    (∀ a, inInput s.dec a = true → covered s.dec.unorderedIn a = false → s.mem.read a = s'.mem.read a) →
    decStep s = .next t →
    ∃ t', decStep s' = .next t' ∧ t.dec = t'.dec ∧
      ∀ a, s.mem.read a = s'.mem.read a → t.mem.read a = t'.mem.read a

/-- R223, R30, R84: what a step of ENC does is a function of ENC, the parameters and the bytes of its IN that are in an
order with its pass (the others are free, log entry 22), and not of `P_DEC_UPDATE_ON_INDEX`. -/
def Obligations.EncStepDependsOnlyOnItsInput : Prop :=
  ∀ s s' t : State, s.enc = s'.enc → s.params.magic = s'.params.magic → s.params.prevInit = s'.params.prevInit →
    s.params.maxPixels = s'.params.maxPixels → s.draws = s'.draws →
    (∀ a, inInput s.enc a = true → covered s.enc.unorderedIn a = false → s.mem.read a = s'.mem.read a) →
    encStep s = .next t →
    ∃ t', encStep s' = .next t' ∧ t.enc = t'.enc ∧
      ∀ a, s.mem.read a = s'.mem.read a → t.mem.read a = t'.mem.read a

/-- The invariant holds at reset. -/
def Obligations.ResetIsSound : Prop := Sound State.reset

/-- The invariant is kept by every step, from every state that meets it: storage in canonical form, the registers'
rules of R51, R52, R55 and R281, the latches and pointers of R36 and R37, the run counters of R34 and R35, the cache
invariant of R143, the stream budget of R203, and the buffers of running passes apart (R73). -/
def Obligations.EveryStepKeepsSound : Prop := ∀ s t : State, Sound s → step s = .next t → Sound t

/-- R72, R203: in a sound state no step faults: no unit makes an access outside IN or OUT. -/
def Obligations.SoundStatesAreSafe : Prop := ∀ s : State, Sound s → Safe s

/-- R340, R200, R285: scheduled alone from VALIDATE, ENC either fails in its first step, or is DONE after exactly
`n + 3` steps, BUSY until then. -/
def Obligations.EncPassTakesPixelsPlusThreeSteps : Prop :=
  ∀ (s : State) (n : Nat), Sound s → s.enc.phase = .validate →
    n = s.enc.regs.width.toNat * s.enc.regs.height.toNat → s.schedule = List.replicate (n + 3) .enc →
    (∃ t, core.run 1 s = .next t ∧ t.enc.phase = .error) ∨
    ((∃ t, core.run (n + 3) s = .next t ∧ t.enc.phase = .done) ∧
      ∀ j, j < n + 3 → ∃ t, core.run j s = .next t ∧ busy t.enc.phase = true)

/-- R340, R240: scheduled alone at its first pixel, DEC is in DONE or ERROR after `n + 1` more steps (the bound `n + 2`
of R340 counts the VALIDATE step before them). -/
def Obligations.DecPassEndsWithinPixelsPlusTwoSteps : Prop :=
  ∀ s : State, Sound s → s.dec.phase = .pixels → s.dec.k = 0 →
    s.schedule = List.replicate (s.dec.lat.n.toNat + 1) .dec →
    ∃ t, core.run (s.dec.lat.n.toNat + 1) s = .next t ∧ (t.dec.phase = .done ∨ t.dec.phase = .error)

/-- R167, R222 (the source's "Round-trip"): ENC encodes a validated pass; DEC then starts on the stream it wrote, read
in place from ENC's OUT, with an OUT of its own, once the host has seen ENC's end (the other unit's writes to ENC's OUT
and to DEC's buffers are in an order with the pass, log entry 22); DEC ends DONE, having used exactly ENC's stream, with
its OUT equal to the bytes ENC's pass read, byte for byte, and the header's values in its registers. -/
def Obligations.DecodingAnEncodedImageGivesItBack : Prop :=
  ∀ (s t u : State) (n : Nat), Sound s → s.enc.phase = .header → n = s.enc.lat.n.toNat →
    s.schedule = List.replicate (n + 2) .enc → core.run (n + 2) s = .next t →
    Sound u → u.dec.phase = .validate → u.params = t.params → u.mem = t.mem →
    u.dec.inBase = t.enc.outBase → u.dec.regs.inLen = t.enc.regs.outLen →
    n * s.enc.lat.ch.toNat ≤ u.dec.regs.outCap.toNat →
    (∀ a, inOutput s.enc a = true → covered s.enc.unorderedOut a = false) →
    (∀ a, inInput u.dec a = true → covered u.dec.unorderedIn a = false) →
    (∀ a, inOutput u.dec a = true → covered u.dec.unorderedOut a = false) →
    u.schedule = List.replicate (n + 2) .dec →
    ∃ v, core.run (n + 2) u = .next v ∧ v.dec.phase = .done ∧
      v.dec.regs.width = s.enc.lat.w ∧ v.dec.regs.height = s.enc.lat.hgt ∧
      v.dec.regs.channels = s.enc.lat.ch ∧ v.dec.regs.colorspace = s.enc.lat.cs ∧
      v.dec.regs.inUsed = t.enc.regs.outLen ∧
      v.dec.regs.outLen.toNat = n * s.enc.lat.ch.toNat ∧
      v.mem.readBytes u.dec.outBase (n * s.enc.lat.ch.toNat) =
        inBytes s.enc s.mem s.enc.inBase (n * s.enc.lat.ch.toNat)
end

