-- ==== Sys2Proof/Laws/Memory.lean ====
section
/-! SUPPORT. The laws of storage: a read after a write, what a write leaves alone, and that every operation keeps the
canonical form. -/

namespace Sys2Proof.Machine

/-! ### Reads after writes -/

theorem Memory.read_erase (m : Memory) (a x : Nat) :
    (m.erase a).read x = if x = a then unlistedByte else m.read x := by
  induction m with
  | nil => simp [Memory.erase, Memory.read]
  | cons c rest ih =>
    by_cases hc : c.1 = a
    · rw [Memory.erase, if_pos hc, ih]
      by_cases hx : x = a
      · simp [hx]
      · rw [if_neg hx, if_neg hx, Memory.read, if_neg (by omega)]
    · rw [Memory.erase, if_neg hc, Memory.read, Memory.read]
      by_cases hx : c.1 = x
      · rw [if_pos hx, if_pos hx, if_neg (by omega)]
      · rw [if_neg hx, if_neg hx, ih]

theorem Memory.read_place (m : Memory) (a x : Nat) (v : Byte)
    (fresh : ∀ c ∈ m, c.1 ≠ a) : (m.place a v).read x = if x = a then v else m.read x := by
  induction m with
  | nil => simp only [Memory.place, Memory.read, eq_comm]
  | cons c rest ih =>
    have hc : c.1 ≠ a := fresh c (by simp)
    have hr := ih (fun d hd => fresh d (by simp [hd]))
    by_cases hlt : a < c.1
    · rw [Memory.place, if_pos hlt]
      by_cases hx : x = a
      · simp [Memory.read, hx]
      · rw [Memory.read, if_neg (by omega), if_neg hx]
    · rw [Memory.place, if_neg hlt, Memory.read, Memory.read]
      by_cases hx : c.1 = x
      · rw [if_pos hx, if_pos hx, if_neg (by omega)]
      · rw [if_neg hx, if_neg hx, hr]

theorem Memory.erase_no_cell (m : Memory) (a : Nat) : ∀ c ∈ m.erase a, c.1 ≠ a := by
  induction m with
  | nil => simp [Memory.erase]
  | cons c rest ih =>
    by_cases hc : c.1 = a
    · rw [Memory.erase, if_pos hc]; exact ih
    · rw [Memory.erase, if_neg hc]
      intro d hd
      rcases List.mem_cons.1 hd with rfl | hd
      · exact hc
      · exact ih d hd

/-- The law of one byte: a write is read back, and every other address reads as before. -/
theorem Memory.read_write (m : Memory) (a x : Nat) (v : Byte) :
    (m.write a v).read x = if x = a then v else m.read x := by
  unfold Memory.write
  by_cases hv : v = unlistedByte
  · rw [if_pos hv, Memory.read_erase, hv]
  · rw [if_neg hv, Memory.read_place _ _ _ _ (Memory.erase_no_cell m a), Memory.read_erase]
    by_cases hx : x = a <;> simp [hx]

theorem Memory.read_writeBytes_outside (bs : List Byte) (m : Memory) (a x : Nat)
    (h : x < a ∨ a + bs.length ≤ x) : (m.writeBytes a bs).read x = m.read x := by
  induction bs generalizing m a with
  | nil => rfl
  | cons v rest ih =>
    rw [Memory.writeBytes, ih, Memory.read_write, if_neg]
    · simp at h; omega
    · simp at h; omega

theorem Memory.read_writeBytes_inside (bs : List Byte) (m : Memory) (a j : Nat) (h : j < bs.length) :
    (m.writeBytes a bs).read (a + j) = bs[j] := by
  induction bs generalizing m a j with
  | nil => simp at h
  | cons v rest ih =>
    rw [Memory.writeBytes]
    cases j with
    | zero =>
      rw [Memory.read_writeBytes_outside _ _ _ _ (by omega), Memory.read_write]
      simp
    | succ j =>
      have := ih (m.write a v) (a + 1) j (by simpa using h)
      rw [show a + (j + 1) = a + 1 + j by omega, this]
      rfl

theorem Memory.read_drawBytes_outside (m : Memory) (a d count x : Nat) (h : x < a ∨ a + count ≤ x) :
    (m.drawBytes a d count).read x = m.read x := by
  induction count with
  | zero => rfl
  | succ c ih => rw [Memory.drawBytes, Memory.read_write, if_neg (by omega), ih (by omega)]

/-- Free bytes at the addresses that windows cover: every other byte is as before. -/
theorem Memory.read_drawCovered_outside (m : Memory) (ws : List Window) (a d count x : Nat)
    (h : x < a ∨ a + count ≤ x ∨ covered ws x = false) : (m.drawCovered ws a d count).read x = m.read x := by
  induction count with
  | zero => rfl
  | succ c ih =>
    have hx := ih (h.imp_right (Or.imp_left fun h => by omega))
    rw [Memory.drawCovered]
    split
    · rename_i hc
      have hne : x ≠ a + c := by
        rintro rfl
        rcases h with h | h | h
        · omega
        · omega
        · rw [hc] at h; cases h
      rw [Memory.read_write, if_neg hne, hx]
    · exact hx

@[simp] theorem Memory.drawCovered_nil (m : Memory) (a d count : Nat) : m.drawCovered [] a d count = m := by
  induction count with
  | zero => rfl
  | succ c ih => simp [Memory.drawCovered, covered, ih]

@[simp] theorem Memory.length_readBytes (m : Memory) (a count : Nat) : (m.readBytes a count).length = count := by
  induction count generalizing a with
  | zero => rfl
  | succ c ih => simp [Memory.readBytes, ih]

theorem Memory.getElem_readBytes (m : Memory) (a count j : Nat) (h : j < (m.readBytes a count).length) :
    (m.readBytes a count)[j] = m.read (a + j) := by
  induction count generalizing a j with
  | zero => simp [Memory.readBytes] at h
  | succ c ih =>
    cases j with
    | zero => simp [Memory.readBytes]
    | succ j =>
      simp only [Memory.readBytes, List.getElem_cons_succ]
      rw [ih, show a + 1 + j = a + (j + 1) by omega]

theorem Memory.readBytes_append (m : Memory) (a c d : Nat) :
    m.readBytes a (c + d) = m.readBytes a c ++ m.readBytes (a + c) d := by
  induction c generalizing a with
  | zero => simp [Memory.readBytes]
  | succ c ih =>
    rw [show c + 1 + d = (c + d) + 1 by omega]
    simp only [Memory.readBytes, ih, List.cons_append]
    rw [show a + 1 + c = a + (c + 1) by omega]

/-- Bytes written are read back. -/
theorem Memory.readBytes_writeBytes (m : Memory) (a : Nat) (bs : List Byte) :
    (m.writeBytes a bs).readBytes a bs.length = bs := by
  apply List.ext_getElem
  · simp
  · intro i _ h
    rw [Memory.getElem_readBytes, Memory.read_writeBytes_inside _ _ _ _ h]

/-- Reading bytes looks only at their addresses. -/
theorem Memory.readBytes_congr (m m' : Memory) (a count : Nat)
    (h : ∀ x, a ≤ x → x < a + count → m.read x = m'.read x) : m.readBytes a count = m'.readBytes a count := by
  induction count generalizing a with
  | zero => rfl
  | succ c ih =>
    rw [Memory.readBytes, Memory.readBytes, h a (by omega) (by omega),
      ih (a + 1) fun x hx hx' => h x (by omega) (by omega)]

/-! ### The canonical form -/

theorem Memory.wfFrom_mono {lo lo' : Nat} {m : Memory} (h : Memory.wfFrom lo m = true) (hlo : lo' ≤ lo) :
    Memory.wfFrom lo' m = true := by
  cases m with
  | nil => rfl
  | cons c rest =>
    simp only [Memory.wfFrom, Bool.and_eq_true, decide_eq_true_eq] at h ⊢
    exact ⟨⟨by omega, h.1.2⟩, h.2⟩

theorem Memory.wfFrom_erase {lo : Nat} {m : Memory} (a : Nat) (h : Memory.wfFrom lo m = true) :
    Memory.wfFrom lo (m.erase a) = true := by
  induction m generalizing lo with
  | nil => rfl
  | cons c rest ih =>
    simp only [Memory.wfFrom, Bool.and_eq_true, decide_eq_true_eq] at h
    by_cases hc : c.1 = a
    · rw [Memory.erase, if_pos hc]
      exact Memory.wfFrom_mono (ih h.2) (by omega)
    · rw [Memory.erase, if_neg hc]
      simp only [Memory.wfFrom, Bool.and_eq_true, decide_eq_true_eq]
      exact ⟨h.1, ih h.2⟩

theorem Memory.wfFrom_place {lo : Nat} {m : Memory} (a : Nat) (v : Byte) (h : Memory.wfFrom lo m = true)
    (fresh : ∀ c ∈ m, c.1 ≠ a) (hv : v ≠ unlistedByte) (hlo : lo ≤ a) :
    Memory.wfFrom lo (m.place a v) = true := by
  induction m generalizing lo with
  | nil => simp [Memory.place, Memory.wfFrom, hv, hlo]
  | cons c rest ih =>
    simp only [Memory.wfFrom, Bool.and_eq_true, decide_eq_true_eq] at h
    have hc : c.1 ≠ a := fresh c (by simp)
    by_cases hlt : a < c.1
    · rw [Memory.place, if_pos hlt]
      simp only [Memory.wfFrom, Bool.and_eq_true, decide_eq_true_eq]
      exact ⟨⟨hlo, by simpa using hv⟩, ⟨by omega, h.1.2⟩, h.2⟩
    · rw [Memory.place, if_neg hlt]
      simp only [Memory.wfFrom, Bool.and_eq_true, decide_eq_true_eq]
      exact ⟨h.1, ih h.2 (fun d hd => fresh d (by simp [hd])) (by omega)⟩

/-- A write keeps the canonical form. -/
theorem Memory.wf_write {m : Memory} (a : Nat) (v : Byte) (h : m.wf = true) : (m.write a v).wf = true := by
  unfold Memory.write
  by_cases hv : v = unlistedByte
  · rw [if_pos hv]; exact Memory.wfFrom_erase a h
  · rw [if_neg hv]
    exact Memory.wfFrom_place a v (Memory.wfFrom_erase a h) (Memory.erase_no_cell m a) hv (Nat.zero_le a)

/-- Writing bytes keeps the canonical form. -/
theorem Memory.wf_writeBytes {m : Memory} (a : Nat) (bs : List Byte) (h : m.wf = true) :
    (m.writeBytes a bs).wf = true := by
  induction bs generalizing m a with
  | nil => exact h
  | cons v rest ih => exact ih (a + 1) (Memory.wf_write a v h)

/-- Free bytes keep the canonical form. -/
theorem Memory.wf_drawBytes {m : Memory} (a d count : Nat) (h : m.wf = true) :
    (m.drawBytes a d count).wf = true := by
  induction count with
  | zero => exact h
  | succ c ih => exact Memory.wf_write _ _ ih

/-- Free bytes at some addresses keep the canonical form. -/
theorem Memory.wf_drawCovered {m : Memory} (ws : List Window) (a d count : Nat) (h : m.wf = true) :
    (m.drawCovered ws a d count).wf = true := by
  induction count with
  | zero => exact h
  | succ c ih =>
    rw [Memory.drawCovered]
    split
    · exact Memory.wf_write _ _ ih
    · exact ih

/-- Storage after reset is in canonical form. -/
theorem Memory.wf_reset : State.reset.mem.wf = true := rfl

end Sys2Proof.Machine
end

