-- ==== Sys2Proof/Laws/State.lean ====
section
/-! SUPPORT. The fields of State under the named updates: one lemma per field and update. -/

namespace Sys2Proof.Machine

/-! ### setUnit -/

@[simp] theorem State.unit_enc (s : State) : s.unit .enc = s.enc := rfl
@[simp] theorem State.unit_dec (s : State) : s.unit .dec = s.dec := rfl
@[simp] theorem State.setUnit_enc (s : State) (x : UnitState) : s.setUnit .enc x = { s with enc := x } := rfl
@[simp] theorem State.setUnit_dec (s : State) (x : UnitState) : s.setUnit .dec x = { s with dec := x } := rfl
@[simp] theorem State.unit_setUnit (s : State) (u : UnitId) (x : UnitState) : (s.setUnit u x).unit u = x := by
  cases u <;> rfl
@[simp] theorem State.unit_setUnit_other (s : State) (u : UnitId) (x : UnitState) :
    (s.setUnit u x).unit (otherUnit u) = s.unit (otherUnit u) := by cases u <;> rfl
@[simp] theorem State.setUnit_params (s : State) (u : UnitId) (x : UnitState) :
    (s.setUnit u x).params = s.params := by cases u <;> rfl
@[simp] theorem State.setUnit_mem (s : State) (u : UnitId) (x : UnitState) : (s.setUnit u x).mem = s.mem := by
  cases u <;> rfl
@[simp] theorem State.setUnit_contested (s : State) (u : UnitId) (x : UnitState) :
    (s.setUnit u x).contested = s.contested := by cases u <;> rfl
@[simp] theorem State.setUnit_hostIn (s : State) (u : UnitId) (x : UnitState) :
    (s.setUnit u x).hostIn = s.hostIn := by cases u <;> rfl
@[simp] theorem State.setUnit_hostOut (s : State) (u : UnitId) (x : UnitState) :
    (s.setUnit u x).hostOut = s.hostOut := by cases u <;> rfl
@[simp] theorem State.setUnit_schedule (s : State) (u : UnitId) (x : UnitState) :
    (s.setUnit u x).schedule = s.schedule := by cases u <;> rfl
@[simp] theorem State.setUnit_draws (s : State) (u : UnitId) (x : UnitState) : (s.setUnit u x).draws = s.draws := by
  cases u <;> rfl

/-! ### raise -/

@[simp] theorem raise_unit (u : UnitId) (e : PassError) (i0 i1 : Nat) (s : State) :
    (raise u e i0 i1 s).unit u = { s.unit u with
      phase := .error
      regs := { (s.unit u).regs with
        errCode := errorCode e, errInfo0 := infoWord s.draws i0, errInfo1 := infoWord (s.draws + 1) i1
        outLen := 0, inUsed := 0 } } := by cases u <;> rfl
@[simp] theorem raise_unit_other (u : UnitId) (e : PassError) (i0 i1 : Nat) (s : State) :
    (raise u e i0 i1 s).unit (otherUnit u) = s.unit (otherUnit u) := by cases u <;> rfl
@[simp] theorem raise_params (u : UnitId) (e : PassError) (i0 i1 : Nat) (s : State) :
    (raise u e i0 i1 s).params = s.params := by cases u <;> rfl
@[simp] theorem raise_mem (u : UnitId) (e : PassError) (i0 i1 : Nat) (s : State) :
    (raise u e i0 i1 s).mem = s.mem := by cases u <;> rfl
@[simp] theorem raise_contested (u : UnitId) (e : PassError) (i0 i1 : Nat) (s : State) :
    (raise u e i0 i1 s).contested = s.contested := by cases u <;> rfl
@[simp] theorem raise_hostIn (u : UnitId) (e : PassError) (i0 i1 : Nat) (s : State) :
    (raise u e i0 i1 s).hostIn = s.hostIn := by cases u <;> rfl
@[simp] theorem raise_hostOut (u : UnitId) (e : PassError) (i0 i1 : Nat) (s : State) :
    (raise u e i0 i1 s).hostOut = s.hostOut := by cases u <;> rfl
@[simp] theorem raise_schedule (u : UnitId) (e : PassError) (i0 i1 : Nat) (s : State) :
    (raise u e i0 i1 s).schedule = s.schedule := by cases u <;> rfl

/-! ### afterChoice -/

@[simp] theorem afterChoice_enc (s : State) : (afterChoice s).enc = s.enc := by unfold afterChoice; split <;> rfl
@[simp] theorem afterChoice_dec (s : State) : (afterChoice s).dec = s.dec := by unfold afterChoice; split <;> rfl
@[simp] theorem afterChoice_unit (s : State) (u : UnitId) : (afterChoice s).unit u = s.unit u := by
  cases u <;> simp [State.unit]
@[simp] theorem afterChoice_params (s : State) : (afterChoice s).params = s.params := by
  unfold afterChoice; split <;> rfl
@[simp] theorem afterChoice_mem (s : State) : (afterChoice s).mem = s.mem := by unfold afterChoice; split <;> rfl
@[simp] theorem afterChoice_contested (s : State) : (afterChoice s).contested = s.contested := by
  unfold afterChoice; split <;> rfl
@[simp] theorem afterChoice_hostIn (s : State) : (afterChoice s).hostIn = s.hostIn := by
  unfold afterChoice; split <;> rfl
@[simp] theorem afterChoice_hostOut (s : State) : (afterChoice s).hostOut = s.hostOut := by
  unfold afterChoice; split <;> rfl

/-! ### takeChunk -/

@[simp] theorem takeChunk_enc (len : Nat) (w : Bool) (px : Pixel) (s : State) :
    (takeChunk len w px s).enc = s.enc := rfl
@[simp] theorem takeChunk_mem (len : Nat) (w : Bool) (px : Pixel) (s : State) :
    (takeChunk len w px s).mem = s.mem := rfl
@[simp] theorem takeChunk_contested (len : Nat) (w : Bool) (px : Pixel) (s : State) :
    (takeChunk len w px s).contested = s.contested := rfl
@[simp] theorem takeChunk_params (len : Nat) (w : Bool) (px : Pixel) (s : State) :
    (takeChunk len w px s).params = s.params := rfl
@[simp] theorem takeChunk_hostIn (len : Nat) (w : Bool) (px : Pixel) (s : State) :
    (takeChunk len w px s).hostIn = s.hostIn := rfl
@[simp] theorem takeChunk_hostOut (len : Nat) (w : Bool) (px : Pixel) (s : State) :
    (takeChunk len w px s).hostOut = s.hostOut := rfl
@[simp] theorem takeChunk_schedule (len : Nat) (w : Bool) (px : Pixel) (s : State) :
    (takeChunk len w px s).schedule = s.schedule := rfl
@[simp] theorem takeChunk_draws (len : Nat) (w : Bool) (px : Pixel) (s : State) :
    (takeChunk len w px s).draws = s.draws := rfl
@[simp] theorem takeChunk_dec (len : Nat) (w : Bool) (px : Pixel) (s : State) :
    (takeChunk len w px s).dec = { s.dec with
      ipos := s.dec.ipos + BitVec.ofNat 64 len
      idx := if w then cacheWrite s.dec.idx px else s.dec.idx
      prev := px } := rfl

/-! ### encAdvance -/

@[simp] theorem encAdvance_dec (s : State) : (encAdvance s).dec = s.dec := rfl
@[simp] theorem encAdvance_mem (s : State) : (encAdvance s).mem = s.mem := rfl
@[simp] theorem encAdvance_contested (s : State) : (encAdvance s).contested = s.contested := rfl
@[simp] theorem encAdvance_params (s : State) : (encAdvance s).params = s.params := rfl
@[simp] theorem encAdvance_hostIn (s : State) : (encAdvance s).hostIn = s.hostIn := rfl
@[simp] theorem encAdvance_hostOut (s : State) : (encAdvance s).hostOut = s.hostOut := rfl
@[simp] theorem encAdvance_schedule (s : State) : (encAdvance s).schedule = s.schedule := rfl
@[simp] theorem encAdvance_draws (s : State) : (encAdvance s).draws = s.draws := rfl

/-! ### startPass -/

@[simp] theorem startPass_unit (u : UnitId) (s : State) :
    (startPass u s).unit u =
      { s.unit u with
        phase := .validate, regs := startRegs u (s.unit u).regs, awaited := true
        unorderedOut := (s.unit (otherUnit u)).unseen
        unorderedIn := windowsWithout (s.unit (otherUnit u)).unseen s.contested, passDraw := s.draws } := by
  cases u <;> rfl
@[simp] theorem startPass_unit_other (u : UnitId) (s : State) :
    (startPass u s).unit (otherUnit u) = s.unit (otherUnit u) := by cases u <;> rfl
@[simp] theorem startPass_params (u : UnitId) (s : State) : (startPass u s).params = s.params := by cases u <;> rfl
@[simp] theorem startPass_mem (u : UnitId) (s : State) : (startPass u s).mem = s.mem := by cases u <;> rfl
@[simp] theorem startPass_contested (u : UnitId) (s : State) : (startPass u s).contested = s.contested := by
  cases u <;> rfl
@[simp] theorem startPass_hostIn (u : UnitId) (s : State) : (startPass u s).hostIn = s.hostIn := by cases u <;> rfl
@[simp] theorem startPass_hostOut (u : UnitId) (s : State) : (startPass u s).hostOut = s.hostOut := by cases u <;> rfl

/-! ### settleOutput -/

@[simp] theorem settleOutput_mem (u : UnitId) (n : Nat) (s : State) :
    (settleOutput u n s).mem = s.mem.drawCovered (s.unit u).unorderedOut (s.unit u).outBase s.draws n := rfl
@[simp] theorem settleOutput_contested (u : UnitId) (n : Nat) (s : State) :
    (settleOutput u n s).contested =
      windowsWithout s.contested [((s.unit u).outBase, (s.unit u).outBase + n)] := rfl
@[simp] theorem settleOutput_enc (u : UnitId) (n : Nat) (s : State) : (settleOutput u n s).enc = s.enc := rfl
@[simp] theorem settleOutput_dec (u : UnitId) (n : Nat) (s : State) : (settleOutput u n s).dec = s.dec := rfl
@[simp] theorem settleOutput_params (u : UnitId) (n : Nat) (s : State) : (settleOutput u n s).params = s.params := rfl
@[simp] theorem settleOutput_hostIn (u : UnitId) (n : Nat) (s : State) : (settleOutput u n s).hostIn = s.hostIn := rfl
@[simp] theorem settleOutput_hostOut (u : UnitId) (n : Nat) (s : State) :
    (settleOutput u n s).hostOut = s.hostOut := rfl
@[simp] theorem settleOutput_schedule (u : UnitId) (n : Nat) (s : State) :
    (settleOutput u n s).schedule = s.schedule := rfl
@[simp] theorem settleOutput_unit (u v : UnitId) (n : Nat) (s : State) : (settleOutput u n s).unit v = s.unit v := by
  cases v <;> rfl

/-! ### completePass -/

@[simp] theorem completePass_phase (o i : Word64) (x : UnitState) : (completePass o i x).phase = .done := rfl
@[simp] theorem completePass_regs (o i : Word64) (x : UnitState) :
    (completePass o i x).regs = { x.regs with outLen := o, inUsed := i } := rfl
@[simp] theorem completePass_unseen (o i : Word64) (x : UnitState) :
    (completePass o i x).unseen = (x.outBase, x.outBase + o.toNat) :: x.unseen := rfl
@[simp] theorem completePass_lat (o i : Word64) (x : UnitState) : (completePass o i x).lat = x.lat := rfl
@[simp] theorem completePass_prev (o i : Word64) (x : UnitState) : (completePass o i x).prev = x.prev := rfl
@[simp] theorem completePass_idx (o i : Word64) (x : UnitState) : (completePass o i x).idx = x.idx := rfl
@[simp] theorem completePass_run (o i : Word64) (x : UnitState) : (completePass o i x).run = x.run := rfl
@[simp] theorem completePass_k (o i : Word64) (x : UnitState) : (completePass o i x).k = x.k := rfl
@[simp] theorem completePass_ipos (o i : Word64) (x : UnitState) : (completePass o i x).ipos = x.ipos := rfl
@[simp] theorem completePass_opos (o i : Word64) (x : UnitState) : (completePass o i x).opos = x.opos := rfl
@[simp] theorem completePass_inBase (o i : Word64) (x : UnitState) : (completePass o i x).inBase = x.inBase := rfl
@[simp] theorem completePass_outBase (o i : Word64) (x : UnitState) : (completePass o i x).outBase = x.outBase := rfl
@[simp] theorem completePass_awaited (o i : Word64) (x : UnitState) : (completePass o i x).awaited = x.awaited := rfl
@[simp] theorem completePass_unorderedOut (o i : Word64) (x : UnitState) :
    (completePass o i x).unorderedOut = x.unorderedOut := rfl
@[simp] theorem completePass_unorderedIn (o i : Word64) (x : UnitState) :
    (completePass o i x).unorderedIn = x.unorderedIn := rfl
@[simp] theorem completePass_passDraw (o i : Word64) (x : UnitState) : (completePass o i x).passDraw = x.passDraw := rfl

end Sys2Proof.Machine
end

