-- ==== Sys2Proof/Laws/Order.lean ====
section
/-! SUPPORT. The laws of the sets of addresses that say which writes are in an order (spec/20_memory.md R83, R84), and
of the bytes of IN that a pass reads. -/

namespace Sys2Proof.Machine

/-! ### Sets of addresses -/

@[simp] theorem covered_nil (a : Nat) : covered [] a = false := rfl

@[simp] theorem covered_cons (w : Window) (ws : List Window) (a : Nat) :
    covered (w :: ws) a = (decide (w.1 ≤ a ∧ a < w.2) || covered ws a) := rfl

theorem covered_append (ws ws' : List Window) (a : Nat) : covered (ws ++ ws') a = (covered ws a || covered ws' a) :=
  List.any_append

theorem covered_windowWithout (c w : Window) (a : Nat) :
    covered (windowWithout c w) a = (decide (w.1 ≤ a ∧ a < w.2) && !decide (c.1 ≤ a ∧ a < c.2)) := by
  unfold windowWithout
  rw [covered_append, Bool.eq_iff_iff]
  split <;> split <;> simp <;> omega

theorem covered_flatMap_windowWithout (c : Window) (ws : List Window) (a : Nat) :
    covered (ws.flatMap (windowWithout c)) a = (covered ws a && !decide (c.1 ≤ a ∧ a < c.2)) := by
  induction ws with
  | nil => rfl
  | cons w rest ih =>
    rw [List.flatMap_cons, covered_append, ih, covered_windowWithout, covered_cons, Bool.and_or_distrib_right]

/-- Taking addresses away leaves the others. -/
@[simp] theorem covered_windowsWithout (ws cut : List Window) (a : Nat) :
    covered (windowsWithout ws cut) a = (covered ws a && !covered cut a) := by
  induction cut generalizing ws with
  | nil => simp [windowsWithout]
  | cons c rest ih =>
    rw [windowsWithout, ih, covered_flatMap_windowWithout, covered_cons, Bool.not_or, Bool.and_assoc]

/-! ### The bytes of IN -/

@[simp] theorem length_inBytes (x : UnitState) (m : Memory) (a count : Nat) : (inBytes x m a count).length = count := by
  induction count generalizing a with
  | zero => rfl
  | succ c ih => simp [inBytes, ih]

/-- A byte whose writes are all in an order with the pass is the byte of storage. -/
theorem inByte_ordered {x : UnitState} {a : Nat} (m : Memory) (h : covered x.unorderedIn a = false) :
    inByte x m a = m.read a := by simp [inByte, h]

/-- Reading IN looks only at the pass's unordered bytes and, outside them, at storage. -/
theorem inBytes_congr {x y : UnitState} {m m' : Memory} {a count : Nat} (hu : y.unorderedIn = x.unorderedIn)
    (hd : y.passDraw = x.passDraw)
    (h : ∀ j, a ≤ j → j < a + count → covered x.unorderedIn j = false → m.read j = m'.read j) :
    inBytes x m a count = inBytes y m' a count := by
  induction count generalizing a with
  | zero => rfl
  | succ c ih =>
    have hj : inByte x m a = inByte y m' a := by
      unfold inByte
      rw [hu, hd]
      split
      · rfl
      · exact h a (by omega) (by omega) (by simp_all)
    rw [inBytes, inBytes, hj, ih fun j h1 h2 h3 => h j (by omega) (by omega) h3]

/-- Bytes whose writes are all in an order with the pass are the bytes of storage. -/
theorem inBytes_ordered {x : UnitState} {a count : Nat} (m : Memory)
    (h : ∀ j, a ≤ j → j < a + count → covered x.unorderedIn j = false) :
    inBytes x m a count = m.readBytes a count := by
  induction count generalizing a with
  | zero => rfl
  | succ c ih =>
    rw [inBytes, Memory.readBytes, inByte_ordered m (h a (by omega) (by omega)),
      ih fun j h1 h2 => h j (by omega) (by omega)]

theorem inBytes_append (x : UnitState) (m : Memory) (a c d : Nat) :
    inBytes x m a (c + d) = inBytes x m a c ++ inBytes x m (a + c) d := by
  induction c generalizing a with
  | zero => simp [inBytes]
  | succ c ih =>
    rw [show c + 1 + d = (c + d) + 1 by omega]
    simp only [inBytes, ih, List.cons_append]
    rw [show a + 1 + c = a + (c + 1) by omega]

/-! ### OUT of a pass that a hardware reset ends -/

/-- The reset takes OUT of a BUSY pass out of what is contested, and nothing else. -/
@[simp] theorem covered_drawRunningOutput_contested (x : UnitState) (s : State) (a : Nat) :
    covered (drawRunningOutput x s).contested a = (covered s.contested a && !(busy x.phase && inOutput x a)) := by
  unfold drawRunningOutput
  split <;> simp_all [inOutput]

end Sys2Proof.Machine
end

