-- ==== Sys2Proof/Laws/Pixel.lean ====
section
/-! SUPPORT. The laws of the pixel model and of the index cache. -/

namespace Sys2Proof.Machine

/-- `channelAdd` is addition of bytes. -/
theorem channelAdd_eq (y : Byte) (d : Int) : channelAdd y d = y + BitVec.ofInt 8 d := by
  apply BitVec.eq_of_toNat_eq
  simp only [channelAdd, BitVec.toNat_ofInt, BitVec.toNat_add]
  omega

/-- The signed delta is the difference up to a multiple of 256. -/
theorem ofInt_signedDelta (x y : Byte) : BitVec.ofInt 8 (signedDelta x y) = x - y := by
  unfold signedDelta s8
  split
  · rw [BitVec.ofInt_natCast, BitVec.ofNat_toNat, BitVec.setWidth_eq]
  · apply BitVec.eq_of_toNat_eq
    rw [BitVec.toNat_ofInt]
    have := (x - y).isLt
    omega

theorem signedDelta_lt (x y : Byte) : -128 ≤ signedDelta x y ∧ signedDelta x y ≤ 127 := by
  unfold signedDelta s8
  have := (x - y).isLt
  split <;> omega

/-- A LOOKUP after a WRITE. -/
theorem cacheLookup_cacheWrite (idx : Cache) (p : Pixel) (h : Slot) :
    cacheLookup (cacheWrite idx p) h = if h = pixelHash p then p else cacheLookup idx h := by
  unfold cacheLookup cacheWrite
  rw [Vector.getElem_set]
  by_cases hh : h = pixelHash p
  · subst hh; simp
  · rw [if_neg hh, if_neg (fun e => hh (BitVec.eq_of_toNat_eq e.symm))]

/-- Every slot of the cleared cache holds the clear value. -/
@[simp] theorem cacheLookup_cacheCleared (h : Slot) : cacheLookup cacheCleared h = Pixel.clear := by
  simp [cacheLookup, cacheCleared]

/-- ENC's test of its slot is the cache's LOOKUP. -/
theorem chunkFor_eq (prev : Pixel) (idx : Cache) (p : Pixel) :
    chunkFor prev idx p = if cacheLookup idx (pixelHash p) = p then .index (pixelHash p) else codedChunk prev p := rfl

/-- The byte form of a pixel has `ch` bytes, the channels in order. -/
theorem bytesOfPixel_eq {ch : Byte} (p : Pixel) (h : ch = 3 ∨ ch = 4) :
    ∃ bs, bytesOfPixel ch p = some bs ∧ bs.length = ch.toNat ∧
      ∀ (c : Fin 4) (hc : c.val < bs.length), bs[c.val] = channelOf p c := by
  rcases h with rfl | rfl
  · refine ⟨[p.r, p.g, p.b], rfl, rfl, ?_⟩
    intro c hc
    fin_cases c <;> first | rfl | (simp at hc)
  · refine ⟨[p.r, p.g, p.b, p.a], rfl, rfl, ?_⟩
    intro c hc
    fin_cases c <;> rfl

/-- Bytes that number 3 or 4 make a pixel. -/
theorem pixelOfBytes_isSome {bs : List Byte} (h : bs.length = 3 ∨ bs.length = 4) :
    ∃ p, pixelOfBytes bs = some p := by
  match bs, h with
  | [_, _, _], _ => exact ⟨_, rfl⟩
  | [_, _, _, _], _ => exact ⟨_, rfl⟩

end Sys2Proof.Machine
end

