-- ==== Sys2Proof/Laws/Ops.lean ====
section
/-! SUPPORT. What the shared operations can do: one lemma for each, that later proofs cite instead of unfolding it. -/

namespace Sys2Proof.Machine

open Sys2Proof.Safety

/-- A small info word is the value itself. -/
theorem infoWord_fits {d v : Nat} (h : v < 2 ^ 64) : infoWord d v = BitVec.ofNat 64 v := if_pos h

/-- MemWrite answers a state exactly when the bytes lie in OUT, and then only storage differs. -/
theorem memWrite_eq_some {u : UnitId} {s t : State} {a : Nat} {bs : List Byte} :
    memWrite u s a bs = some t ↔ a + bs.length ≤ (s.unit u).lat.outCap.toNat ∧
      t = { s with mem := s.mem.writeBytes ((s.unit u).outBase + a) bs } := by
  unfold memWrite
  split <;> simp_all [eq_comm]

/-- MemRead answers bytes exactly when they lie in IN. -/
theorem memRead_eq_some {u : UnitId} {s : State} {a count : Nat} {bs : List Byte} :
    memRead u s a count = some bs ↔ a + count ≤ (s.unit u).lat.inLen.toNat ∧
      bs = inBytes (s.unit u) s.mem ((s.unit u).inBase + a) count := by
  unfold memRead
  split <;> simp_all [eq_comm]

/-- The end of a pixel step, where the pixel fits (R250): the next state in full. -/
theorem finishPixel_eq {px : Pixel} {s : State} (room : PixelRoom s) :
    ∃ bs, bytesOfPixel s.dec.lat.ch px = some bs ∧ finishPixel px s = .next { s with
      mem := s.mem.writeBytes (pixelAddress s) bs
      dec := { s.dec with
        opos := s.dec.opos + s.dec.lat.ch.setWidth 64, k := s.dec.k + 1
        phase := if s.dec.k + 1 = s.dec.lat.n then .footer else s.dec.phase } } := by
  obtain ⟨bs, hbs, hlen, -⟩ := bytesOfPixel_eq px room.1
  refine ⟨bs, hbs, ?_⟩
  have hw : memWrite .dec s (s.dec.k.toNat * s.dec.lat.ch.toNat) bs =
      some { s with mem := s.mem.writeBytes (pixelAddress s) bs } := by
    rw [memWrite_eq_some]
    exact ⟨by rw [hlen]; exact room.2, rfl⟩
  simp [finishPixel, hbs, hw]

/-- What the end of a pixel step can answer: a fault, or the next state of `finishPixel_eq`. -/
theorem finishPixel_next {px : Pixel} {s t : State} (h : finishPixel px s = .next t) :
    PixelRoom s ∧ ∃ bs, bytesOfPixel s.dec.lat.ch px = some bs ∧ t = { s with
      mem := s.mem.writeBytes (pixelAddress s) bs
      dec := { s.dec with
        opos := s.dec.opos + s.dec.lat.ch.setWidth 64, k := s.dec.k + 1
        phase := if s.dec.k + 1 = s.dec.lat.n then .footer else s.dec.phase } } := by
  have room : PixelRoom s := by
    by_cases hch : s.dec.lat.ch = 3 ∨ s.dec.lat.ch = 4
    · refine ⟨hch, ?_⟩
      obtain ⟨bs, hbs, hlen, -⟩ := bytesOfPixel_eq px hch
      by_contra hcap
      have hw : memWrite .dec s (s.dec.k.toNat * s.dec.lat.ch.toNat) bs = none := by
        unfold memWrite; rw [if_neg]; rw [hlen]; exact hcap
      simp [finishPixel, hbs, hw] at h
    · have hn : bytesOfPixel s.dec.lat.ch px = none := by
        rw [not_or] at hch
        unfold bytesOfPixel
        rw [if_neg hch.2, if_neg hch.1]
      simp [finishPixel, hn] at h
  obtain ⟨bs, hbs, heq⟩ := finishPixel_eq (px := px) room
  exact ⟨room, bs, hbs, by rw [heq] at h; exact (Host.Outcome.next.inj h).symm⟩

/-- The storage side of a pixel step: the channels at `OUT[k * ch]`, every other byte as before. -/
theorem writeBytes_pixel {ch : Byte} {px : Pixel} {bs : List Byte} (m : Memory) (a : Nat)
    (hch : ch = 3 ∨ ch = 4) (hbs : bytesOfPixel ch px = some bs) :
    (∀ c : Fin 4, c.val < ch.toNat → (m.writeBytes a bs).read (a + c.val) = channelOf px c) ∧
    ∀ x, (x < a ∨ a + ch.toNat ≤ x) → (m.writeBytes a bs).read x = m.read x := by
  obtain ⟨bs', hbs', hlen, hget⟩ := bytesOfPixel_eq px hch
  obtain rfl : bs' = bs := by rw [hbs] at hbs'; exact (Option.some.inj hbs').symm
  refine ⟨fun c hc => ?_, fun x hx => Memory.read_writeBytes_outside _ _ _ _ (by rw [hlen]; exact hx)⟩
  rw [Memory.read_writeBytes_inside _ _ _ _ (by rw [hlen]; exact hc)]
  exact hget c _

/-- `emit` answers a state exactly when the bytes lie in OUT. -/
theorem emit_eq_some {bs : List Byte} {s t : State} :
    emit bs s = some t ↔ s.enc.opos.toNat + bs.length ≤ s.enc.lat.outCap.toNat ∧
      t = { s with
        mem := s.mem.writeBytes (s.enc.outBase + s.enc.opos.toNat) bs
        enc := { s.enc with opos := s.enc.opos + BitVec.ofNat 64 bs.length } } := by
  unfold emit memWrite
  split <;> rename_i h <;> split at h <;> simp_all [eq_comm]

/-- An error of a PIXELS or FOOTER step of DEC, with no info (R290, R88). The bytes it leaves free are unseen. -/
theorem raiseDecoding_eq (e : PassError) (s : State) :
    raiseDecoding e s = { s with
      mem := s.mem.drawBytes s.dec.outBase s.draws (s.dec.k.toNat * s.dec.lat.ch.toNat)
      draws := s.draws + s.dec.k.toNat * s.dec.lat.ch.toNat + 2
      contested := windowsWithout s.contested [(s.dec.outBase, pixelAddress s)]
      dec := { s.dec with
        phase := .error
        regs := { s.dec.regs with errCode := errorCode e, errInfo0 := 0, errInfo1 := 0, outLen := 0, inUsed := 0 }
        unseen := (s.dec.outBase, pixelAddress s) :: s.dec.unseen } } := by
  simp [raiseDecoding, raise, infoWord, pixelAddress]

/-- The same in the terms of Safety.lean. -/
theorem raiseDecoding_raised (e : PassError) (s : State) : DecodingRaised s (raiseDecoding e s) (errorCode e) := by
  rw [raiseDecoding_eq]
  exact ⟨rfl, fun a ha => Memory.read_drawBytes_outside _ _ _ _ _ ha, rfl, fun a => by simp, rfl, rfl, rfl, rfl⟩

/-- The end of a pixel step of `s`, reached in a state `u` that differs from `s` in `ipos`, the cache, the run counter
and `prev` only: a next state, that makes a pixel step of it and keeps what `u` holds (R250). -/
theorem finishPixel_step {px : Pixel} {s u : State} {len : Nat} {idx : Cache} {run : BitVec 6} {prev : Pixel}
    (room : PixelRoom s)
    (hu : u = { s with dec := { s.dec with
      ipos := s.dec.ipos + BitVec.ofNat 64 len, idx := idx, run := run, prev := prev } }) :
    ∃ t, finishPixel px u = .next t ∧ PixelStep s t len px ∧ t.dec.prev = prev ∧ t.dec.idx = idx ∧
      t.dec.run = run := by
  subst hu
  obtain ⟨bs, hbs, heq⟩ := finishPixel_eq (px := px)
    (s := { s with dec := { s.dec with
      ipos := s.dec.ipos + BitVec.ofNat 64 len, idx := idx, run := run, prev := prev } })
    room
  obtain ⟨inside, outside⟩ := writeBytes_pixel s.mem (pixelAddress s) room.1 hbs
  exact ⟨_, heq, ⟨rfl, rfl, rfl, rfl, inside, outside, rfl, rfl, ⟨rfl, rfl, rfl⟩, ⟨rfl, rfl, rfl, rfl, rfl⟩, rfl, rfl,
    rfl, rfl, rfl, rfl⟩, rfl, rfl, rfl⟩

/-- A chunk of more than one byte inside IN (R162, R164, R165). -/
theorem longChunk_step {px : Pixel} {s : State} {len : Nat} (room : PixelRoom s)
    (fits : s.dec.ipos.toNat + len ≤ s.dec.lat.inLen.toNat) :
    ∃ t, longChunk len px s = .next t ∧ PixelStep s t len px ∧ t.dec.prev = px ∧
      t.dec.idx = cacheWrite s.dec.idx px ∧ t.dec.run = s.dec.run := by
  have : chunkPastEnd len s = false := by simp only [chunkPastEnd, decide_eq_false_iff_not]; omega
  simp only [longChunk, this]
  exact finishPixel_step room rfl

/-- A chunk of more than one byte that passes the end of IN (R252). -/
theorem longChunk_raised {px : Pixel} {s : State} {len : Nat}
    (past : s.dec.lat.inLen.toNat < s.dec.ipos.toNat + len) :
    longChunk len px s = .next (raiseDecoding .unexpectedBufferEnd s) := by
  have : chunkPastEnd len s = true := by simp only [chunkPastEnd, decide_eq_true_eq]; exact past
  simp [longChunk, this]

end Sys2Proof.Machine
end

