-- ==== Sys2Proof/Laws/PerInstr.lean ====
section
/-! SUPPORT. Facts about every chunk as syntax, one lemma per constructor. -/

namespace Sys2Proof.Laws.EncodedLength

/-- A chunk's bytes number what its first byte says (R102, R110): 4 for RGB, 5 for RGBA, 2 for LUMA, else 1. -/
def Statement (i : Instr) : Prop :=
  i.wellFormed = true → ∃ b1 rest, encode i = b1 :: rest ∧ rest.length + 1 = chunkLength b1

/-- The chunks of one byte whose tag is not LUMA's. -/
theorem of_single {i : Instr} {tag : BitVec 2} {low : BitVec 6} (h : encode i = [(tag ++ low : BitVec 8)])
    (notLuma : tag ≠ 0b10) (notLiteral : tag = 0b11 → low.toNat < 62) : Statement i := by
  intro _
  refine ⟨_, _, h, ?_⟩
  have : ∀ (t : BitVec 2) (l : BitVec 6), t ≠ 0b10 → (t = 0b11 → l.toNat < 62) →
      chunkLength (t ++ l : BitVec 8) = 1 := by decide
  simp [this tag low notLuma notLiteral]

theorem rgb (r g b : Byte) : Statement (.rgb r g b) := fun _ => ⟨_, _, rfl, rfl⟩

theorem rgba (r g b a : Byte) : Statement (.rgba r g b a) := fun _ => ⟨_, _, rfl, rfl⟩

theorem index (i : Slot) : Statement (.index i) := of_single rfl (by decide) fun h => absurd h (by decide)

theorem diff (dr dg db : Int) : Statement (.diff dr dg db) := by
  refine of_single (tag := 0b01) (low := biased 2 2 dr ++ biased 2 2 dg ++ biased 2 2 db) ?_ (by decide)
    fun h => absurd h (by decide)
  have : ∀ t a b c : BitVec 2, (t ++ a ++ b ++ c : BitVec 8) = (t ++ (a ++ b ++ c : BitVec 6) : BitVec 8) := by
    decide
  exact congrArg (fun b => [b]) (this _ _ _ _)

theorem luma (dg drg dbg : Int) : Statement (.luma dg drg dbg) := by
  intro _
  refine ⟨_, _, rfl, ?_⟩
  have : ∀ f : BitVec 6, chunkLength (0b10#2 ++ f : BitVec 8) = 2 := by decide
  simp [this]

theorem run (len : Nat) : Statement (.run len) := by
  by_cases h : 1 ≤ len ∧ len ≤ 62
  · refine of_single rfl (by decide) fun _ => ?_
    rw [BitVec.toNat_ofNat]
    omega
  · intro hw
    simp [Instr.wellFormed, h] at hw

end Sys2Proof.Laws.EncodedLength
end

