-- ==== Sys2Proof/Laws/Step.lean ====
section
/-! SUPPORT. The choice of the agent, runs, and what each step of ENC, DEC and the host can answer: one lemma for each
step function, that later proofs cite instead of unfolding it. -/

namespace Sys2Proof.Machine

open Sys2Proof.Safety

/-! ### The choice of the agent, and runs -/

theorem step_host {s : State} (h : nextAgent s = .host) : step s = hostStep (afterChoice s) := by
  simp [step, h, agentStep]

theorem step_enc {s : State} (h : nextAgent s = .enc) : step s = encStep (afterChoice s) := by
  simp [step, h, agentStep]

theorem step_dec {s : State} (h : nextAgent s = .dec) : step s = decStep (afterChoice s) := by
  simp [step, h, agentStep]

/-- The head of the schedule moves. -/
theorem nextAgent_cons {s : State} {a : Agent} {rest : List Agent} (h : s.schedule = a :: rest) :
    nextAgent s = a ∧ (afterChoice s).schedule = rest := by
  unfold nextAgent afterChoice
  rw [h]
  exact ⟨rfl, rfl⟩

/-- A run of one more step. -/
theorem core_run_next {s t : State} (h : step s = .next t) (k : Nat) : core.run (k + 1) s = core.run k t := by
  have h' : core.step s = .next t := h
  rw [Host.Core.run.eq_2 core s k, h']

/-! ### ENC -/

/-- VALIDATE of ENC ends in a raise, or all checks hold and the pass state is set (R205). -/
theorem encValidate_next {s t : State} (h : encValidate s = .next t) :
    (∃ lat e i0 i1, t = raise .enc e i0 i1 { s with enc := { s.enc with lat := lat } } ∧
      errorCode e ∈ [(1 : Byte), 2, 3, 4, 6, 9]) ∨
    (let r := s.enc.regs
     let n := r.width.toNat * r.height.toNat
     (r.channels = 3 ∨ r.channels = 4) ∧ (r.colorspace = 0 ∨ r.colorspace = 1) ∧ r.width ≠ 0 ∧ r.height ≠ 0 ∧
     n ≤ s.params.maxPixels.toNat ∧ r.inLen.toNat = n * r.channels.toNat ∧
     maxLen s.params.prevInit n r.channels.toNat ≤ r.outCap.toNat ∧
     t = { s with enc := { s.enc with
       lat := { w := r.width, hgt := r.height, ch := r.channels, cs := r.colorspace, n := BitVec.ofNat 64 n
                inLen := r.inLen, outCap := r.outCap }
       prev := s.params.prevInit, run := 0, k := 0, ipos := 0, opos := 0
       idx := cacheCleared, phase := .header } }) := by
  unfold encValidate at h
  simp only at h
  iterate 6
    split at h
    · cases h
      exact .inl ⟨_, _, _, _, rfl, by decide⟩
  cases h
  exact .inr ⟨by tauto, by tauto, by tauto, by tauto, by omega, by omega, by omega, rfl⟩

/-- HEADER of ENC (R210). -/
theorem encHeader_next {s t : State} (h : encHeader s = .next t) :
    ∃ bs, bs = headerBytes s.params.magic s.enc.lat.w s.enc.lat.hgt s.enc.lat.ch s.enc.lat.cs ∧
      s.enc.opos.toNat + bs.length ≤ s.enc.lat.outCap.toNat ∧
      t = { s with
        mem := s.mem.writeBytes (s.enc.outBase + s.enc.opos.toNat) bs
        enc := { s.enc with opos := s.enc.opos + BitVec.ofNat 64 bs.length, phase := .pixels } } := by
  unfold encHeader at h
  simp only at h
  split at h
  · cases h
  · rename_i u hu
    obtain ⟨fits, rfl⟩ := emit_eq_some.1 hu
    cases h
    exact ⟨_, rfl, fits, rfl⟩

/-- A PIXELS step of ENC writes `prev`, `run` and `idx` only, before it advances. -/
theorem encPixelEffect_frame (last : Bool) (p : Pixel) (x : UnitState) :
    (encPixelEffect last p x).2 = { x with
      run := (encPixelEffect last p x).2.run, idx := (encPixelEffect last p x).2.idx
      prev := (encPixelEffect last p x).2.prev } := by
  unfold encPixelEffect
  split
  · dsimp only
    split <;> rfl
  · rfl

/-- PIXELS of ENC (R211): the pixel read, the bytes emitted, and the unit after the step. -/
theorem encPixel_next {s t : State} (h : encPixel s = .next t) :
    ∃ bytes p effect,
      s.enc.k.toNat * s.enc.lat.ch.toNat + s.enc.lat.ch.toNat ≤ s.enc.lat.inLen.toNat ∧
      bytes = inBytes s.enc s.mem (s.enc.inBase + s.enc.k.toNat * s.enc.lat.ch.toNat) s.enc.lat.ch.toNat ∧
      pixelOfBytes bytes = some p ∧
      effect = encPixelEffect (decide (s.enc.k.toNat + 1 = s.enc.lat.n.toNat)) p s.enc ∧
      s.enc.opos.toNat + effect.1.length ≤ s.enc.lat.outCap.toNat ∧
      t = { s with
        mem := s.mem.writeBytes (s.enc.outBase + s.enc.opos.toNat) effect.1
        enc := { s.enc with
          prev := effect.2.prev, run := effect.2.run, idx := effect.2.idx
          opos := s.enc.opos + BitVec.ofNat 64 effect.1.length, k := s.enc.k + 1
          ipos := s.enc.ipos + s.enc.lat.ch.setWidth 64
          phase := if s.enc.k + 1 = s.enc.lat.n then .footer else s.enc.phase } } := by
  unfold encPixel at h
  simp only at h
  split at h
  · cases h
  rename_i bytes hb
  split at h
  · cases h
  rename_i p hp
  split at h
  · cases h
  rename_i u hu
  obtain ⟨room, hbytes⟩ := memRead_eq_some.1 hb
  have frame := encPixelEffect_frame (decide (s.enc.k.toNat + 1 = s.enc.lat.n.toNat)) p s.enc
  rw [frame] at hu
  obtain ⟨fits, rfl⟩ := emit_eq_some.1 hu
  cases h
  exact ⟨bytes, p, _, room, hbytes, hp, rfl, fits, rfl⟩

/-- FOOTER of ENC (R221). -/
theorem encFooter_next {s t : State} (h : encFooter s = .next t) :
    s.enc.opos.toNat + 8 ≤ s.enc.lat.outCap.toNat ∧
    t = settleOutput .enc (s.enc.opos + 8).toNat { s with
      mem := s.mem.writeBytes (s.enc.outBase + s.enc.opos.toNat) endMarker
      enc := completePass (s.enc.opos + 8) (BitVec.ofNat 64 (s.enc.lat.n.toNat * s.enc.lat.ch.toNat))
        { s.enc with opos := s.enc.opos + 8 } } := by
  unfold encFooter at h
  split at h
  · cases h
  · rename_i u hu
    obtain ⟨fits, rfl⟩ := emit_eq_some.1 hu
    cases h
    exact ⟨fits, rfl⟩

/-! ### DEC -/

/-- FOOTER of DEC (R262). -/
theorem decFooter_next {s t : State} (h : decFooter s = .next t) :
    t = raiseDecoding .invalidPadding s ∨
    (s.dec.ipos.toNat + 8 ≤ s.dec.lat.inLen.toNat ∧
     inBytes s.dec s.mem (s.dec.inBase + s.dec.ipos.toNat) 8 = endMarker ∧
     t = settleOutput .dec (BitVec.ofNat 64 (s.dec.lat.n.toNat * s.dec.lat.ch.toNat)).toNat { s with
       dec := completePass (BitVec.ofNat 64 (s.dec.lat.n.toNat * s.dec.lat.ch.toNat)) (s.dec.ipos + 8) s.dec }) := by
  unfold decFooter at h
  simp only at h
  split at h
  · cases h; exact .inl rfl
  split at h
  · cases h
  rename_i marker hm
  split at h
  · cases h; exact .inl rfl
  rename_i hz
  cases h
  obtain ⟨fits, rfl⟩ := memRead_eq_some.1 hm
  exact .inr ⟨fits, by simpa using hz, rfl⟩

/-! ### The host -/

/-- A register read is the ordering point of R83 when it is a read of STATUS that returns DONE or ERROR, and changes
nothing of the units otherwise. -/
theorem noteStatusRead_cases (u : UnitId) (reg : Nat) (s : State) :
    (reg = 1 ∧ ((s.unit u).phase = .done ∨ (s.unit u).phase = .error) ∧
      noteStatusRead u reg s = s.setUnit u { s.unit u with awaited := false, unseen := [] }) ∨
    (¬(reg = 1 ∧ ((s.unit u).phase = .done ∨ (s.unit u).phase = .error)) ∧ noteStatusRead u reg s = s) := by
  unfold noteStatusRead
  dsimp only
  split
  · rename_i h
    exact .inl ⟨h.1, h.2, rfl⟩
  · rename_i h
    exact .inr ⟨h, rfl⟩

/-- A register read writes nothing of the units but the notes of what the host has seen. -/
theorem hostReadReg_eq (u : UnitId) (reg : Nat) (s : State) : ∃ b1 b2 ws1 ws2 out d,
    hostReadReg u reg s = { s with
      enc := { s.enc with awaited := b1, unseen := ws1 }, dec := { s.dec with awaited := b2, unseen := ws2 }
      hostOut := out, draws := d } := by
  unfold hostReadReg noteStatusRead
  dsimp only
  split
  · exact ⟨_, _, _, _, _, _, rfl⟩
  split
  · cases u <;> exact ⟨_, _, _, _, _, _, rfl⟩
  · exact ⟨_, _, _, _, _, _, rfl⟩

/-- What the host's step can be when it answers a next state. -/
inductive HostMove (s t : State) : Prop
  | none : s.hostIn = [] → t = s → HostMove s t
  | readReg (u : UnitId) (reg : Nat) (rest : List HostAction) : s.hostIn = .readReg u reg :: rest →
      t = hostReadReg u reg { s with hostIn := rest } → HostMove s t
  | start (u : UnitId) (v : Word64) (rest : List HostAction) : s.hostIn = .writeReg u 0 v :: rest →
      v.getLsbD 0 = true → busy (s.unit u).phase = false → launchHazard u s = false →
      t = startPass u { s with hostIn := rest } → HostMove s t
  | ignored (u : UnitId) (reg : Nat) (v : Word64) (rest : List HostAction) : s.hostIn = .writeReg u reg v :: rest →
      t = { s with hostIn := rest } → HostMove s t
  | writeReg (u : UnitId) (reg : Nat) (v : Word64) (rest : List HostAction) : s.hostIn = .writeReg u reg v :: rest →
      reg ≠ 0 → busy (s.unit u).phase = false →
      t = ({ s with hostIn := rest } : State).setUnit u
        { s.unit u with regs := writtenRegs u reg v (s.unit u).regs } → HostMove s t
  | readMem (a : Nat) (rest : List HostAction) : s.hostIn = .readMem a :: rest →
      t = hostReadMem a { s with hostIn := rest } → HostMove s t
  | writeMem (a : Nat) (v : Byte) (rest : List HostAction) : s.hostIn = .writeMem a v :: rest →
      ((inputOfOpenPass s.enc a = false ∧ inputOfOpenPass s.dec a = false) ∧
        outputOfRunningPass s.enc a = false ∧ outputOfRunningPass s.dec a = false) →
      t = { s with hostIn := rest, mem := s.mem.write a v, contested := contestedAfterWrite a s } →
      HostMove s t
  | bind (u : UnitId) (a b : Nat) (rest : List HostAction) : s.hostIn = .bind u a b :: rest →
      passOpen (s.unit u) = false →
      t = ({ s with hostIn := rest } : State).setUnit u { s.unit u with inBase := a, outBase := b } → HostMove s t
  | reset (rest : List HostAction) : s.hostIn = .hardwareReset :: rest →
      t = hardwareReset { s with hostIn := rest } → HostMove s t

theorem unit_popped (s : State) (rest : List HostAction) (u : UnitId) :
    ({ s with hostIn := rest } : State).unit u = s.unit u := by cases u <;> rfl

theorem hostStep_next {s t : State} (h : hostStep s = .next t) : HostMove s t := by
  unfold hostStep at h
  split at h
  · rename_i e
    cases h
    exact .none e rfl
  rename_i a rest e
  unfold hostDo at h
  split at h
  · cases h
    exact .readReg _ _ _ e rfl
  · rename_i u reg v
    simp only [hostWriteReg, hostWriteCtrl, unit_popped] at h
    split at h
    · rename_i hr
      subst hr
      split at h
      · cases h
        exact .ignored _ _ _ _ e rfl
      rename_i hx
      split at h
      · cases h
      rename_i hz
      cases h
      simp only [not_or, Bool.not_eq_false, Bool.not_eq_true] at hx hz
      refine .start u v rest e hx.1 hx.2 ?_ rfl
      rw [← hz]
      simp only [launchHazard, unit_popped]
    split at h
    · cases h
      exact .ignored _ _ _ _ e rfl
    rename_i hr hb
    cases h
    exact .writeReg _ _ _ _ e hr (by simpa using hb) rfl
  · cases h
    exact .readMem _ _ e rfl
  · unfold hostWriteMem at h
    split at h
    · cases h
    split at h
    · cases h
    rename_i h1 h2
    cases h
    exact .writeMem _ _ _ e ⟨by simpa using h1, by simpa using h2⟩ rfl
  · simp only [hostBind, unit_popped] at h
    split at h
    · cases h
    rename_i hb
    cases h
    exact .bind _ _ _ _ e (by simpa using hb) rfl
  · cases h
    exact .reset _ e rfl

end Sys2Proof.Machine
end

