-- ==== Sys2Proof/Tests/Slice0.lean ====
section
/-! SUPPORT. The model's own tests, with expected values from spec/95_test_vectors.md and the worked examples of the
rules, and a witness for the hypotheses of every statement of Certificates/Slice0/Obligations.lean. -/

namespace Sys2Proof.Tests

open Sys2Proof.Machine Sys2Proof.Safety

/-! ### Small states -/

/-- The outcome is a next state with a property. -/
def nextIs (r : Result) (f : State → Bool) : Bool :=
  match r with
  | .next t => f t
  | .fault _ => false
  | .refused _ => false

/-- The next state, when there is one. -/
def nextOr (other : State) (r : Result) : State :=
  match r with
  | .next t => t
  | .fault _ => other
  | .refused _ => other

/-- DEC at the first pixel of a 2 x 1 image of 4 channels, with the chunk's bytes next in IN and DEC to move. -/
def loaded (prev : Pixel) (bytes : List Byte) : State :=
  placeChunk bytes { State.reset with dec := { State.reset.dec with prev := prev } }

/-- ENC in a pass over a 1 x 1 image of 4 channels, IN 4 bytes, OUT as small as VALIDATE lets through. -/
def encUnit (phase : Phase) : UnitState :=
  { UnitState.reset 0 (2 ^ 64) with
    phase := phase
    regs := { Regs.reset with width := 1, height := 1, channels := 4, inLen := 4, outCap := 27 }
    lat := { w := 1, hgt := 1, ch := 4, cs := 0, n := 1, inLen := 4, outCap := 27 } }

/-- DEC in a pass over a 1 x 1 image of 4 channels. -/
def decUnit (phase : Phase) : UnitState :=
  { UnitState.reset (2 * 2 ^ 64) (3 * 2 ^ 64) with
    phase := phase, ipos := 14
    regs := { Regs.reset with width := 1, height := 1, channels := 4, inLen := 27, outCap := 4 }
    lat := { w := 1, hgt := 1, ch := 4, cs := 0, n := 1, inLen := 27, outCap := 4 } }

/-- ENC to move. -/
def encState (x : UnitState) (mem : Memory) : State := { State.reset with enc := x, mem := mem, schedule := [.enc] }

/-- DEC to move. -/
def decState (x : UnitState) (mem : Memory) : State := { State.reset with dec := x, mem := mem, schedule := [.dec] }

/-- The host to move, with one action. -/
def hostState (enc dec : UnitState) (a : HostAction) : State :=
  { State.reset with enc := enc, dec := dec, hostIn := [a], schedule := [.host] }

/-- A header at an address, for DEC. -/
def headerAt (a : Nat) (magic w hgt : Word32) (ch cs : Byte) : Memory :=
  Memory.writeBytes [] a (headerBytes magic w hgt ch cs)

/-! ### Well-formed terms: one ill-formed term for each check of R108 -/

theorem test_wf_diff_dr : (Instr.diff (-3) 0 0).wellFormed = false ∧ (Instr.diff 2 0 0).wellFormed = false := by decide
theorem test_wf_diff_dg : (Instr.diff 0 (-3) 0).wellFormed = false ∧ (Instr.diff 0 2 0).wellFormed = false := by decide
theorem test_wf_diff_db : (Instr.diff 0 0 (-3)).wellFormed = false ∧ (Instr.diff 0 0 2).wellFormed = false := by decide
theorem test_wf_luma_dg : (Instr.luma (-33) 0 0).wellFormed = false ∧ (Instr.luma 32 0 0).wellFormed = false := by
  decide
theorem test_wf_luma_drg : (Instr.luma 0 (-9) 0).wellFormed = false ∧ (Instr.luma 0 8 0).wellFormed = false := by
  decide
theorem test_wf_luma_dbg : (Instr.luma 0 0 (-9)).wellFormed = false ∧ (Instr.luma 0 0 8).wellFormed = false := by
  decide
theorem test_wf_run_zero : (Instr.run 0).wellFormed = false := by decide
theorem test_wf_run_reserved : (Instr.run 63).wellFormed = false := by decide

/-! ### Decoding: words written out from the encodings of R103 to R107 -/

/-- INDEX: tag 00, slot 110101. -/
theorem test_decode_index : decode [0b00110101] = .ok (.index 53) [] := by decide
/-- DIFF: tag 01, fields 11, 00, 11. -/
theorem test_decode_diff : decode [0b01110011] = .ok (.diff 1 (-2) 1) [] := by decide
/-- DIFF: the smallest first byte of its range, fields 00, 00, 00. -/
theorem test_decode_diff_low : decode [0b01000000] = .ok (.diff (-2) (-2) (-2)) [] := by decide
/-- LUMA: tag 10, field 101000; fields 0011 and 1100. -/
theorem test_decode_luma : decode [0b10101000, 0b00111100, 7] = .ok (.luma 8 (-5) 4) [7] := by decide
/-- LUMA: all fields at their maximum. -/
theorem test_decode_luma_high : decode [0b10111111, 0b11111111] = .ok (.luma 31 7 7) [] := by decide
/-- RUN: tag 11, field 000100. -/
theorem test_decode_run : decode [0b11000100] = .ok (.run 5) [] := by decide
/-- RUN: the largest length, field 111101. -/
theorem test_decode_run_high : decode [0b11111101] = .ok (.run 62) [] := by decide
/-- RGB: the byte 11111110 and three channels. -/
theorem test_decode_rgb : decode [0b11111110, 10, 20, 30] = .ok (.rgb 10 20 30) [] := by decide
/-- RGBA: the byte 11111111 and four channels. -/
theorem test_decode_rgba : decode [0b11111111, 1, 2, 3, 4] = .ok (.rgba 1 2 3 4) [] := by decide
/-- Bytes that end inside a chunk, and no byte (R252). -/
theorem test_decode_short :
    decode [0xFE, 1, 2] = .truncated ∧ decode [0xFF, 1, 2, 3] = .truncated ∧ decode [0x80] = .truncated ∧
    decode [] = .noTagByte := by decide
/-- The bytes of L1.7: `LUMA -2,4,3` is 9E CB, `DIFF 1,-2,1` is 73, `RUN 14` is CD. -/
theorem test_encode : encode (.luma (-2) 4 3) = [0x9E, 0xCB] ∧ encode (.diff 1 (-2) 1) = [0x73] ∧
    encode (.run 14) = [0xCD] := by decide
/-- The header of L1.3: 200 x 1, 4 channels, colorspace 0. -/
theorem test_header : headerBytes 0x716F6966 200 1 4 0 =
    [0x71, 0x6F, 0x69, 0x66, 0, 0, 0, 0xC8, 0, 0, 0, 1, 4, 0] := by decide
/-- The listing of L1.7 (R114). -/
theorem test_listing : (Instr.diff 1 (-2) 1).listing = "DIFF 1,-2,1" ∧ (Instr.run 14).listing = "RUN 14" := by decide

/-! ### The pixel model -/

/-- The worked values of R136. -/
theorem test_hash : pixelHash ⟨0, 0, 0, 0⟩ = 0 ∧ pixelHash ⟨0, 0, 0, 255⟩ = 53 ∧ pixelHash ⟨255, 255, 255, 255⟩ = 38 ∧
    pixelHash ⟨1, 2, 3, 4⟩ = 14 ∧ pixelHash ⟨10, 20, 30, 255⟩ = 9 := by decide
/-- The steps that R137 names: 255 to 0 is +1, 0 to 255 is -1. -/
theorem test_signedDelta : signedDelta 0 255 = 1 ∧ signedDelta 255 0 = -1 := by decide
/-- L1.7: the second pixels after (100, 100, 100, 255). -/
theorem test_codedChunk :
    codedChunk ⟨100, 100, 100, 255⟩ ⟨101, 98, 101, 255⟩ = .diff 1 (-2) 1 ∧
    codedChunk ⟨100, 100, 100, 255⟩ ⟨102, 98, 101, 255⟩ = .luma (-2) 4 3 ∧
    codedChunk ⟨100, 100, 100, 255⟩ ⟨101, 98, 120, 255⟩ = .rgb 101 98 120 := by decide
/-- L2.4: wrapped deltas 16, 11, 6. -/
theorem test_codedChunk_wraps : codedChunk ⟨250, 250, 250, 255⟩ ⟨10, 5, 0, 255⟩ = .luma 11 5 (-5) := by decide

/-! ### One step of each instruction: the examples of R160 to R165 -/

/-- R164: FE 0A 14 1E from (0, 0, 0, 255) gives (10, 20, 30, 255) and writes slot 9. -/
theorem test_rgb : nextIs (step (loaded ⟨0, 0, 0, 255⟩ [0xFE, 10, 20, 30])) (fun t =>
    t.dec.prev == ⟨10, 20, 30, 255⟩ && cacheLookup t.dec.idx 9 == ⟨10, 20, 30, 255⟩ && t.dec.ipos == 18 &&
    t.mem.readBytes (3 * 2 ^ 64) 4 == [10, 20, 30, 255]) = true := by decide
/-- R165: FF 01 02 03 04 gives (1, 2, 3, 4) and writes slot 14. -/
theorem test_rgba : nextIs (step (loaded ⟨0, 0, 0, 255⟩ [0xFF, 1, 2, 3, 4])) (fun t =>
    t.dec.prev == ⟨1, 2, 3, 4⟩ && cacheLookup t.dec.idx 14 == ⟨1, 2, 3, 4⟩ && t.dec.ipos == 19 && t.dec.k == 1) =
    true := by decide
/-- R160: 35 with (0, 0, 0, 255) in slot 53 gives it. -/
theorem test_index : nextIs (exec (.index 53)
    (let s := loaded ⟨7, 7, 7, 7⟩ []
     { s with dec := { s.dec with idx := cacheWrite s.dec.idx ⟨0, 0, 0, 255⟩ } })) (fun t =>
    t.dec.prev == ⟨0, 0, 0, 255⟩ && t.dec.ipos == 15) = true := by decide
/-- R144, L2.2: with `P_DEC_UPDATE_ON_INDEX`, INDEX 5 of an unseen slot writes (0, 0, 0, 0) to slot 0. -/
theorem test_index_update : nextIs (exec (.index 5)
    (let s := loaded ⟨64, 0, 0, 0⟩ []
     { s with
       params := { s.params with decUpdateOnIndex := true }
       dec := { s.dec with idx := cacheWrite s.dec.idx ⟨64, 0, 0, 0⟩ } })) (fun t =>
    t.dec.prev == ⟨0, 0, 0, 0⟩ && cacheLookup t.dec.idx 0 == ⟨0, 0, 0, 0⟩) = true := by decide
/-- R161: 73 from (10, 20, 30, 255) gives (11, 18, 31, 255). -/
theorem test_diff : nextIs (step (loaded ⟨10, 20, 30, 255⟩ [0x73])) (fun t =>
    t.dec.prev == ⟨11, 18, 31, 255⟩ && t.dec.ipos == 15) = true := by decide
/-- L2.3: 40 from (0, 0, 0, 0) gives (254, 254, 254, 0) and writes slot 34. -/
theorem test_diff_wraps : nextIs (step (loaded ⟨0, 0, 0, 0⟩ [0x40])) (fun t =>
    t.dec.prev == ⟨254, 254, 254, 0⟩ && cacheLookup t.dec.idx 34 == ⟨254, 254, 254, 0⟩) = true := by decide
/-- R162: A8 3C from (100, 100, 100, 255) gives (103, 108, 112, 255). -/
theorem test_luma : nextIs (step (loaded ⟨100, 100, 100, 255⟩ [0xA8, 0x3C])) (fun t =>
    t.dec.prev == ⟨103, 108, 112, 255⟩ && t.dec.ipos == 16) = true := by decide
/-- L2.4: 80 00 from (0, 0, 0, 0) gives (216, 224, 216, 0). -/
theorem test_luma_wraps : nextIs (step (loaded ⟨0, 0, 0, 0⟩ [0x80, 0x00])) (fun t =>
    t.dec.prev == ⟨216, 224, 216, 0⟩) = true := by decide
/-- R163: C4 from (7, 7, 7, 255) gives it once and leaves 4 owed. -/
theorem test_run : nextIs (step (loaded ⟨7, 7, 7, 255⟩ [0xC4])) (fun t =>
    t.dec.run == 4 && t.dec.ipos == 15 && t.mem.readBytes (3 * 2 ^ 64) 4 == [7, 7, 7, 255]) = true := by decide
/-- R205, R286: CHANNELS 5 is reported before the width of 0 (L1.2). -/
theorem test_enc_channels : nextIs (step (encState
    { encUnit .validate with regs := { Regs.reset with channels := 5, height := 1 } } [])) (fun t =>
    t.enc.phase == .error && t.enc.regs.errCode == 1 && t.enc.regs.errInfo0 == 5 && t.enc.regs.errInfo1 == 0) =
    true := by decide

/-- R84: a pass started over what the other unit wrote unseen: the host's later write is ordered with its reads (byte
9), and with none of its writes. -/
theorem test_start_order : nextIs (step { hostState { encUnit .done with unseen := [(8, 11)] } (decUnit .done)
    (.writeReg .dec 0 1) with contested := [(9, 10)] }) (fun t => covered t.dec.unorderedOut 9 &&
    covered t.dec.unorderedIn 8 && !covered t.dec.unorderedIn 9 && covered t.dec.unorderedIn 10) = true := by decide

/-- R84, R88: a DEC pass that ends in ERROR after one pixel takes the 4 bytes it wrote out of `contested`, and no other
byte. -/
theorem test_raise_contested :
    let s := loaded Pixel.clear [0xFE]
    let o := s.dec.outBase
    nextIs (step { s with
      contested := [(o, o + 6)], dec := { s.dec with k := 1, lat := { s.dec.lat with inLen := 15 } } })
      (fun t => t.dec.phase == .error && covered t.dec.unseen (o + 3) && !covered t.contested o &&
        !covered t.contested (o + 3) && covered t.contested (o + 4)) = true := by decide

/-! ### Sound states -/

theorem quiet_regs (raised : List Byte) (a b : Nat) : RegsSound raised (UnitState.reset a b) :=
  ⟨fun _ => ⟨rfl, rfl, rfl⟩, (fun h => by cases h), fun _ => ⟨rfl, rfl⟩⟩

theorem cleared_sound : CacheSound (Vector.replicate 64 Pixel.clear) := fun h => .inl (cacheLookup_cacheCleared h)

/-- ENC at rest. -/
theorem reset_enc_sound : EncSound Params.default State.reset.enc :=
  ⟨quiet_regs _ _ _, (fun h => by cases h), (fun h => by cases h), (fun h => by cases h), (fun h => by cases h),
    (fun h => by cases h), (fun h => by cases h), (fun h => by cases h)⟩

/-- DEC at rest. -/
theorem reset_dec_sound : DecSound Params.default State.reset.dec :=
  ⟨quiet_regs _ _ _, (fun h => by cases h), (fun h => by cases h), (fun h => by cases h), (fun h => by cases h),
    (fun h => by cases h), (fun h => by cases h), (fun h => by cases h), (fun h => by cases h),
    (fun h => by cases h)⟩

theorem encUnit_regs {phase : Phase} (h : phase ≠ .error) (raised : List Byte) : RegsSound raised (encUnit phase) :=
  ⟨fun _ => ⟨rfl, rfl, rfl⟩, fun e => absurd e h, fun _ => ⟨rfl, rfl⟩⟩

theorem decUnit_regs {phase : Phase} (h : phase ≠ .error) (raised : List Byte) : RegsSound raised (decUnit phase) :=
  ⟨fun _ => ⟨rfl, rfl, rfl⟩, fun e => absurd e h, fun _ => ⟨rfl, rfl⟩⟩

/-- ENC just after START. -/
theorem enc_validate_sound : EncSound Params.default (encUnit .validate) :=
  ⟨encUnit_regs (by decide) _, (fun h => by cases h), (fun h => by cases h), (fun h => by cases h),
    (fun h => by cases h), (fun h => by cases h), (fun h => by cases h), (fun h => by cases h)⟩

/-- ENC before its HEADER step. -/
theorem enc_header_sound : EncSound Params.default (encUnit .header) :=
  ⟨encUnit_regs (by decide) _, fun _ => ⟨⟨by decide, by decide, by decide, by decide, by decide, by decide⟩,
      by decide, by decide⟩, fun _ => ⟨rfl, rfl, rfl, rfl, rfl, rfl⟩, fun _ => by decide,
    fun _ => ⟨rfl, rfl, rfl, rfl, rfl⟩, (fun h => by cases h), (fun h => by cases h), fun _ => cleared_sound⟩

/-- DEC at its first pixel. -/
theorem dec_pixels_sound : DecSound Params.default (decUnit .pixels) :=
  ⟨decUnit_regs (by decide) _, by decide, fun _ => ⟨⟨by decide, by decide, by decide, by decide, by decide, by decide⟩,
      by decide⟩, fun _ => ⟨rfl, rfl, rfl, rfl, rfl, rfl⟩, fun _ => by decide, fun _ => by decide, fun _ => by decide,
    fun _ => by decide, (fun h => by cases h), fun _ => cleared_sound⟩

/-- DEC just after START. -/
theorem dec_validate_sound : DecSound Params.default (decUnit .validate) :=
  ⟨decUnit_regs (by decide) _, by decide, (fun h => by cases h), (fun h => by cases h), (fun h => by cases h),
    (fun h => by cases h), (fun h => by cases h), (fun h => by cases h), (fun h => by cases h),
    (fun h => by cases h)⟩

theorem validate_state_sound : Sound { encState (encUnit .validate) [] with schedule := List.replicate 4 .enc } :=
  ⟨rfl, enc_validate_sound, reset_dec_sound, ⟨fun _ => by decide, (fun h => by cases h), (fun _ h => by cases h)⟩⟩

/-- The pixel (10, 20, 30, 255) in IN of ENC. -/
def onePixel : Memory := Memory.writeBytes [] 0 [10, 20, 30, 255]

theorem header_state_sound : Sound { encState (encUnit .header) onePixel with schedule := List.replicate 3 .enc } :=
  ⟨by decide, enc_header_sound, reset_dec_sound,
    ⟨fun _ => by decide, (fun h => by cases h), (fun _ h => by cases h)⟩⟩

theorem dec_state_sound : Sound { decState (decUnit .pixels) [] with schedule := List.replicate 2 .dec } :=
  ⟨rfl, reset_enc_sound, dec_pixels_sound, ⟨(fun h => by cases h), fun _ => by decide, (fun h => by cases h)⟩⟩

/-- ENC before HEADER, with one pixel in IN. -/
def imageState : State := { encState (encUnit .header) onePixel with schedule := List.replicate 3 .enc }

/-! ### Witnesses: the stream format -/

/-- DecodeOfEncode: every kind, at the ends of its ranges. -/
theorem witness_DecodeOfEncode : (Instr.diff (-2) 1 (-2)).wellFormed = true ∧ (Instr.luma (-32) 7 (-8)).wellFormed = true ∧
    (Instr.luma 31 (-8) 7).wellFormed = true ∧ (Instr.run 1).wellFormed = true ∧ (Instr.run 62).wellFormed = true ∧
    (Instr.rgb 0 255 0).wellFormed = true ∧ (Instr.rgba 0 255 0 255).wellFormed = true ∧
    (Instr.index 63).wellFormed = true := by decide

/-- DecodedIsEncodingOfWellFormed. -/
theorem witness_DecodedIsEncodingOfWellFormed : decode [0xFD, 1] = .ok (.run 62) [1] := by decide

/-- DecodeRejectsOnlyShortBytes: both sides of each length. -/
theorem witness_DecodeRejectsOnlyShortBytes : decode [0xFE, 1, 2] = .truncated ∧ decode [0xFE, 1, 2, 3] ≠ .truncated ∧
    decode [0xFF, 1, 2, 3] = .truncated ∧ decode [0xFF, 1, 2, 3, 4] ≠ .truncated ∧ decode [0xBF] = .truncated ∧
    decode [0xC0] ≠ .truncated ∧ decode [0x7F] ≠ .truncated := by decide

/-! ### Witnesses: the chunks -/

theorem loaded_room (prev : Pixel) (bytes : List Byte) : PixelRoom (loaded prev bytes) :=
  ⟨.inr rfl, by simp [loaded, placeChunk, loadedUnit]⟩

/-- RgbTakesPreviousAlpha. -/
theorem witness_RgbTakesPreviousAlpha (prev : Pixel) (bytes : List Byte) : PixelRoom (loaded prev bytes) ∧
    (loaded prev bytes).dec.ipos.toNat + 4 ≤ (loaded prev bytes).dec.lat.inLen.toNat :=
  ⟨loaded_room _ _, by simp [loaded, placeChunk, loadedUnit]⟩

/-- RgbaTakesAllChannels: exactly 5 bytes left. -/
theorem witness_RgbaTakesAllChannels :
    let s := loaded Pixel.clear []
    let t := { s with dec := { s.dec with ipos := 22 } }
    PixelRoom t ∧ t.dec.ipos.toNat + 5 ≤ t.dec.lat.inLen.toNat := ⟨loaded_room Pixel.clear [], by decide⟩

/-- IndexTakesCachedPixel: both values of `P_DEC_UPDATE_ON_INDEX`. -/
theorem witness_IndexTakesCachedPixel (b : Bool) :
    let s := loaded Pixel.clear []
    let t := { s with params := { s.params with decUpdateOnIndex := b } }
    PixelRoom t ∧ t.params.decUpdateOnIndex = b := ⟨loaded_room Pixel.clear [], rfl⟩

/-- DiffAddsDeltas. -/
theorem witness_DiffAddsDeltas : PixelRoom (loaded Pixel.clear [0x40]) := loaded_room _ _

/-- LumaAddsGreenAndRelativeDeltas: exactly 2 bytes left. -/
theorem witness_LumaAddsGreenAndRelativeDeltas :
    let s := loaded Pixel.clear []
    let t := { s with dec := { s.dec with ipos := 25 } }
    PixelRoom t ∧ t.dec.ipos.toNat + 2 ≤ t.dec.lat.inLen.toNat := ⟨loaded_room Pixel.clear [], by decide⟩

/-- RunOwesTheRest: the shortest and the longest run. -/
theorem witness_RunOwesTheRest : (1 ≤ 1 ∧ 1 ≤ 62) ∧ (1 ≤ 62 ∧ 62 ≤ 62) ∧ PixelRoom (loaded Pixel.clear [0xFD]) :=
  ⟨by decide, by decide, loaded_room _ _⟩

/-- ChunkPastEndRaises: one byte too few for each long chunk. -/
theorem witness_ChunkPastEndRaises :
    let at_ (p : Word64) : State :=
      let s := loaded Pixel.clear []
      { s with dec := { s.dec with ipos := p } }
    (2 ≤ (encode (.luma 0 0 0)).length ∧ (at_ 26).dec.lat.inLen.toNat < (at_ 26).dec.ipos.toNat + (encode (.luma 0 0 0)).length) ∧
    (2 ≤ (encode (.rgb 0 0 0)).length ∧ (at_ 24).dec.lat.inLen.toNat < (at_ 24).dec.ipos.toNat + (encode (.rgb 0 0 0)).length) ∧
    (2 ≤ (encode (.rgba 0 0 0 0)).length ∧
      (at_ 23).dec.lat.inLen.toNat < (at_ 23).dec.ipos.toNat + (encode (.rgba 0 0 0 0)).length) := by decide

/-- ChunkTouchesOnlyDecAndItsOutput: a chunk that completes, and one that raises. -/
theorem witness_ChunkTouchesOnlyDecAndItsOutput :
    nextIs (exec (.diff 1 1 1) (loaded Pixel.clear [])) (fun _ => true) = true ∧
    nextIs (exec (.rgb 1 1 1) (let s := loaded Pixel.clear []; { s with dec := { s.dec with ipos := 24 } }))
      (fun t => t.dec.phase == .error) = true := by decide

/-! ### Witnesses: DEC's steps -/

/-- StepRunsTheDecodedChunk. -/
theorem witness_StepRunsTheDecodedChunk :
    let s := loaded Pixel.clear [0xFE, 1, 2, 3]
    nextAgent s = .dec ∧ s.dec.phase = .pixels ∧ s.dec.run = 0 ∧ decode (chunkWindow s) = .ok (.rgb 1 2 3) [0] := by
  decide

/-- StepRunsTheChunkInTheStream: the chunk's last byte is the last of IN. -/
theorem witness_StepRunsTheChunkInTheStream :
    let s := loaded Pixel.clear [0xA8, 0x3C]
    let t := { s with dec := { s.dec with lat := { s.dec.lat with inLen := 16 } } }
    nextAgent t = .dec ∧ t.dec.phase = .pixels ∧ t.dec.run = 0 ∧ (Instr.luma 8 (-5) 4).wellFormed = true ∧
    t.dec.ipos.toNat + (encode (.luma 8 (-5) 4)).length ≤ t.dec.lat.inLen.toNat ∧
    inBytes t.dec t.mem (t.dec.inBase + t.dec.ipos.toNat) (encode (.luma 8 (-5) 4)).length = encode (.luma 8 (-5) 4) := by
  decide

/-- StreamEndRaises: no byte left, and 4 of the 5 bytes of an RGBA. -/
theorem witness_StreamEndRaises :
    let ending (n : Word64) : State :=
      let s := loaded Pixel.clear [0xFF]
      { s with dec := { s.dec with lat := { s.dec.lat with inLen := n } } }
    (nextAgent (ending 14) = .dec ∧ (ending 14).dec.phase = .pixels ∧ (ending 14).dec.run = 0 ∧
      (ending 14).dec.lat.inLen.toNat < (ending 14).dec.ipos.toNat + 1) ∧
    (nextAgent (ending 18) = .dec ∧ (ending 18).dec.phase = .pixels ∧ (ending 18).dec.run = 0 ∧
      (ending 18).dec.lat.inLen.toNat < (ending 18).dec.ipos.toNat +
        chunkLength (inByte (ending 18).dec (ending 18).mem
          ((ending 18).dec.inBase + (ending 18).dec.ipos.toNat))) := by decide

/-- ActiveRunRepeatsThePixel: one repetition owed. -/
theorem witness_ActiveRunRepeatsThePixel :
    let s := loaded Pixel.clear []
    let t := { s with dec := { s.dec with run := 1 } }
    nextAgent t = .dec ∧ t.dec.phase = .pixels ∧ t.dec.run ≠ 0 ∧ PixelRoom t :=
  ⟨rfl, rfl, by decide, loaded_room Pixel.clear []⟩

/-- DecShortInputRaises: 21 bytes. -/
theorem witness_DecShortInputRaises :
    let s := decState { decUnit .validate with regs := { Regs.reset with inLen := 21 } } []
    nextAgent s = .dec ∧ s.dec.phase = .validate ∧ s.dec.regs.inLen.toNat < 22 := by decide

/-- A DEC at VALIDATE with 22 bytes, a header of 2 x 1 pixels, a maximum of 2 pixels and OUT of `cap` bytes. -/
def headerState (magic w hgt : Word32) (ch cs : Byte) (cap : Word64) : State :=
  { decState { decUnit .validate with regs := { Regs.reset with inLen := 22, outCap := cap } }
      (headerAt (2 * 2 ^ 64) magic w hgt ch cs) with
    params := { Params.default with maxPixels := 2 } }

/-- The premises that all clauses of DecHeaderChecksInOrder share. -/
theorem headerState_reads (magic w hgt : Word32) (ch cs : Byte) (cap : Word64) :
    let s := headerState magic w hgt ch cs cap
    nextAgent s = .dec ∧ s.dec.phase = .validate ∧ 22 ≤ s.dec.regs.inLen.toNat ∧
    inBytes s.dec s.mem s.dec.inBase 14 = headerBytes magic w hgt ch cs :=
  ⟨rfl, rfl, by simp [headerState, decState], (inBytes_ordered _ fun _ _ _ => rfl).trans
    (Memory.readBytes_writeBytes [] _ (headerBytes magic w hgt ch cs))⟩

/-- DecHeaderChecksInOrder: the further premises of each clause, each at a value next to the clauses before and after
it (those that all clauses share are `headerState_reads`). -/
theorem witness_DecHeaderChecksInOrder :
    let magic : Word32 := 0x716F6966
    let s := headerState magic 2 1 4 1 8
    0x716F6967#32 ≠ s.params.magic ∧
    (magic = s.params.magic ∧ 5#8 ≠ 3 ∧ 5#8 ≠ 4) ∧
    (magic = s.params.magic ∧ (3#8 = 3 ∨ 3#8 = 4) ∧ 2#8 ≠ 0 ∧ 2#8 ≠ 1) ∧
    (magic = s.params.magic ∧ (4#8 = 3 ∨ 4#8 = 4) ∧ (1#8 = 0 ∨ 1#8 = 1) ∧ (0#32 = 0 ∨ 1#32 = 0) ∧
      (1#32 = 0 ∨ 0#32 = 0)) ∧
    (magic = s.params.magic ∧ (4#8 = 3 ∨ 4#8 = 4) ∧ (1#8 = 0 ∨ 1#8 = 1) ∧ 3#32 ≠ 0 ∧ 1#32 ≠ 0 ∧
      s.params.maxPixels.toNat < (3#32).toNat * (1#32).toNat) ∧
    (let s := headerState magic 2 1 4 1 7
     magic = s.params.magic ∧ (4#8 = 3 ∨ 4#8 = 4) ∧ (1#8 = 0 ∨ 1#8 = 1) ∧ 2#32 ≠ 0 ∧ 1#32 ≠ 0 ∧
      (2#32).toNat * (1#32).toNat ≤ s.params.maxPixels.toNat ∧
      s.dec.regs.outCap.toNat < (2#32).toNat * (1#32).toNat * (4#8).toNat) := by decide

/-- DecValidateStartsPixels: the largest image and the smallest OUT that pass. -/
theorem witness_DecValidateStartsPixels :
    let s := headerState 0x716F6966 2 1 4 1 8
    s.params.magic = 0x716F6966 ∧ (4#8 = 3 ∨ 4#8 = 4) ∧ (1#8 = 0 ∨ 1#8 = 1) ∧ 2#32 ≠ 0 ∧ 1#32 ≠ 0 ∧
    (2#32).toNat * (1#32).toNat ≤ s.params.maxPixels.toNat ∧
    (2#32).toNat * (1#32).toNat * (4#8).toNat ≤ s.dec.regs.outCap.toNat := by decide

/-- DecFooterChecksEndMarker: 7 bytes left; 8 that are no marker; the marker; bytes outside OUT and one in an order. -/
theorem witness_DecFooterChecksEndMarker :
    let footer (p : Word64) (bytes : List Byte) : State :=
      decState { decUnit .footer with k := 1, ipos := p } (Memory.writeBytes [] (2 * 2 ^ 64 + 19) bytes)
    (nextAgent (footer 20 []) = .dec ∧ (footer 20 []).dec.phase = .footer ∧
      (footer 20 []).dec.lat.inLen.toNat < (footer 20 []).dec.ipos.toNat + 8) ∧
    ((footer 19 [1]).dec.ipos.toNat + 8 ≤ (footer 19 [1]).dec.lat.inLen.toNat ∧
      inBytes (footer 19 [1]).dec (footer 19 [1]).mem ((footer 19 [1]).dec.inBase + (footer 19 [1]).dec.ipos.toNat) 8 ≠
        [0, 0, 0, 0, 0, 0, 0, 1]) ∧
    ((footer 19 endMarker).dec.ipos.toNat + 8 ≤ (footer 19 endMarker).dec.lat.inLen.toNat ∧
      inBytes (footer 19 endMarker).dec (footer 19 endMarker).mem
        ((footer 19 endMarker).dec.inBase + (footer 19 endMarker).dec.ipos.toNat) 8 = [0, 0, 0, 0, 0, 0, 0, 1] ∧
      (3 * 2 ^ 64 - 1 < (footer 19 endMarker).dec.outBase ∧
        (footer 19 endMarker).dec.outBase +
          (footer 19 endMarker).dec.lat.n.toNat * (footer 19 endMarker).dec.lat.ch.toNat ≤ 3 * 2 ^ 64 + 4 ∧
        covered (footer 19 endMarker).dec.unorderedOut (3 * 2 ^ 64) = false)) := by decide

/-! ### Witnesses: ENC's steps -/

/-- ENC at VALIDATE with the registers given, a maximum of 2 pixels. -/
def validateState (r : Regs) : State :=
  { encState { encUnit .validate with regs := r } [] with params := { Params.default with maxPixels := 2 } }

/-- The registers of a 2 x 1 image of 4 channels that passes every check exactly. -/
def fittingRegs : Regs :=
  { Regs.reset with width := 2, height := 1, channels := 4, colorspace := 1, inLen := 8, outCap := 32 }

/-- Channels, colorspace and size are in order. -/
def sizeOk (r : Regs) : Bool :=
  (r.channels == 3 || r.channels == 4) && (r.colorspace == 0 || r.colorspace == 1) && r.width != 0 && r.height != 0

/-- EncChecksInOrder: the premises of each clause, one register changed at a time. -/
theorem witness_EncChecksInOrder :
    let n (r : Regs) : Nat := r.width.toNat * r.height.toNat
    (nextAgent (validateState fittingRegs) = .enc ∧ (validateState fittingRegs).enc.phase = .validate) ∧
    (let r := { fittingRegs with channels := 2 }; r.channels ≠ 3 ∧ r.channels ≠ 4) ∧
    (let r := { fittingRegs with colorspace := 2 }
     (r.channels = 3 ∨ r.channels = 4) ∧ r.colorspace ≠ 0 ∧ r.colorspace ≠ 1) ∧
    (let r := { fittingRegs with width := 0 }
     (r.channels = 3 ∨ r.channels = 4) ∧ (r.colorspace = 0 ∨ r.colorspace = 1) ∧ (r.width = 0 ∨ r.height = 0)) ∧
    (let r := { fittingRegs with width := 3 }
     sizeOk r = true ∧ (validateState r).params.maxPixels.toNat < n r) ∧
    (let r := { fittingRegs with inLen := 9 }
     sizeOk r = true ∧ n r ≤ (validateState r).params.maxPixels.toNat ∧ r.inLen.toNat ≠ n r * r.channels.toNat) ∧
    (let r := { fittingRegs with outCap := 31 }
     sizeOk r = true ∧ n r ≤ (validateState r).params.maxPixels.toNat ∧ r.inLen.toNat = n r * r.channels.toNat ∧
     r.outCap.toNat < 22 + n r * (r.channels.toNat + 1) +
       (if r.channels = 3 ∧ (validateState r).params.prevInit.a ≠ 255 then 1 else 0)) := by decide

/-- EncValidateStartsHeader: the smallest OUT that passes, and the extra byte of R202 for 3 channels. -/
theorem witness_EncValidateStartsHeader :
    let fits (r : Regs) : Prop :=
      (r.channels = 3 ∨ r.channels = 4) ∧ (r.colorspace = 0 ∨ r.colorspace = 1) ∧ r.width ≠ 0 ∧ r.height ≠ 0 ∧
      r.width.toNat * r.height.toNat ≤ (validateState r).params.maxPixels.toNat ∧
      r.inLen.toNat = r.width.toNat * r.height.toNat * r.channels.toNat ∧
      22 + r.width.toNat * r.height.toNat * (r.channels.toNat + 1) +
        (if r.channels = 3 ∧ (validateState r).params.prevInit.a ≠ 255 then 1 else 0) ≤ r.outCap.toNat
    fits fittingRegs ∧ fits { fittingRegs with channels := 3, inLen := 6, outCap := 31 } := by decide

/-- EncHeaderWritesFourteenBytes: an OUT of 14 bytes. -/
theorem witness_EncHeaderWritesFourteenBytes :
    let x := encUnit .header
    let s := encState { x with lat := { x.lat with outCap := 14 } } []
    nextAgent s = .enc ∧ s.enc.phase = .header ∧ s.enc.opos = 0 ∧ 14 ≤ s.enc.lat.outCap.toNat := by decide

/-- ENC before pixel 0 of a 2 x 1 image, with a run owed. -/
def pixelState (run : BitVec 6) (prev : Pixel) (k : Word64) : State :=
  let x := encUnit .pixels
  encState { x with
    run := run, prev := prev, k := k, opos := 14
    lat := { x.lat with w := 2, n := 2, inLen := 8, outCap := 32 } }
    (Memory.writeBytes [] 0 [10, 20, 30, 255, 10, 20, 30, 255])

/-- EncRepetitionGrowsOrFlushesRun: the count reaches 62; the image ends; neither. -/
theorem witness_EncRepetitionGrowsOrFlushesRun :
    let meets (s : State) : Prop := nextAgent s = .enc ∧ s.enc.phase = .pixels ∧
      memRead .enc s (s.enc.k.toNat * s.enc.lat.ch.toNat) s.enc.lat.ch.toNat = some [10, 20, 30, 255] ∧
      pixelOfBytes [10, 20, 30, 255] = some s.enc.prev ∧ s.enc.run.toNat ≤ 61 ∧
      s.enc.opos.toNat + 1 ≤ s.enc.lat.outCap.toNat
    let full := pixelState 61 ⟨10, 20, 30, 255⟩ 0
    let last := pixelState 3 ⟨10, 20, 30, 255⟩ 1
    let mid := pixelState 60 ⟨10, 20, 30, 255⟩ 0
    (meets full ∧ full.enc.run.toNat + 1 = 62) ∧ (meets last ∧ last.enc.k.toNat + 1 = last.enc.lat.n.toNat) ∧
    (meets mid ∧ mid.enc.run.toNat + 1 ≠ 62 ∧ mid.enc.k.toNat + 1 ≠ mid.enc.lat.n.toNat) := by
  simp only [memRead_eq_some]
  decide

/-- EncBreakFlushesThenEmitsChunk: no run owed, and the longest one. -/
theorem witness_EncBreakFlushesThenEmitsChunk :
    let meets (s : State) (flush : List Byte) : Prop := nextAgent s = .enc ∧ s.enc.phase = .pixels ∧
      memRead .enc s (s.enc.k.toNat * s.enc.lat.ch.toNat) s.enc.lat.ch.toNat = some [10, 20, 30, 255] ∧
      pixelOfBytes [10, 20, 30, 255] = some ⟨10, 20, 30, 255⟩ ∧ (⟨10, 20, 30, 255⟩ : Pixel) ≠ s.enc.prev ∧
      s.enc.run.toNat ≤ 61 ∧
      flush = (if s.enc.run = 0 then [] else [0xC0#8 ||| BitVec.ofNat 8 (s.enc.run.toNat - 1)]) ∧
      s.enc.opos.toNat + flush.length + (encode (chunkFor s.enc.prev s.enc.idx ⟨10, 20, 30, 255⟩)).length ≤
        s.enc.lat.outCap.toNat
    meets (pixelState 0 Pixel.clear 0) [] ∧ meets (pixelState 61 ⟨9, 20, 30, 255⟩ 1) [0xFC] := by
  simp only [memRead_eq_some]
  decide

/-- EncSelectionOrder: a pixel for each clause after `prev` = (0, 0, 0, 0), the deltas at the ends of their ranges. -/
theorem witness_EncSelectionOrder :
    let miss (p : Pixel) : Prop := cacheLookup cacheCleared (pixelHash p) ≠ p
    let deltas (p : Pixel) : Int × Int × Int := (signedDelta p.r 0, signedDelta p.g 0, signedDelta p.b 0)
    cacheLookup cacheCleared (pixelHash Pixel.clear) = Pixel.clear ∧
    (miss ⟨1, 1, 1, 255⟩ ∧ (⟨1, 1, 1, 255⟩ : Pixel).a ≠ Pixel.clear.a) ∧
    (miss ⟨1, 254, 1, 0⟩ ∧ (⟨1, 254, 1, 0⟩ : Pixel).a = Pixel.clear.a ∧ deltas ⟨1, 254, 1, 0⟩ = (1, -2, 1)) ∧
    (miss ⟨38, 31, 23, 0⟩ ∧ (⟨38, 31, 23, 0⟩ : Pixel).a = Pixel.clear.a ∧ deltas ⟨38, 31, 23, 0⟩ = (38, 31, 23)) ∧
    (miss ⟨32, 32, 32, 0⟩ ∧ (⟨32, 32, 32, 0⟩ : Pixel).a = Pixel.clear.a ∧ deltas ⟨32, 32, 32, 0⟩ = (32, 32, 32)) := by
  decide

/-- EncChunkIsWellFormedAndNoIdleDiff. -/
theorem witness_EncChunkIsWellFormedAndNoIdleDiff : (⟨0, 0, 0, 1⟩ : Pixel) ≠ Pixel.clear := by decide

/-- DecodedChunkRestoresPixelAndState: an INDEX hit and an RGBA. -/
theorem witness_DecodedChunkRestoresPixelAndState (p : Pixel) (hp : p ≠ ⟨7, 7, 7, 7⟩) :
    let s := loaded ⟨7, 7, 7, 7⟩ []
    p ≠ s.dec.prev ∧ PixelRoom s ∧
    s.dec.ipos.toNat + (encode (chunkFor s.dec.prev s.dec.idx Pixel.clear)).length ≤ s.dec.lat.inLen.toNat ∧
    s.dec.ipos.toNat + (encode (chunkFor s.dec.prev s.dec.idx ⟨1, 2, 3, 4⟩)).length ≤ s.dec.lat.inLen.toNat :=
  ⟨hp, loaded_room _ _, by decide, by decide⟩

/-- EncFooterAppendsEndMarker: exactly 8 bytes left in OUT; DEC's writes that are in no order reach up to them. -/
theorem witness_EncFooterAppendsEndMarker :
    let s := encState { encUnit .footer with k := 1, opos := 19, unorderedOut := [(0, 2 ^ 64 + 19)] } []
    nextAgent s = .enc ∧ s.enc.phase = .footer ∧ s.enc.opos.toNat + 8 ≤ s.enc.lat.outCap.toNat ∧
    covered s.enc.unorderedOut (s.enc.outBase + s.enc.opos.toNat + 0) = false ∧
    covered s.enc.unorderedOut (s.enc.outBase + s.enc.opos.toNat - 1) = true ∧
    (2 ^ 64 - 1 < s.enc.outBase ∧ s.enc.outBase + s.enc.opos.toNat + 8 ≤ 2 ^ 64 + 27) := by decide

/-! ### Witnesses: errors and phases -/

/-- EncErrorWritesNoByte. -/
theorem witness_EncErrorWritesNoByte :
    nextIs (encStep (validateState { fittingRegs with outCap := 31 })) (fun t => t.enc.phase == .error) = true := by
  decide

/-- PhasesFollowThePassOrder, ParametersNeverChange: a step of each agent, the end of a BUSY pass by hardware reset among
them. -/
theorem witness_PhasesFollowThePassOrder :
    nextIs (step (validateState fittingRegs)) (fun t => t.enc.phase == .header) = true ∧
    nextIs (step (headerState 0x716F6966 2 1 4 1 8)) (fun t => t.dec.phase == .pixels) = true ∧
    nextIs (step (hostState State.reset.enc State.reset.dec (.writeReg .enc 0 1))) (fun t => t.enc.phase == .validate) =
      true ∧
    nextIs (step (hostState (encUnit .validate) (decUnit .footer) .hardwareReset))
      (fun t => t.enc.phase == .idle && t.dec.phase == .idle) = true := by decide

/-- QuiescentUnitLeftOnlyByHost: a START from DONE, and a hardware reset from ERROR. -/
theorem witness_QuiescentUnitLeftOnlyByHost :
    nextIs (step (hostState (encUnit .done) State.reset.dec (.writeReg .enc 0 1)))
      (fun t => t.enc.phase != (encUnit .done).phase) = true ∧
    nextIs (step (hostState State.reset.enc (decUnit .error) .hardwareReset))
      (fun t => t.dec.phase != (decUnit .error).phase) = true := by decide

/-! ### Witnesses: the host -/

/-- StartBeginsPass: ENC from DONE, its IN and OUT and DEC's running IN and OUT one after the other; DEC with ENC at
rest. -/
theorem witness_StartBeginsPass :
    let x := { encUnit .done with outBase := 4 }
    let y := { decUnit .pixels with inBase := 31, outBase := 58 }
    let s := hostState x y (.writeReg .enc 0 1)
    let d := decUnit .error
    (nextAgent s = .host ∧ s.hostIn = [.writeReg .enc 0 1] ∧ (1#64).getLsbD 0 = true ∧ x = s.unit .enc ∧
      y = s.unit (otherUnit .enc) ∧ busy x.phase = false ∧
      (∀ a, (x.inBase ≤ a ∧ a < x.inBase + x.regs.inLen.toNat) →
        ¬(x.outBase ≤ a ∧ a < x.outBase + x.regs.outCap.toNat)) ∧
      busy y.phase = true ∧
      ∀ a, ((x.outBase ≤ a ∧ a < x.outBase + x.regs.outCap.toNat) → inInput y a = false ∧ inOutput y a = false) ∧
        ((x.inBase ≤ a ∧ a < x.inBase + x.regs.inLen.toNat) → inOutput y a = false)) ∧
    (busy d.phase = false ∧ busy (encUnit .done).phase = false ∧
      ∀ a, (d.inBase ≤ a ∧ a < d.inBase + d.regs.inLen.toNat) →
        ¬(d.outBase ≤ a ∧ a < d.outBase + d.regs.outCap.toNat)) := by
  refine ⟨⟨rfl, rfl, rfl, rfl, rfl, rfl, ?_, rfl, fun a => ⟨?_, ?_⟩⟩, rfl, rfl, ?_⟩ <;>
    simp [encUnit, decUnit, UnitState.reset, Regs.reset, inInput, inOutput, passInLen, passOutCap] <;> omega

/-- WritesWhileBusyHaveNoEffect: any register. -/
theorem witness_WritesWhileBusyHaveNoEffect (reg : Nat) (v : Word64) :
    let s := hostState (encUnit .pixels) State.reset.dec (.writeReg .enc reg v)
    nextAgent s = .host ∧ s.hostIn = [.writeReg .enc reg v] ∧ busy (s.unit .enc).phase = true := ⟨rfl, rfl, rfl⟩

/-- WritesWhileIdleStoreInWidth: any register but CTRL, either unit; and CTRL with every bit but bit 0 set. -/
theorem witness_WritesWhileIdleStoreInWidth (u : UnitId) (reg : Nat) (v : Word64) (h : reg ≠ 0) :
    let s := hostState State.reset.enc State.reset.dec (.writeReg u reg v)
    let t := hostState State.reset.enc State.reset.dec (.writeReg u 0 (-2))
    (nextAgent s = .host ∧ s.hostIn = [.writeReg u reg v] ∧ busy (s.unit u).phase = false ∧
      (reg ≠ 0 ∨ v.getLsbD 0 = false)) ∧
    (nextAgent t = .host ∧ t.hostIn = [.writeReg u 0 (-2)] ∧ busy (t.unit u).phase = false ∧
      (-2#64).getLsbD 0 = false) :=
  ⟨⟨rfl, rfl, by cases u <;> rfl, .inl h⟩, rfl, rfl, by cases u <;> rfl, by decide⟩

/-- ReadsWhileIdleReturnTheRegister: any register in IDLE, DONE and ERROR, STATUS among them (the ordering point); and a
register of a BUSY unit that R54 does not exempt. -/
theorem witness_ReadsWhileIdleReturnTheRegister (reg : Nat) :
    let s := hostState (encUnit .done) (decUnit .error) (.readReg .enc reg)
    let t := hostState State.reset.enc (decUnit .error) (.readReg .dec reg)
    let b := hostState (encUnit .pixels) (decUnit .pixels) (.readReg .enc 5)
    (nextAgent s = .host ∧ s.hostIn = [.readReg .enc reg] ∧ busy (s.unit .enc).phase = false ∧
      (s.unit .enc).phase = .done) ∧
    (nextAgent t = .host ∧ t.hostIn = [.readReg .dec reg] ∧ busy (t.unit .dec).phase = false ∧
      (t.unit .dec).phase = .error ∧ (t.unit .enc).phase = .idle) ∧
    (nextAgent b = .host ∧ b.hostIn = [.readReg .enc 5] ∧ busy (b.unit .enc).phase = true ∧
      ¬(5 ∈ [3, 4, 11, 12] ∨ (UnitId.enc = .dec ∧ 5 ∈ [5, 6, 7, 8])) ∧
      ¬(8 ∈ [3, 4, 11, 12] ∨ (UnitId.enc = .dec ∧ 8 ∈ [5, 6, 7, 8])) ∧
      ¬(9 ∈ [3, 4, 11, 12] ∨ (UnitId.dec = .dec ∧ 9 ∈ [5, 6, 7, 8]))) :=
  ⟨⟨rfl, rfl, rfl, rfl⟩, ⟨rfl, rfl, rfl, rfl, rfl⟩, rfl, rfl, rfl, by decide, by decide, by decide⟩

/-- ReadsWhileBusyAreFree: two states that differ in a register of DEC. -/
theorem witness_ReadsWhileBusyAreFree :
    let s := hostState State.reset.enc (decUnit .pixels) (.readReg .dec 5)
    let t := hostState State.reset.enc (let d := decUnit .pixels; { d with regs := { d.regs with width := 9 } }) (.readReg .dec 5)
    nextAgent s = .host ∧ nextAgent t = .host ∧ (afterChoice s).draws = (afterChoice t).draws ∧
    s.hostIn = [.readReg .dec 5] ∧ t.hostIn = [.readReg .dec 5] ∧ busy (s.unit .dec).phase = true ∧
    busy (t.unit .dec).phase = true ∧ s.dec.regs ≠ t.dec.regs := by decide

/-- OverlappingLaunchIsRefused: IN and OUT of ENC share their last and first byte; ENC's IN is DEC's running OUT; ENC's
OUT is DEC's running IN. -/
theorem witness_OverlappingLaunchIsRefused :
    (let x := { encUnit .idle with inBase := 0, outBase := 3 }
     busy x.phase = false ∧ (x.inBase ≤ 3 ∧ 3 < x.inBase + x.regs.inLen.toNat) ∧
     (x.outBase ≤ 3 ∧ 3 < x.outBase + x.regs.outCap.toNat)) ∧
    (let x := { encUnit .idle with inBase := 3 * 2 ^ 64 }
     let y := decUnit .pixels
     busy y.phase = true ∧ (x.inBase ≤ 3 * 2 ^ 64 ∧ 3 * 2 ^ 64 < x.inBase + x.regs.inLen.toNat) ∧
     inOutput y (3 * 2 ^ 64) = true) ∧
    (let x := { encUnit .idle with outBase := 2 * 2 ^ 64 }
     let y := decUnit .pixels
     (x.outBase ≤ 2 * 2 ^ 64 ∧ 2 * 2 ^ 64 < x.outBase + x.regs.outCap.toNat) ∧ inInput y (2 * 2 ^ 64) = true) := by
  decide

/-- StorageWritesRespectOpenPasses: the last byte of IN and the first byte of OUT of a BUSY pass, and the byte after IN;
the byte of OUT that a DONE pass wrote last, which the host's write makes contested, and the byte after it. -/
theorem witness_StorageWritesRespectOpenPasses :
    let s := hostState (encUnit .pixels) State.reset.dec (.writeMem 3 7)
    let d := { encUnit .done with awaited := true, unseen := [(2 ^ 64, 2 ^ 64 + 23)] }
    let w := hostState d State.reset.dec (.writeMem (2 ^ 64 + 22) 7)
    (nextAgent s = .host ∧ s.hostIn = [.writeMem 3 7] ∧
      (busy (s.unit .enc).phase = true ∧ inInput (s.unit .enc) 3 = true) ∧ inOutput (s.unit .enc) (2 ^ 64) = true ∧
      (inInput s.enc 4 = false ∧ inOutput s.enc 4 = false) ∧ passOpen s.dec = false) ∧
    (passOpen d = true ∧ busy d.phase = false ∧ inInput d 3 = true ∧
      (inOutput d (2 ^ 64 + 22) = true ∧ inInput d (2 ^ 64 + 22) = false ∧ covered d.unseen (2 ^ 64 + 22) = true) ∧
      (inOutput d (2 ^ 64 + 23) = true ∧ inInput d (2 ^ 64 + 23) = false ∧ covered d.unseen (2 ^ 64 + 23) = false)) ∧
    nextIs (step w) (fun t => t.mem.read (2 ^ 64 + 22) == 7 && covered t.contested (2 ^ 64 + 22)) = true := by
  decide

/-- StorageReadsSeeEndedPasses: a byte outside OUT; a byte in OUT of a BUSY pass, in two states that differ in it; a byte
that an ended pass wrote. -/
theorem witness_StorageReadsSeeEndedPasses :
    let s := hostState (encUnit .pixels) State.reset.dec (.readMem 3)
    let b := hostState (encUnit .pixels) State.reset.dec (.readMem (2 ^ 64))
    let b' := { b with mem := b.mem.write (2 ^ 64) 9 }
    let d := { encUnit .done with awaited := true, unseen := [(2 ^ 64, 2 ^ 64 + 23)] }
    (nextAgent s = .host ∧ s.hostIn = [.readMem 3] ∧ inOutput s.enc 3 = false ∧ covered s.enc.unseen 3 = false ∧
      busy s.dec.phase = false ∧ covered s.dec.unseen 3 = false ∧ covered s.contested 3 = false) ∧
    (nextAgent b = .host ∧ b.hostIn = [.readMem (2 ^ 64)] ∧ nextAgent b' = .host ∧ b'.hostIn = [.readMem (2 ^ 64)] ∧
      (afterChoice b').draws = (afterChoice b).draws ∧
      (busy (b.unit .enc).phase = true ∧ inOutput (b.unit .enc) (2 ^ 64) = true) ∧
      (busy (b'.unit .enc).phase = true ∧ inOutput (b'.unit .enc) (2 ^ 64) = true) ∧
      b.mem.read (2 ^ 64) ≠ b'.mem.read (2 ^ 64)) ∧
    covered d.unseen (2 ^ 64 + 22) = true := by decide

/-- WritesStayUnseenUntilAStatusRead: after a DONE pass that the host has not seen, a hardware reset leaves its bytes
unseen, so does a host write after the reset, whose byte is contested, and the STATUS read does not (R83, R84); a second
host write, after the STATUS read, ends the contest, and so does a hardware reset that ends a pass over the byte; in a
sound state ENC's HEADER step changes the first byte of OUT. -/
theorem witness_WritesStayUnseenUntilAStatusRead :
    let d := { encUnit .done with awaited := true, unseen := [(2 ^ 64, 2 ^ 64 + 23)] }
    let i := { encUnit .idle with unseen := [(2 ^ 64, 2 ^ 64 + 23)] }
    let s := hostState d State.reset.dec .hardwareReset
    let c := { hostState (encUnit .idle) State.reset.dec (.writeMem 9 7) with contested := [(9, 10)] }
    nextIs (step (hostState i State.reset.dec (.writeMem (2 ^ 64) 7))) (fun t => hiddenFromHost t.enc (2 ^ 64) &&
      covered t.contested (2 ^ 64) && !covered t.contested (2 ^ 64 + 1) && t.mem.read (2 ^ 64) == 7) = true ∧
    (covered c.contested 9 = true ∧ nextIs (step c) (fun t => !covered t.contested 9) = true) ∧
    nextIs (step { hostState (encUnit .pixels) State.reset.dec .hardwareReset with
      contested := [(2 ^ 64 - 1, 2 ^ 64 + 1)] }) (fun t => covered t.contested (2 ^ 64 - 1) &&
      !covered t.contested (2 ^ 64) && covered t.enc.unseen (2 ^ 64)) = true ∧
    (covered (s.unit .enc).unseen (2 ^ 64) = true ∧
      nextIs (step s) (fun t => hiddenFromHost t.enc (2 ^ 64) && !hiddenFromHost t.enc (2 ^ 64 + 23)) = true) ∧
    nextIs (step (hostState d State.reset.dec (.readReg .enc 1))) (fun t => !hiddenFromHost t.enc (2 ^ 64)) = true ∧
    (Sound imageState ∧
      nextIs (step imageState) (fun t => t.mem.read (2 ^ 64) != imageState.mem.read (2 ^ 64)) = true) :=
  ⟨by decide, by decide, by decide, by decide, by decide, header_state_sound, by decide⟩

/-- HardwareResetClearsRegisters: during a pass of ENC. -/
theorem witness_HardwareResetClearsRegisters :
    let s := hostState (encUnit .pixels) State.reset.dec .hardwareReset
    nextAgent s = .host ∧ s.hostIn = [.hardwareReset] ∧ busy s.enc.phase = true ∧ inOutput s.enc 3 = false ∧
    busy s.dec.phase = false ∧ inOutput s.enc (2 ^ 64) = true := by decide

/-- QuiescentUnitHasNoStep. -/
theorem witness_QuiescentUnitHasNoStep :
    (nextAgent (encState (encUnit .error) []) = .enc ∧ busy (encUnit .error).phase = false) ∧
    (nextAgent (decState (decUnit .done) []) = .dec ∧ busy (decUnit .done).phase = false) := by decide

/-! ### Witnesses: the whole machine -/

/-- EncWritesOnlyItsOutput, EveryStepKeepsSound, SoundStatesAreSafe: a sound state whose ENC writes. -/
theorem witness_EncWritesOnlyItsOutput :
    let s := { encState (encUnit .header) onePixel with schedule := List.replicate 3 .enc }
    Sound s ∧ nextAgent s = .enc ∧ nextIs (step s) (fun t => t.mem != s.mem) = true :=
  ⟨header_state_sound, rfl, by decide⟩

/-- DecWritesOnlyItsOutput: a sound state whose DEC moves. -/
theorem witness_DecWritesOnlyItsOutput :
    let s := { decState (decUnit .pixels) [] with schedule := List.replicate 2 .dec }
    Sound s ∧ nextAgent s = .dec ∧ nextIs (step s) (fun t => t.dec.k == 1) = true :=
  ⟨dec_state_sound, rfl, by decide⟩

/-- DecStepDependsOnlyOnItsInput: two states that differ in ENC, in storage outside DEC's IN and in a byte of IN that is
in no order with DEC's pass. -/
theorem witness_DecStepDependsOnlyOnItsInput :
    let s :=
      let s := loaded Pixel.clear [0x73]
      { s with dec := { s.dec with unorderedIn := [(s.dec.inBase + 20, s.dec.inBase + 27)] } }
    let s' := { s with enc := encUnit .pixels, mem := (s.mem.write 5 1).write (s.dec.inBase + 20) 1 }
    s.dec = s'.dec ∧ s.params = s'.params ∧ s.draws = s'.draws ∧ s.enc ≠ s'.enc ∧ s.mem ≠ s'.mem ∧
    (∀ a, inInput s.dec a = true → covered s.dec.unorderedIn a = false → s.mem.read a = s'.mem.read a) ∧
    nextIs (decStep s) (fun _ => true) = true := by
  refine ⟨rfl, rfl, rfl, by decide, by decide, fun a ha hc => ?_, by decide⟩
  have h : (State.reset.dec.inBase ≤ a) := (of_decide_eq_true ha).1
  rw [Memory.read_write, if_neg, Memory.read_write, if_neg]
  · rintro rfl
    revert h
    decide
  · rintro rfl
    revert hc
    decide

/-- EncStepDependsOnlyOnItsInput: two states that differ in DEC, in storage outside ENC's IN and in
`P_DEC_UPDATE_ON_INDEX`. -/
theorem witness_EncStepDependsOnlyOnItsInput :
    let s := encState (encUnit .header) onePixel
    let s' := { s with
      dec := decUnit .pixels, mem := s.mem.write 5 1, params := { s.params with decUpdateOnIndex := true } }
    s.enc = s'.enc ∧ s.params.magic = s'.params.magic ∧ s.params.prevInit = s'.params.prevInit ∧
    s.params.maxPixels = s'.params.maxPixels ∧ s.draws = s'.draws ∧ s.dec ≠ s'.dec ∧ s.mem ≠ s'.mem ∧
    (∀ a, inInput s.enc a = true → covered s.enc.unorderedIn a = false → s.mem.read a = s'.mem.read a) ∧
    nextIs (encStep s) (fun _ => true) = true := by
  refine ⟨rfl, rfl, rfl, rfl, rfl, by decide, by decide, fun a ha _ => ?_, by decide⟩
  have h : a < 0 + 4 := (of_decide_eq_true ha).2
  rw [Memory.read_write, if_neg (by omega)]

/-- EncPassTakesPixelsPlusThreeSteps. -/
theorem witness_EncPassTakesPixelsPlusThreeSteps :
    let s := { encState (encUnit .validate) [] with schedule := List.replicate 4 .enc }
    Sound s ∧ s.enc.phase = .validate ∧ 1 = s.enc.regs.width.toNat * s.enc.regs.height.toNat ∧
    s.schedule = List.replicate (1 + 3) .enc := ⟨validate_state_sound, rfl, by decide, rfl⟩

/-- DecPassEndsWithinPixelsPlusTwoSteps. -/
theorem witness_DecPassEndsWithinPixelsPlusTwoSteps :
    let s := { decState (decUnit .pixels) [] with schedule := List.replicate 2 .dec }
    Sound s ∧ s.dec.phase = .pixels ∧ s.dec.k = 0 ∧ s.schedule = List.replicate (s.dec.lat.n.toNat + 1) .dec :=
  ⟨dec_state_sound, rfl, rfl, rfl⟩

/-- The state after ENC's HEADER, PIXELS and FOOTER steps. -/
def encodedState : State := nextOr imageState (core.run 3 imageState)

/-- DEC just after START, its IN in place in ENC's OUT, its IN_LEN ENC's OUT_LEN. -/
def decodingState : State :=
  { State.reset with
    mem := encodedState.mem
    dec :=
      let d := decUnit .validate
      { d with inBase := 2 ^ 64, regs := { d.regs with inLen := encodedState.enc.regs.outLen } }
    schedule := List.replicate 3 .dec }

theorem decoding_state_sound : Sound decodingState :=
  ⟨by decide, reset_enc_sound,
    ⟨⟨fun _ => ⟨rfl, rfl, rfl⟩, (fun h => by cases h), fun _ => ⟨rfl, rfl⟩⟩, by decide, (fun h => by cases h),
      (fun h => by cases h), (fun h => by cases h), (fun h => by cases h), (fun h => by cases h), (fun h => by cases h),
      (fun h => by cases h), (fun h => by cases h)⟩,
    ⟨(fun h => by cases h), fun _ => by decide, (fun h => by cases h)⟩⟩

/-- DecodingAnEncodedImageGivesItBack. -/
theorem witness_DecodingAnEncodedImageGivesItBack :
    Sound imageState ∧ imageState.enc.phase = .header ∧ 1 = imageState.enc.lat.n.toNat ∧
    imageState.schedule = List.replicate (1 + 2) .enc ∧ core.run (1 + 2) imageState = .next encodedState ∧
    Sound decodingState ∧ decodingState.dec.phase = .validate ∧ decodingState.params = encodedState.params ∧
    decodingState.mem = encodedState.mem ∧ decodingState.dec.inBase = encodedState.enc.outBase ∧
    decodingState.dec.regs.inLen = encodedState.enc.regs.outLen ∧
    1 * imageState.enc.lat.ch.toNat ≤ decodingState.dec.regs.outCap.toNat ∧
    (∀ a, inOutput imageState.enc a = true → covered imageState.enc.unorderedOut a = false) ∧
    (∀ a, inInput decodingState.dec a = true → covered decodingState.dec.unorderedIn a = false) ∧
    (∀ a, inOutput decodingState.dec a = true → covered decodingState.dec.unorderedOut a = false) ∧
    decodingState.schedule = List.replicate (1 + 2) .dec :=
  ⟨header_state_sound, rfl, by decide, rfl, rfl, decoding_state_sound, rfl, rfl, rfl, rfl, rfl, by decide,
    fun _ _ => rfl, fun _ _ => rfl, fun _ _ => rfl, rfl⟩

end Sys2Proof.Tests
end

section
/-! PROOF. Big-endian numbers (spec R13, R74), and what no step changes: the parameters of R9 (R57). What DEC's VALIDATE
and PIXELS steps can answer is said once here, as Laws/Step.lean says it of the other steps. -/

namespace Sys2Proof.Machine

open Sys2Proof.Safety

/-! ### Big-endian numbers -/

/-- Appending below shifts the number above by the width. -/
theorem toNat_append_eq_add {m n : Nat} (x : BitVec m) (y : BitVec n) :
    (x ++ y).toNat = x.toNat * 2 ^ n + y.toNat := by
  rw [BitVec.toNat_append, ← Nat.shiftLeft_add_eq_or_of_lt y.isLt, Nat.shiftLeft_eq]

/-- `BE32` weighs its bytes by falling powers of 256 (R13, R74). -/
theorem toNat_be32 (b0 b1 b2 b3 : Byte) :
    (be32 b0 b1 b2 b3).toNat = b0.toNat * 2 ^ 24 + b1.toNat * 2 ^ 16 + b2.toNat * 2 ^ 8 + b3.toNat := by
  simp only [be32, toNat_append_eq_add]
  omega

/-- A byte of a word is the quotient's remainder at its position. -/
theorem extractByte_eq {v : Word32} {start : Nat} {b : Byte} (h : v.toNat / 2 ^ start % 2 ^ 8 = b.toNat) :
    v.extractLsb' start 8 = b := by
  apply BitVec.eq_of_toNat_eq
  rw [BitVec.extractLsb'_toNat, Nat.shiftRight_eq_div_pow, h]

/-- `bytesBE32` inverts `BE32` (R13): each byte is found at its weight. -/
theorem bytesBE32_be32 (b0 b1 b2 b3 : Byte) : bytesBE32 (be32 b0 b1 b2 b3) = [b0, b1, b2, b3] := by
  have number := toNat_be32 b0 b1 b2 b3
  have h0 := b0.isLt
  have h1 := b1.isLt
  have h2 := b2.isLt
  have h3 := b3.isLt
  rw [bytesBE32, extractByte_eq (b := b0) (by omega), extractByte_eq (b := b1) (by omega),
    extractByte_eq (b := b2) (by omega), extractByte_eq (b := b3) (by omega)]

/-- Settles O9, from the weights of the bytes and the inverse. -/
theorem bigEndianNumbers : Obligations.BigEndianNumbers :=
  fun b0 b1 b2 b3 => ⟨toNat_be32 b0 b1 b2 b3, bytesBE32_be32 b0 b1 b2 b3⟩

/-! ### What DEC's VALIDATE and PIXELS steps can answer -/

/-- The 14 header bytes made of the numbers that VALIDATE reads are the bytes read (R100). -/
theorem headerBytes_be32 (m0 m1 m2 m3 w0 w1 w2 w3 h0 h1 h2 h3 ch cs : Byte) :
    headerBytes (be32 m0 m1 m2 m3) (be32 w0 w1 w2 w3) (be32 h0 h1 h2 h3) ch cs =
      [m0, m1, m2, m3, w0, w1, w2, w3, h0, h1, h2, h3, ch, cs] := by
  simp [headerBytes, bytesBE32_be32]

/-- VALIDATE of DEC ends in a raise, or IN begins with a header of which all checks hold and the pass state is set
(R244). -/
theorem decValidate_next {s t : State} (h : decValidate s = .next t) :
    (∃ lat regs e i0 i1, t = raise .dec e i0 i1 { s with dec := { s.dec with lat := lat, regs := regs } } ∧
      errorCode e ∈ [(1 : Byte), 2, 3, 5, 6, 7, 9]) ∨
    (∃ w hgt ch cs, let n := w.toNat * hgt.toNat
     22 ≤ s.dec.regs.inLen.toNat ∧
     inBytes s.dec s.mem s.dec.inBase 14 = headerBytes s.params.magic w hgt ch cs ∧
     (ch = 3 ∨ ch = 4) ∧ (cs = 0 ∨ cs = 1) ∧ w ≠ 0 ∧ hgt ≠ 0 ∧
     n ≤ s.params.maxPixels.toNat ∧ n * ch.toNat ≤ s.dec.regs.outCap.toNat ∧
     t = { s with dec := { s.dec with
       lat := { w := w, hgt := hgt, ch := ch, cs := cs, n := BitVec.ofNat 64 n
                inLen := s.dec.regs.inLen, outCap := s.dec.regs.outCap }
       regs := { s.dec.regs with width := w, height := hgt, channels := ch, colorspace := cs }
       prev := s.params.prevInit, run := 0, k := 0, ipos := 14, opos := 0
       idx := cacheCleared, phase := .pixels } }) := by
  unfold decValidate at h
  simp only at h
  split at h
  · cases h
    exact .inl ⟨_, _, _, _, _, rfl, by decide⟩
  split at h
  · rename_i header
    iterate 6
      split at h
      · cases h
        exact .inl ⟨_, _, _, _, _, rfl, by decide⟩
    rename_i magic _ _ _ _ _
    cases h
    have read : inBytes s.dec s.mem s.dec.inBase 14 = _ :=
      (inBytes_congr rfl rfl fun _ _ _ _ => rfl).trans (memRead_eq_some.1 header).2.symm
    rw [← headerBytes_be32, not_not.1 magic] at read
    exact .inr ⟨_, _, _, _, by omega, read, by tauto, by tauto, by tauto, by tauto, by omega, by omega, rfl⟩
  · cases h

/-- The end of a pixel step of `s`, reached with `ipos`, the cache, the run counter and `prev` replaced: as
`finishPixel_step`, with the room in OUT following from the answer (R250). -/
theorem finishPixel_pixelStep {px : Pixel} {s u t : State} {len : Nat} {idx : Cache} {run : BitVec 6} {prev : Pixel}
    (h : finishPixel px u = .next t)
    (hu : u = { s with dec := { s.dec with
      ipos := s.dec.ipos + BitVec.ofNat 64 len, idx := idx, run := run, prev := prev } }) :
    PixelStep s t len px ∧ t.dec.prev = prev ∧ t.dec.idx = idx ∧ t.dec.run = run := by
  have room : PixelRoom s := by
    subst hu
    exact (finishPixel_next h).1
  obtain ⟨t', ht', made⟩ := finishPixel_step (px := px) room hu
  obtain rfl : t' = t := Host.Outcome.next.inj (ht'.symm.trans h)
  exact made

/-- A chunk of more than one byte raises past the end of IN, or takes its pixel inside IN (R252). -/
theorem longChunk_next {px : Pixel} {s t : State} {len : Nat} (h : longChunk len px s = .next t) :
    (s.dec.lat.inLen.toNat < s.dec.ipos.toNat + len ∧ t = raiseDecoding .unexpectedBufferEnd s) ∨
    (s.dec.ipos.toNat + len ≤ s.dec.lat.inLen.toNat ∧ finishPixel px (takeChunk len true px s) = .next t) := by
  by_cases past : s.dec.lat.inLen.toNat < s.dec.ipos.toNat + len
  · rw [longChunk_raised past] at h
    exact .inl ⟨past, (Host.Outcome.next.inj h).symm⟩
  · have : chunkPastEnd len s = false := decide_eq_false past
    exact .inr ⟨by omega, by simpa [longChunk, this] using h⟩

/-- A chunk of more than one byte raises, or makes a pixel step. -/
theorem longChunk_raises_or_steps {px : Pixel} {s t : State} {len : Nat} (h : longChunk len px s = .next t) :
    t = raiseDecoding .unexpectedBufferEnd s ∨ ∃ n px, PixelStep s t n px := by
  obtain ⟨-, raised⟩ | ⟨-, made⟩ := longChunk_next h
  · exact .inl raised
  · exact .inr ⟨len, px, (finishPixel_pixelStep made rfl).1⟩

/-- Every chunk raises UnexpectedBufferEnd or makes a pixel step (R250, R252). -/
theorem exec_next {i : Instr} {s t : State} (h : exec i s = .next t) :
    t = raiseDecoding .unexpectedBufferEnd s ∨ ∃ len px, PixelStep s t len px := by
  cases i with
  | rgb r g b => exact longChunk_raises_or_steps (px := ⟨r, g, b, s.dec.prev.a⟩) h
  | rgba r g b a => exact longChunk_raises_or_steps (px := ⟨r, g, b, a⟩) h
  | index slot => exact .inr ⟨1, _, (finishPixel_pixelStep h rfl).1⟩
  | diff dr dg db => exact .inr ⟨1, _, (finishPixel_pixelStep h rfl).1⟩
  | luma dg drg dbg => exact longChunk_raises_or_steps h
  | run n => exact .inr ⟨1, _, (finishPixel_pixelStep h rfl).1⟩

/-- PIXELS of DEC raises UnexpectedBufferEnd or makes a pixel step (R250 to R252). -/
theorem decPixel_next {s t : State} (h : decPixel s = .next t) :
    t = raiseDecoding .unexpectedBufferEnd s ∨ ∃ len px, PixelStep s t len px := by
  unfold decPixel at h
  split at h
  · exact .inr ⟨0, s.dec.prev, (finishPixel_pixelStep h (by rw [BitVec.add_zero])).1⟩
  split at h
  · exact exec_next h
  · exact .inl (Host.Outcome.next.inj h).symm
  · exact .inl (Host.Outcome.next.inj h).symm

/-! ### No step changes the parameters -/

theorem decStep_params {s t : State} (h : decStep s = .next t) : t.params = s.params := by
  unfold decStep at h
  cases phase : s.dec.phase <;> rw [phase] at h
  case idle | done | error => cases h; rfl
  case validate =>
    obtain ⟨_, _, _, _, _, rfl, -⟩ | ⟨_, _, _, _, -, -, -, -, -, -, -, -, rfl⟩ := decValidate_next h
    · simp
    · rfl
  case header => cases h
  case pixels =>
    obtain rfl | ⟨_, _, made⟩ := decPixel_next h
    · exact (raiseDecoding_raised _ s).params
    · exact made.params
  case footer =>
    obtain rfl | ⟨-, -, rfl⟩ := decFooter_next h
    · exact (raiseDecoding_raised _ s).params
    · simp

theorem encStep_params {s t : State} (h : encStep s = .next t) : t.params = s.params := by
  unfold encStep at h
  cases phase : s.enc.phase <;> rw [phase] at h
  case idle | done | error => cases h; rfl
  case validate =>
    obtain ⟨_, _, _, _, rfl, -⟩ | ⟨-, -, -, -, -, -, -, rfl⟩ := encValidate_next h
    · simp
    · rfl
  case header =>
    obtain ⟨_, -, -, rfl⟩ := encHeader_next h
    rfl
  case pixels =>
    obtain ⟨_, _, _, -, -, -, -, -, rfl⟩ := encPixel_next h
    rfl
  case footer =>
    obtain ⟨-, rfl⟩ := encFooter_next h
    simp

@[simp] theorem hostReadReg_params (u : UnitId) (reg : Nat) (s : State) : (hostReadReg u reg s).params = s.params := by
  obtain ⟨_, _, _, _, _, _, e⟩ := hostReadReg_eq u reg s
  rw [e]

@[simp] theorem hostReadMem_params (a : Nat) (s : State) : (hostReadMem a s).params = s.params := by
  unfold hostReadMem
  split <;> rfl

@[simp] theorem drawRunningOutput_params (x : UnitState) (s : State) :
    (drawRunningOutput x s).params = s.params := by
  unfold drawRunningOutput
  split <;> rfl

@[simp] theorem hardwareReset_params (s : State) : (hardwareReset s).params = s.params := by
  simp [hardwareReset]

theorem hostStep_params {s t : State} (h : hostStep s = .next t) : t.params = s.params := by
  cases hostStep_next h with
  | none _ e => rw [e]
  | ignored _ _ _ _ _ e => rw [e]
  | readReg _ _ _ _ e => simp [e]
  | start _ _ _ _ _ _ _ e => simp [e]
  | writeReg _ _ _ _ _ _ _ e => simp [e]
  | readMem _ _ _ e => simp [e]
  | writeMem _ _ _ _ _ e => rw [e]
  | bind _ _ _ _ _ _ e => simp [e]
  | reset _ _ e => simp [e]

/-- Whichever agent moves, the parameters stay; so does the choice of the agent. -/
theorem step_params {s t : State} (h : step s = .next t) : t.params = s.params := by
  have kept : ∀ a, agentStep a (afterChoice s) = .next t → t.params = (afterChoice s).params := by
    intro a ha
    cases a with
    | host => exact hostStep_params ha
    | enc => exact encStep_params ha
    | dec => exact decStep_params ha
  rw [kept _ h, afterChoice_params]

/-- Settles O50: each agent's step keeps the parameters (R57), by what each step can answer. -/
theorem parametersNeverChange : Obligations.ParametersNeverChange := fun _ _ => step_params

end Sys2Proof.Machine
end

section
/-! PROOF. The invariant of every step (spec R34 to R37, R51, R52, R55, R73, R143, R203, R281) in terms of one unit and
its buffers: what keeps it when a unit rests, raises, starts or goes on, and the whole state from its parts. -/

namespace Sys2Proof.Safety

open Sys2Proof.Machine

/-! ### The registers of a unit -/

/-- No error and no result stands in the registers: what holds from START to the end of a pass (R52). -/
structure RegsClear (r : Regs) : Prop where
  errCode : r.errCode = 0
  errInfo0 : r.errInfo0 = 0
  errInfo1 : r.errInfo1 = 0
  outLen : r.outLen = 0
  inUsed : r.inUsed = 0

theorem RegsSound.clear {raised : List Byte} {x : UnitState} (h : RegsSound raised x) (hx : busy x.phase = true) :
    RegsClear x.regs := by
  obtain ⟨code, info0, info1⟩ := h.noError (by rintro e; rw [e] at hx; cases hx)
  obtain ⟨outLen, inUsed⟩ := h.noResult (by rintro e; rw [e] at hx; cases hx)
  exact ⟨code, info0, info1, outLen, inUsed⟩

theorem RegsClear.sound {raised : List Byte} {x : UnitState} (h : RegsClear x.regs) (hx : x.phase ≠ .error) :
    RegsSound raised x :=
  ⟨fun _ => ⟨h.errCode, h.errInfo0, h.errInfo1⟩, fun e => absurd e hx, fun _ => ⟨h.outLen, h.inUsed⟩⟩

theorem RegsClear.startRegs (u : UnitId) (r : Regs) : RegsClear (startRegs u r) := by
  cases u <;> exact ⟨rfl, rfl, rfl, rfl, rfl⟩

/-- A raise leaves the registers of R281 and R290. -/
theorem RegsSound.of_error {raised : List Byte} {x : UnitState} (phase : x.phase = .error)
    (code : x.regs.errCode ∈ raised) (outLen : x.regs.outLen = 0) (inUsed : x.regs.inUsed = 0) :
    RegsSound raised x :=
  ⟨fun e => absurd phase e, fun _ => code, fun _ => ⟨outLen, inUsed⟩⟩

/-- The end of a pass writes the result registers, and leaves no error (R55). -/
theorem RegsSound.completePass {raised : List Byte} {x : UnitState} (outLen inUsed : Word64) (h : RegsClear x.regs) :
    RegsSound raised (completePass outLen inUsed x) :=
  ⟨fun _ => ⟨h.errCode, h.errInfo0, h.errInfo1⟩, (fun e => by cases e), fun e => absurd rfl e⟩

/-! ### The invariant of one unit -/

/-- The error codes that a unit can raise (R281). -/
def raisedBy : UnitId → List Byte
  | .enc => [1, 2, 3, 4, 6, 9]
  | .dec => [1, 2, 3, 5, 6, 7, 8, 9, 10]

/-- The invariant of the unit of a name. -/
def UnitSound : UnitId → Params → UnitState → Prop
  | .enc => EncSound
  | .dec => DecSound

theorem UnitSound.regs {u : UnitId} {params : Params} {x : UnitState} (h : UnitSound u params x) :
    RegsSound (raisedBy u) x := by
  cases u
  · exact EncSound.regs h
  · exact DecSound.regs h

/-- While no pass is past VALIDATE, the invariant speaks of the registers only. -/
theorem UnitSound.of_not_running {u : UnitId} {params : Params} {x : UnitState} (regs : RegsSound (raisedBy u) x)
    (h : running x.phase = false) : UnitSound u params x := by
  have no : ∀ {P : Prop}, running x.phase = true → P := fun e => absurd e (by simp [h])
  cases u
  · exact ⟨regs, no, no, no, fun e => no (by rw [e]; rfl), fun e => no (by rw [e]; rfl),
      fun e => no (by rw [e]; rfl), no⟩
  · exact ⟨regs, fun e => no (by rw [e]; rfl), no, no, no, no, fun e => no (by rw [e]; rfl), no,
      fun e => no (by rw [e]; rfl), no⟩

/-- What the host has seen plays no part in the invariant. -/
theorem UnitSound.with_notes {u : UnitId} {params : Params} {x : UnitState} (h : UnitSound u params x) (b : Bool)
    (ws : List Window) : UnitSound u params { x with awaited := b, unseen := ws } := by
  have regs : RegsSound (raisedBy u) { x with awaited := b, unseen := ws } :=
    ⟨h.regs.noError, h.regs.error, h.regs.noResult⟩
  cases u with
  | enc =>
    obtain ⟨-, latches, latched, input, start, pixel, last, cache⟩ := h
    exact ⟨regs, latches, latched, input, start, pixel, last, cache⟩
  | dec =>
    obtain ⟨-, noHeader, latches, latched, output, input, pixel, owed, last, cache⟩ := h
    exact ⟨regs, noHeader, latches, latched, output, input, pixel, owed, last, cache⟩

theorem busy_of_running {p : Phase} (h : running p = true) : busy p = true := by
  revert h
  cases p <;> decide

theorem not_running_of_not_busy {p : Phase} (h : busy p = false) : running p = false := by
  revert h
  cases p <;> decide

/-! ### The buffers of running passes -/

/-- A pass that runs in `y` runs in `x` too, in the same buffers. -/
def KeepsBuffers (x y : UnitState) : Prop :=
  busy y.phase = true → busy x.phase = true ∧ y.inBase = x.inBase ∧ y.outBase = x.outBase ∧
    passInLen y = passInLen x ∧ passOutCap y = passOutCap x

theorem KeepsBuffers.refl (x : UnitState) : KeepsBuffers x x := fun h => ⟨h, rfl, rfl, rfl, rfl⟩

theorem KeepsBuffers.of_not_busy {x y : UnitState} (h : busy y.phase = false) : KeepsBuffers x y :=
  fun e => absurd e (by simp [h])

theorem passInLen_of_running {x : UnitState} (h : running x.phase = true) : passInLen x = x.lat.inLen.toNat :=
  if_neg (by intro e; rw [e] at h; cases h)

theorem passOutCap_of_running {x : UnitState} (h : running x.phase = true) : passOutCap x = x.lat.outCap.toNat :=
  if_neg (by intro e; rw [e] at h; cases h)

/-- A running pass keeps its buffers when it goes on with its latches. -/
theorem KeepsBuffers.of_running {x y : UnitState} (hx : running x.phase = true) (hy : running y.phase = true)
    (lat : y.lat = x.lat) (inBase : y.inBase = x.inBase) (outBase : y.outBase = x.outBase) : KeepsBuffers x y :=
  fun _ => ⟨busy_of_running hx, inBase, outBase, by rw [passInLen_of_running hx, passInLen_of_running hy, lat],
    by rw [passOutCap_of_running hx, passOutCap_of_running hy, lat]⟩

/-- VALIDATE latches the lengths that the registers give (R37), so the pass keeps its buffers. -/
theorem KeepsBuffers.of_validate {x y : UnitState} (hx : x.phase = .validate) (hy : running y.phase = true)
    (inLen : y.lat.inLen = x.regs.inLen) (outCap : y.lat.outCap = x.regs.outCap) (inBase : y.inBase = x.inBase)
    (outBase : y.outBase = x.outBase) : KeepsBuffers x y :=
  fun _ => ⟨by rw [hx]; rfl, inBase, outBase, by rw [passInLen_of_running hy, passInLen, if_pos hx, inLen],
    by rw [passOutCap_of_running hy, passOutCap, if_pos hx, outCap]⟩

/-- Buffers stay apart while every pass that runs keeps its own. -/
theorem BuffersApart.of_kept {s t : State} (h : BuffersApart s) (enc : KeepsBuffers s.enc t.enc)
    (dec : KeepsBuffers s.dec t.dec) : BuffersApart t where
  enc busyEnc := by
    obtain ⟨busyEnc', inBase, outBase, inLen, outCap⟩ := enc busyEnc
    rw [inBase, outBase, inLen, outCap]
    exact h.enc busyEnc'
  dec busyDec := by
    obtain ⟨busyDec', inBase, outBase, inLen, outCap⟩ := dec busyDec
    rw [inBase, outBase, inLen, outCap]
    exact h.dec busyDec'
  both busyEnc busyDec := by
    obtain ⟨busyEnc', inBase, outBase, inLen, outCap⟩ := enc busyEnc
    obtain ⟨busyDec', inBase', outBase', inLen', outCap'⟩ := dec busyDec
    rw [inBase, outBase, inLen, outCap, inBase', outBase', inLen', outCap']
    exact h.both busyEnc' busyDec'

/-! ### The invariant of the machine -/

theorem Sound.unit {s : State} (h : Sound s) (u : UnitId) : UnitSound u s.params (s.unit u) := by
  cases u
  · exact h.enc
  · exact h.dec

/-- The invariant speaks of storage, the units and the parameters only. -/
theorem Sound.of_fields {s t : State} (h : Sound s) (mem : t.mem.wf = true) (enc : t.enc = s.enc) (dec : t.dec = s.dec)
    (params : t.params = s.params) : Sound t where
  mem := mem
  enc := by rw [enc, params]; exact h.enc
  dec := by rw [dec, params]; exact h.dec
  apart := h.apart.of_kept (by rw [enc]; exact .refl _) (by rw [dec]; exact .refl _)

theorem Sound.afterChoice {s : State} (h : Sound s) : Sound (afterChoice s) :=
  h.of_fields (by simpa using h.mem) (by simp) (by simp) (by simp)

/-- A sound state stays so when one unit is replaced by one that meets the invariant, in the same buffers. -/
theorem Sound.setUnit {s : State} {u : UnitId} {x : UnitState} (h : Sound s) (sound : UnitSound u s.params x)
    (buffers : KeepsBuffers (s.unit u) x) : Sound (s.setUnit u x) := by
  cases u
  · exact ⟨h.mem, sound, h.dec, h.apart.of_kept buffers (.refl _)⟩
  · exact ⟨h.mem, h.enc, sound, h.apart.of_kept (.refl _) buffers⟩

/-! ### A step of one unit -/

/-- What a step of a unit in a sound state does to the invariant, and what it leaves alone (R30, R31, R71). -/
structure UnitStep (u : UnitId) (s t : State) : Prop where
  sound : UnitSound u s.params (t.unit u)
  buffers : KeepsBuffers (s.unit u) (t.unit u)
  mem : t.mem.wf = true
  other : t.unit (otherUnit u) = s.unit (otherUnit u)
  unwritten : ∀ a, inOutput (s.unit u) a = false → t.mem.read a = s.mem.read a
  outside : t.hostIn = s.hostIn ∧ t.hostOut = s.hostOut

theorem UnitStep.refl {s : State} (u : UnitId) (h : Sound s) : UnitStep u s s :=
  ⟨h.unit u, .refl _, h.mem, rfl, fun _ _ => rfl, rfl, rfl⟩

theorem UnitStep.keeps_sound {u : UnitId} {s t : State} (h : UnitStep u s t) (hs : Sound s)
    (params : t.params = s.params) : Sound t := by
  obtain ⟨sound, buffers, mem, other, -, -⟩ := h
  cases u
  · replace other : t.dec = s.dec := other
    exact ⟨mem, params ▸ sound, by rw [other, params]; exact hs.dec,
      hs.apart.of_kept buffers (by rw [other]; exact .refl _)⟩
  · replace other : t.enc = s.enc := other
    exact ⟨mem, by rw [other, params]; exact hs.enc, params ▸ sound,
      hs.apart.of_kept (by rw [other]; exact .refl _) buffers⟩

/-- A raise in VALIDATE: the latches and header registers may have been written before it. -/
theorem UnitStep.of_raise {u : UnitId} {s : State} {e : PassError} {i0 i1 : Nat} (lat : Latches) (regs : Regs)
    (hs : Sound s) (code : errorCode e ∈ raisedBy u) :
    UnitStep u s (raise u e i0 i1 (s.setUnit u { s.unit u with lat := lat, regs := regs })) where
  sound := .of_not_running (.of_error (by simp) (by simpa using code) (by simp) (by simp)) (by rw [raise_unit]; rfl)
  buffers := .of_not_busy (by rw [raise_unit]; rfl)
  mem := by simpa using hs.mem
  other := by simp
  unwritten a _ := by simp
  outside := by simp

/-- An address that is not in OUT lies before it or past its first bytes. -/
theorem outside_of_not_inOutput {x : UnitState} {a n : Nat} (h : inOutput x a = false) (fits : n ≤ passOutCap x) :
    a < x.outBase ∨ x.outBase + n ≤ a := by
  simp only [inOutput, decide_eq_false_iff_not] at h
  omega

end Sys2Proof.Safety
end

section
/-! PROOF. The steps of ENC keep the invariant (spec/42_encoder.md R200 to R221): what a PIXELS step may emit against
the stream budget of R203, then one lemma for each step. -/

namespace Sys2Proof.Machine

open Sys2Proof.Safety

/-! ### What a PIXELS step of ENC emits -/

/-- A repetition that fills the run, or is the last pixel, is flushed (R212, R214). -/
theorem encPixelEffect_flush {last : Bool} {x : UnitState} (h : x.run + 1 = 62 ∨ last = true) :
    encPixelEffect last x.prev x = (encode (.run (x.run + 1).toNat), { x with run := 0 }) := by
  simp only [encPixelEffect, if_pos, if_pos h]

/-- Any other repetition is owed. -/
theorem encPixelEffect_grow {last : Bool} {x : UnitState} (h : ¬(x.run + 1 = 62 ∨ last = true)) :
    encPixelEffect last x.prev x = ([], { x with run := x.run + 1 }) := by
  simp only [encPixelEffect, if_pos, if_neg h]

/-- A pixel that is no repetition flushes what is owed, then its chunk follows (R215 to R220). -/
theorem encPixelEffect_break {last : Bool} {p : Pixel} {x : UnitState} (h : p ≠ x.prev) :
    encPixelEffect last p x =
      ((if runActive x then encode (.run x.run.toNat) else []) ++ encode (chunkFor x.prev x.idx p),
        { x with
          run := 0, idx := if cacheLookup x.idx (pixelHash p) = p then x.idx else cacheWrite x.idx p, prev := p }) := by
  simp only [encPixelEffect, if_neg h]

end Sys2Proof.Machine

namespace Sys2Proof.Safety

open Sys2Proof.Machine

/-! ### The stream budget of R203 -/

/-- The byte that an owed run will take. -/
def owedByte (run : BitVec 6) : Nat := if run = 0 then 0 else 1

/-- The byte of R202 that a 3-channel pass holds back while `prev` is not opaque: its first pixel may need RGBA. -/
def alphaByte (ch : Byte) (prev : Pixel) : Nat := if ch = 3 ∧ prev.a ≠ 255 then 1 else 0

theorem streamBudget_iff (params : Params) (x : UnitState) :
    streamBudget params x ↔ x.opos.toNat + owedByte x.run + alphaByte x.lat.ch x.prev + 8 ≤
      maxLen params.prevInit x.k.toNat x.lat.ch.toNat := Iff.rfl

theorem owedByte_le_one (run : BitVec 6) : owedByte run ≤ 1 := by
  unfold owedByte
  split <;> omega

theorem alphaByte_of_opaque {ch : Byte} {p : Pixel} (h : ch = 3 → p.a = 255) : alphaByte ch p = 0 :=
  if_neg fun ⟨three, translucent⟩ => translucent (h three)

theorem maxLen_eq (prevInit : Pixel) (n : Nat) (ch : Byte) :
    maxLen prevInit n ch.toNat = 22 + n * (ch.toNat + 1) + alphaByte ch prevInit := by
  have three : ch.toNat = 3 ↔ ch = 3 := BitVec.toNat_inj (y := 3#8)
  simp only [maxLen, alphaByte, three]

/-- Each pixel adds `ch + 1` bytes to the longest stream (R202). -/
theorem maxLen_succ (prevInit : Pixel) (k ch : Nat) :
    maxLen prevInit (k + 1) ch = maxLen prevInit k ch + (ch + 1) := by
  unfold maxLen
  rw [Nat.add_mul, Nat.one_mul]
  omega

/-- Three bytes make an opaque pixel (R130). -/
theorem pixelOfBytes_opaque {bs : List Byte} {p : Pixel} (h : bs.length = 3) (hp : pixelOfBytes bs = some p) :
    p.a = 255 := by
  match bs, h with
  | [_, _, _], _ => exact (Option.some.inj hp) ▸ rfl

/-- Only a change of alpha takes the five bytes of RGBA (R216 to R219). -/
theorem length_encode_chunkFor_le (prev p : Pixel) (idx : Cache) :
    (encode (chunkFor prev idx p)).length ≤ if p.a = prev.a then 4 else 5 := by
  rw [chunkFor_eq]
  by_cases alpha : p.a = prev.a
  · rw [if_pos alpha, codedChunk, if_pos alpha]
    split
    · simp [encode]
    split
    · simp [encode]
    split <;> simp [encode]
  · rw [if_neg alpha, codedChunk, if_neg alpha]
    split <;> simp [encode]

/-- The chunk of a pixel takes its share of the budget, with the byte of R202 when it needs RGBA in a 3-channel
pass. -/
theorem chunkFor_cost {ch : Byte} {prev p : Pixel} (idx : Cache) (hch : ch = 3 ∨ ch = 4)
    (solid : ch = 3 → p.a = 255) :
    (encode (chunkFor prev idx p)).length + alphaByte ch p ≤ ch.toNat + 1 + alphaByte ch prev := by
  have len := length_encode_chunkFor_le prev p idx
  rw [alphaByte_of_opaque solid]
  rcases hch with rfl | rfl
  · by_cases alpha : p.a = prev.a
    · rw [if_pos alpha] at len
      simpa using le_add_right len
    · rw [if_neg alpha] at len
      rw [alphaByte, if_pos ⟨rfl, by rw [← solid rfl]; exact Ne.symm alpha⟩]
      simpa using len
  · split at len <;> simp <;> omega

theorem CacheSound.cleared : CacheSound cacheCleared := fun h => .inl (cacheLookup_cacheCleared h)

/-- A WRITE keeps the cache invariant of R143. -/
theorem CacheSound.write {idx : Cache} (h : CacheSound idx) (p : Pixel) : CacheSound (cacheWrite idx p) := by
  intro slot
  rw [cacheLookup_cacheWrite]
  split
  · rename_i own
    exact .inr own.symm
  · exact h slot

/-- What a PIXELS step of ENC emits and leaves keeps within the share of one pixel of the budget. -/
structure EffectFits (ch : Byte) (last : Bool) (x : UnitState) (effect : List Byte × UnitState) : Prop where
  run : effect.2.run.toNat ≤ 61
  flushed : last = true → effect.2.run = 0
  cost : effect.1.length + owedByte effect.2.run + alphaByte ch effect.2.prev ≤
    ch.toNat + 1 + owedByte x.run + alphaByte ch x.prev
  cache : CacheSound effect.2.idx

theorem encPixelEffect_fits {ch : Byte} {p : Pixel} {x : UnitState} (last : Bool) (hch : ch = 3 ∨ ch = 4)
    (solid : ch = 3 → p.a = 255) (run : x.run.toNat ≤ 61) (cache : CacheSound x.idx) :
    EffectFits ch last x (encPixelEffect last p x) := by
  by_cases repeated : p = x.prev
  · subst repeated
    by_cases full : x.run + 1 = 62 ∨ last = true
    · rw [encPixelEffect_flush full]
      exact ⟨Nat.zero_le _, fun _ => rfl, show 1 + 0 + alphaByte ch x.prev ≤ _ by omega, cache⟩
    · rw [encPixelEffect_grow full]
      rw [not_or] at full
      have short : (x.run + 1).toNat ≤ 61 := by bv_omega
      have one := owedByte_le_one (x.run + 1)
      exact ⟨short, fun e => absurd e full.2, show 0 + owedByte (x.run + 1) + alphaByte ch x.prev ≤ _ by omega, cache⟩
  · rw [encPixelEffect_break repeated]
    have chunk := chunkFor_cost (prev := x.prev) x.idx hch solid
    have flush : (if runActive x then encode (.run x.run.toNat) else []).length = owedByte x.run := by
      unfold runActive owedByte
      by_cases none : x.run = 0
      · rw [if_pos none, none]
        rfl
      · rw [if_neg none, if_pos (bne_iff_ne.2 none)]
        rfl
    refine ⟨Nat.zero_le _, fun _ => rfl, ?_, ?_⟩
    · show _ + 0 + alphaByte ch p ≤ _
      rw [List.length_append, flush]
      omega
    · dsimp only
      split
      · exact cache
      · exact cache.write p

/-! ### The counters of a pass -/

/-- A pixel index below a count does not wrap. -/
theorem toNat_succ_of_lt {k n : Word64} (h : k.toNat < n.toNat) : (k + 1).toNat = k.toNat + 1 := by
  bv_omega

/-- An offset of `k * ch` bytes advances with the pixel index (R36). -/
theorem toNat_advance {pos k n : Word64} {ch : Byte} (hpos : pos.toNat = k.toNat * ch.toNat) (hk : k.toNat < n.toNat)
    (fits : n.toNat * ch.toNat < 2 ^ 64) : (pos + ch.setWidth 64).toNat = (k + 1).toNat * ch.toNat := by
  have width : (ch.setWidth 64).toNat = ch.toNat := BitVec.toNat_setWidth_of_le (by decide)
  have next : (k.toNat + 1) * ch.toNat ≤ n.toNat * ch.toNat := Nat.mul_le_mul_right _ hk
  rw [Nat.add_mul, Nat.one_mul] at next
  rw [BitVec.toNat_add_of_lt (by omega), toNat_succ_of_lt hk, width, hpos, Nat.add_mul, Nat.one_mul]

/-- After the last pixel the phase is FOOTER, and before it there is another pixel (R211, R253). -/
theorem phase_after_pixel {k n : Word64} (hk : k.toNat < n.toNat) :
    (k + 1 = n ∧ (if k + 1 = n then Phase.footer else .pixels) = .footer) ∨
    ((k + 1).toNat < n.toNat ∧ (if k + 1 = n then Phase.footer else .pixels) = .pixels) := by
  have next := toNat_succ_of_lt hk
  by_cases last : k + 1 = n
  · exact .inl ⟨last, if_pos last⟩
  · have : (k + 1).toNat ≠ n.toNat := fun e => last (BitVec.eq_of_toNat_eq e)
    exact .inr ⟨by omega, if_neg last⟩

/-- Width times height fits 64 bits (R37). -/
theorem toNat_pixelCount (w hgt : Word32) :
    (BitVec.ofNat 64 (w.toNat * hgt.toNat)).toNat = w.toNat * hgt.toNat := by
  have : w.toNat * hgt.toNat < 2 ^ 32 * 2 ^ 32 := Nat.mul_lt_mul'' w.isLt hgt.isLt
  rw [BitVec.toNat_ofNat]
  exact Nat.mod_eq_of_lt (by omega)

/-- A valid header names at least one pixel. -/
theorem ValidHeader.count_pos {params : Params} {l : Latches} (h : ValidHeader params l) : 0 < l.n.toNat := by
  obtain ⟨-, -, w, hgt, n, -⟩ := h
  rw [n]
  exact Nat.mul_pos (by bv_omega) (by bv_omega)

/-! ### The steps of ENC -/

/-- Registers that pass every check start a sound pass (R205). -/
theorem EncSound.afterValidate {params : Params} {x : UnitState} {lat : Latches} (clear : RegsClear x.regs)
    (header : ValidHeader params lat) (hin : lat.inLen.toNat = lat.n.toNat * lat.ch.toNat)
    (hcap : maxLen params.prevInit lat.n.toNat lat.ch.toNat ≤ lat.outCap.toNat)
    (latched : lat.w = x.regs.width ∧ lat.hgt = x.regs.height ∧ lat.ch = x.regs.channels ∧
      lat.cs = x.regs.colorspace ∧ lat.inLen = x.regs.inLen ∧ lat.outCap = x.regs.outCap) :
    EncSound params { x with
      lat := lat, prev := params.prevInit, run := 0, k := 0, ipos := 0, opos := 0, idx := cacheCleared
      phase := .header } where
  regs := RegsClear.sound clear (by simp)
  latches _ := ⟨header, hin, hcap⟩
  latched _ := latched
  input _ := by simp
  start _ := ⟨rfl, rfl, rfl, rfl, rfl⟩
  pixel e := by cases e
  last e := by cases e
  cache _ := .cleared

theorem encValidate_unitStep {s t : State} (hs : Sound s) (phase : s.enc.phase = .validate)
    (h : encValidate s = .next t) : UnitStep .enc s t := by
  obtain ⟨lat, e, i0, i1, rfl, code⟩ | ⟨hch, hcs, hw, hhgt, hmax, hin, hcap, rfl⟩ := encValidate_next h
  · exact UnitStep.of_raise (u := .enc) lat s.enc.regs hs code
  · have count := toNat_pixelCount s.enc.regs.width s.enc.regs.height
    rw [← count] at hmax hin hcap
    exact ⟨EncSound.afterValidate (hs.enc.regs.clear (by rw [phase]; rfl)) ⟨hch, hcs, hw, hhgt, count, hmax⟩ hin hcap
        ⟨rfl, rfl, rfl, rfl, rfl, rfl⟩,
      .of_validate phase rfl rfl rfl rfl rfl, hs.mem, rfl, fun _ _ => rfl, rfl, rfl⟩

/-- A write of ENC at `opos` that fits OUT is no write outside it. -/
theorem read_writeBytes_output {s : State} {bs : List Byte} {a : Nat} (run : running s.enc.phase = true)
    (fits : s.enc.opos.toNat + bs.length ≤ s.enc.lat.outCap.toNat) (h : inOutput s.enc a = false) :
    (s.mem.writeBytes (s.enc.outBase + s.enc.opos.toNat) bs).read a = s.mem.read a := by
  have outside := outside_of_not_inOutput h (passOutCap_of_running run ▸ fits)
  exact Memory.read_writeBytes_outside _ _ _ _ (by omega)

/-- The 14 header bytes are within the budget of no pixel (R203, R210). -/
theorem EncSound.afterHeader {params : Params} {x : UnitState} {pos : Word64} (h : EncSound params x)
    (phase : x.phase = .header) (hpos : pos.toNat = 14) :
    EncSound params { x with opos := pos, phase := .pixels } := by
  have run : running x.phase = true := by rw [phase]; rfl
  obtain ⟨header, hin, hcap⟩ := h.latches run
  obtain ⟨k, owed, -, prev, -⟩ := h.start phase
  have budget : streamBudget params { x with opos := pos, phase := .pixels } := by
    simp only [streamBudget_iff, hpos, owed, prev, k, maxLen_eq]
    show 14 + 0 + _ + 8 ≤ 22 + 0 * _ + _
    omega
  exact
    { regs := RegsClear.sound (h.regs.clear (busy_of_running run)) (by simp)
      latches := fun _ => ⟨header, hin, hcap⟩
      latched := fun _ => h.latched run
      input := fun _ => h.input run
      start := fun e => by cases e
      pixel := fun _ => ⟨by simp only [k]; exact header.count_pos, by simp [owed], hpos.ge, budget⟩
      last := fun e => by cases e
      cache := fun _ => h.cache run }

theorem encHeader_unitStep {s t : State} (hs : Sound s) (phase : s.enc.phase = .header)
    (h : encHeader s = .next t) : UnitStep .enc s t := by
  have run : running s.enc.phase = true := by rw [phase]; rfl
  obtain ⟨bs, hbs, fits, rfl⟩ := encHeader_next h
  obtain ⟨-, -, opos, -, -⟩ := hs.enc.start phase
  have pos : (s.enc.opos + BitVec.ofNat 64 bs.length).toNat = 14 := by
    rw [opos, hbs]
    rfl
  exact ⟨hs.enc.afterHeader phase pos, .of_running run rfl rfl rfl rfl, Memory.wf_writeBytes _ _ hs.mem, rfl,
    fun a ha => read_writeBytes_output run fits ha, rfl, rfl⟩

/-- ENC after the PIXELS step that emits and leaves `effect` (R211). -/
def encAfterPixel (x : UnitState) (effect : List Byte × UnitState) : UnitState :=
  { x with
    prev := effect.2.prev, run := effect.2.run, idx := effect.2.idx
    opos := x.opos + BitVec.ofNat 64 effect.1.length, k := x.k + 1
    ipos := x.ipos + x.lat.ch.setWidth 64
    phase := if x.k + 1 = x.lat.n then .footer else x.phase }

theorem EncSound.afterPixel {params : Params} {x : UnitState} {effect : List Byte × UnitState}
    (h : EncSound params x) (phase : x.phase = .pixels)
    (effectFits : EffectFits x.lat.ch (decide (x.k.toNat + 1 = x.lat.n.toNat)) x effect)
    (fits : x.opos.toNat + effect.1.length ≤ x.lat.outCap.toNat) : EncSound params (encAfterPixel x effect) := by
  have run : running x.phase = true := by rw [phase]; rfl
  obtain ⟨header, hin, hcap⟩ := h.latches run
  obtain ⟨hk, -, hopos, budget⟩ := h.pixel phase
  obtain ⟨owed, flushed, cost, cache⟩ := effectFits
  have next := toNat_succ_of_lt hk
  have cap := x.lat.outCap.isLt
  have opos : (encAfterPixel x effect).opos.toNat = x.opos.toNat + effect.1.length := by
    have len : (BitVec.ofNat 64 effect.1.length).toNat = effect.1.length := by
      rw [BitVec.toNat_ofNat]
      exact Nat.mod_eq_of_lt (by omega)
    rw [encAfterPixel, BitVec.toNat_add_of_lt (by omega), len]
  have budget' : streamBudget params (encAfterPixel x effect) := by
    rw [streamBudget_iff, opos]
    rw [streamBudget_iff] at budget
    simp only [encAfterPixel, next, maxLen_succ]
    omega
  have input : (encAfterPixel x effect).ipos.toNat = (x.k + 1).toNat * x.lat.ch.toNat :=
    toNat_advance (h.input run) hk (hin ▸ x.lat.inLen.isLt)
  have phases := phase_after_pixel hk
  have after : (encAfterPixel x effect).phase = if x.k + 1 = x.lat.n then .footer else .pixels := by
    rw [← phase]
    rfl
  rw [← after] at phases
  have clear : RegsClear (encAfterPixel x effect).regs := h.regs.clear (busy_of_running run)
  exact
    { regs := clear.sound (by rcases phases with ⟨-, ends⟩ | ⟨-, ends⟩ <;> simp [ends])
      latches := fun _ => ⟨header, hin, hcap⟩
      latched := fun _ => h.latched run
      input := fun _ => input
      start := fun e => by rcases phases with ⟨-, ends⟩ | ⟨-, ends⟩ <;> rw [ends] at e <;> cases e
      pixel := fun e => by
        obtain ⟨-, ends⟩ | ⟨more, -⟩ := phases
        · rw [ends] at e
          cases e
        · exact ⟨more, owed, by omega, budget'⟩
      last := fun e => by
        obtain ⟨last, -⟩ | ⟨-, ends⟩ := phases
        · exact ⟨last, flushed (decide_eq_true (by rw [← last, next])), budget'⟩
        · rw [ends] at e
          cases e
      cache := fun _ => cache }

theorem encPixel_unitStep {s t : State} (hs : Sound s) (phase : s.enc.phase = .pixels)
    (h : encPixel s = .next t) : UnitStep .enc s t := by
  have run : running s.enc.phase = true := by rw [phase]; rfl
  obtain ⟨⟨hch, -⟩, -⟩ := hs.enc.latches run
  obtain ⟨-, hrun, -⟩ := hs.enc.pixel phase
  obtain ⟨bytes, p, effect, -, read, pixel, made, fits, rfl⟩ := encPixel_next h
  have solid : s.enc.lat.ch = 3 → p.a = 255 := fun three => pixelOfBytes_opaque (by simp [read, three]) pixel
  have sound : EncSound s.params (encAfterPixel s.enc effect) :=
    hs.enc.afterPixel phase (made ▸ encPixelEffect_fits _ hch solid hrun (hs.enc.cache run)) fits
  have goes_on : running (encAfterPixel s.enc effect).phase = true := by
    simp only [encAfterPixel]
    split
    · rfl
    · exact run
  exact ⟨sound, .of_running run goes_on rfl rfl rfl, Memory.wf_writeBytes _ _ hs.mem, rfl,
    fun a ha => read_writeBytes_output run fits ha, rfl, rfl⟩

theorem encFooter_unitStep {s t : State} (hs : Sound s) (phase : s.enc.phase = .footer)
    (h : encFooter s = .next t) : UnitStep .enc s t := by
  have run : running s.enc.phase = true := by rw [phase]; rfl
  have clear := hs.enc.regs.clear (busy_of_running run)
  obtain ⟨fits, rfl⟩ := encFooter_next h
  refine ⟨.of_not_running (RegsSound.completePass _ _ clear) rfl, .of_not_busy rfl,
    Memory.wf_drawCovered _ _ _ _ (Memory.wf_writeBytes _ _ hs.mem), rfl, fun a ha => ?_, rfl, rfl⟩
  have len : (s.enc.opos + 8).toNat ≤ s.enc.lat.outCap.toNat := by bv_omega
  have outside := outside_of_not_inOutput ha (passOutCap_of_running run ▸ len)
  calc _ = (s.mem.writeBytes (s.enc.outBase + s.enc.opos.toNat) endMarker).read a :=
        Memory.read_drawCovered_outside _ _ _ _ _ _ (outside.imp_right .inl)
    _ = s.mem.read a := read_writeBytes_output run fits ha

theorem encStep_unitStep {s t : State} (hs : Sound s) (h : encStep s = .next t) : UnitStep .enc s t := by
  unfold encStep at h
  cases phase : s.enc.phase <;> rw [phase] at h
  case idle | done | error => cases h; exact .refl _ hs
  case validate => exact encValidate_unitStep hs phase h
  case header => exact encHeader_unitStep hs phase h
  case pixels => exact encPixel_unitStep hs phase h
  case footer => exact encFooter_unitStep hs phase h

end Sys2Proof.Safety
end

section
/-! PROOF. The steps of DEC keep the invariant (spec/43_decoder.md R240 to R262): what every chunk keeps, then one lemma
for each step. -/

namespace Sys2Proof.Machine

open Sys2Proof.Safety

/-! ### What the decoder's answer bounds -/

/-- No bytes decode to no chunk (R252). -/
theorem length_pos_of_decode {bs rest : List Byte} {i : Instr} (h : decode bs = .ok i rest) : 0 < bs.length := by
  cases bs with
  | nil => cases h
  | cons _ _ => exact Nat.succ_pos _

/-- The two run lengths past 62 are the literal tags (R107, R110). -/
theorem lowSix_le_of_not_literal : ∀ b1 : Byte, b1 ≠ 0xFE → b1 ≠ 0xFF → tagOf b1 ≠ 0b00 → tagOf b1 ≠ 0b01 →
    tagOf b1 ≠ 0b10 → (lowSix b1).toNat ≤ 61 := by decide

/-- A decoded RUN is one that R108 allows. -/
theorem run_le_of_decode {bs rest : List Byte} {len : Nat} (h : decode bs = .ok (.run len) rest) : len ≤ 62 := by
  unfold decode at h
  split at h
  · cases h
  rename_i b1 _
  split at h
  · split at h <;> cases h
  rename_i rgb
  split at h
  · split at h <;> cases h
  rename_i rgba
  split at h
  · cases h
  rename_i index
  split at h
  · cases h
  rename_i diff
  split at h
  · split at h <;> cases h
  rename_i luma
  have low := lowSix_le_of_not_literal b1 rgb rgba index diff luma
  cases h
  omega

end Sys2Proof.Machine

namespace Sys2Proof.Safety

open Sys2Proof.Machine

/-! ### What every pixel step of DEC keeps -/

/-- A pixel step of DEC whose bytes lie in IN and that keeps the bounds on the run counter, the cache and storage. -/
structure SoundPixelStep (s t : State) : Prop where
  made : ∃ len px, PixelStep s t len px ∧ s.dec.ipos.toNat + len ≤ s.dec.lat.inLen.toNat
  owed : t.dec.run.toNat ≤ 61
  cache : CacheSound t.dec.idx
  mem : t.mem.wf = true

/-- The end of a pixel step, reached with `ipos`, the cache, the run counter and `prev` replaced. -/
theorem SoundPixelStep.of_finishPixel {px : Pixel} {s u t : State} {len : Nat} {idx : Cache} {run : BitVec 6}
    {prev : Pixel} (h : finishPixel px u = .next t)
    (hu : u = { s with dec := { s.dec with
      ipos := s.dec.ipos + BitVec.ofNat 64 len, idx := idx, run := run, prev := prev } })
    (fits : s.dec.ipos.toNat + len ≤ s.dec.lat.inLen.toNat) (owed : run.toNat ≤ 61) (cache : CacheSound idx)
    (mem : s.mem.wf = true) : SoundPixelStep s t := by
  obtain ⟨made, -, hidx, hrun⟩ := finishPixel_pixelStep h hu
  obtain ⟨-, bs, -, ht⟩ := finishPixel_next h
  refine ⟨⟨len, px, made, fits⟩, hrun ▸ owed, hidx ▸ cache, ?_⟩
  rw [ht, hu]
  exact Memory.wf_writeBytes _ _ mem

section Chunks

variable {s t : State} (owed : s.dec.run.toNat ≤ 61) (cache : CacheSound s.dec.idx) (mem : s.mem.wf = true)

include owed cache mem

/-- A chunk that takes its pixel, with or without a cache WRITE. -/
theorem SoundPixelStep.of_takeChunk {px : Pixel} {len : Nat} {write : Bool}
    (h : finishPixel px (takeChunk len write px s) = .next t)
    (fits : s.dec.ipos.toNat + len ≤ s.dec.lat.inLen.toNat) : SoundPixelStep s t := by
  refine .of_finishPixel h rfl fits owed ?_ mem
  split
  · exact cache.write px
  · exact cache

/-- A chunk of more than one byte raises, or makes a sound pixel step. -/
theorem longChunk_raises_or_sound {px : Pixel} {len : Nat} (h : longChunk len px s = .next t) :
    t = raiseDecoding .unexpectedBufferEnd s ∨ SoundPixelStep s t := by
  obtain ⟨-, raised⟩ | ⟨fits, made⟩ := longChunk_next h
  · exact .inl raised
  · exact .inr (.of_takeChunk owed cache mem made fits)

/-- Every chunk whose first byte lies in IN raises, or makes a sound pixel step. -/
theorem exec_raises_or_sound {i : Instr} (h : exec i s = .next t)
    (first : s.dec.ipos.toNat + 1 ≤ s.dec.lat.inLen.toNat) (run : ∀ len, i = .run len → len ≤ 62) :
    t = raiseDecoding .unexpectedBufferEnd s ∨ SoundPixelStep s t := by
  cases i with
  | rgb r g b => exact longChunk_raises_or_sound owed cache mem (px := ⟨r, g, b, s.dec.prev.a⟩) h
  | rgba r g b a => exact longChunk_raises_or_sound owed cache mem (px := ⟨r, g, b, a⟩) h
  | index slot => exact .inr (.of_takeChunk owed cache mem h first)
  | diff dr dg db => exact .inr (.of_takeChunk owed cache mem h first)
  | luma dg drg dbg => exact longChunk_raises_or_sound owed cache mem h
  | run len =>
    have short := run len rfl
    have rest : (BitVec.ofNat 6 (len - 1)).toNat ≤ 61 := by
      rw [BitVec.toNat_ofNat]
      omega
    exact .inr (.of_finishPixel h rfl first rest cache mem)

/-- PIXELS of DEC raises, or makes a sound pixel step (R250 to R252). -/
theorem decPixel_raises_or_sound (h : decPixel s = .next t) (input : s.dec.ipos.toNat ≤ s.dec.lat.inLen.toNat) :
    t = raiseDecoding .unexpectedBufferEnd s ∨ SoundPixelStep s t := by
  unfold decPixel at h
  split at h
  · rename_i active
    have fewer : (s.dec.run - 1).toNat ≤ 61 := by
      have : s.dec.run ≠ 0 := by simpa [runActive] using active
      bv_omega
    exact .inr (.of_finishPixel (len := 0) h (by rw [BitVec.add_zero]) input fewer cache mem)
  split at h
  · rename_i i rest decoded
    have first := length_pos_of_decode decoded
    rw [chunkWindow, length_inBytes] at first
    exact exec_raises_or_sound owed cache mem h (by omega) fun len e => run_le_of_decode (e ▸ decoded)
  · exact .inl (Host.Outcome.next.inj h).symm
  · exact .inl (Host.Outcome.next.inj h).symm

end Chunks

/-! ### The steps of DEC -/

/-- A header that passes every check starts a sound pass (R244, R247). -/
theorem DecSound.afterValidate {params : Params} {x : UnitState} {lat : Latches} (clear : RegsClear x.regs)
    (header : ValidHeader params lat) (hcap : lat.n.toNat * lat.ch.toNat ≤ lat.outCap.toNat)
    (hin : 22 ≤ lat.inLen.toNat) (inLen : lat.inLen = x.regs.inLen) (outCap : lat.outCap = x.regs.outCap) :
    DecSound params { x with
      lat := lat
      regs := { x.regs with width := lat.w, height := lat.hgt, channels := lat.ch, colorspace := lat.cs }
      prev := params.prevInit, run := 0, k := 0, ipos := 14, opos := 0, idx := cacheCleared, phase := .pixels } where
  regs := RegsClear.sound ⟨clear.errCode, clear.errInfo0, clear.errInfo1, clear.outLen, clear.inUsed⟩ (by simp)
  noHeader := by simp
  latches _ := ⟨header, hcap⟩
  latched _ := ⟨rfl, rfl, rfl, rfl, inLen, outCap⟩
  output _ := by simp
  input _ := ⟨le_rfl, (show 14 ≤ 22 by decide).trans hin⟩
  pixel _ := header.count_pos
  owed _ := Nat.zero_le _
  last e := by cases e
  cache _ := .cleared

theorem decValidate_unitStep {s t : State} (hs : Sound s) (phase : s.dec.phase = .validate)
    (h : decValidate s = .next t) : UnitStep .dec s t := by
  obtain ⟨lat, regs, e, i0, i1, rfl, code⟩ | ⟨w, hgt, ch, cs, hin, -, hch, hcs, hw, hhgt, hmax, hcap, rfl⟩ :=
    decValidate_next h
  · have raised : errorCode e ∈ raisedBy .dec := by
      revert code
      cases e <;> decide
    exact UnitStep.of_raise (u := .dec) lat regs hs raised
  · have count := toNat_pixelCount w hgt
    rw [← count] at hmax hcap
    exact ⟨DecSound.afterValidate
        (lat := { w := w, hgt := hgt, ch := ch, cs := cs, n := BitVec.ofNat 64 (w.toNat * hgt.toNat)
                  inLen := s.dec.regs.inLen, outCap := s.dec.regs.outCap })
        (hs.dec.regs.clear (by rw [phase]; rfl)) ⟨hch, hcs, hw, hhgt, count, hmax⟩ hcap hin
        rfl rfl,
      .of_validate phase rfl rfl rfl rfl rfl, hs.mem, rfl, fun _ _ => rfl, rfl, rfl⟩

/-- In a sound pass the pixels up to index `k` lie in OUT. -/
theorem DecSound.written_le {params : Params} {x : UnitState} {k : Nat} (h : DecSound params x)
    (run : running x.phase = true) (hk : k ≤ x.lat.n.toNat) : k * x.lat.ch.toNat ≤ x.lat.outCap.toNat :=
  (Nat.mul_le_mul_right _ hk).trans (h.latches run).2

/-- An error of a PIXELS or FOOTER step: the bytes that become free are those that the pass has written (R88). -/
theorem UnitStep.of_raiseDecoding {s : State} {e : PassError} (hs : Sound s) (run : running s.dec.phase = true)
    (hk : s.dec.k.toNat ≤ s.dec.lat.n.toNat) (code : errorCode e ∈ raisedBy .dec) :
    UnitStep .dec s (raiseDecoding e s) := by
  have raised := raiseDecoding_raised e s
  have sound : UnitSound .dec s.params (raiseDecoding e s).dec := by
    rw [raised.dec]
    exact .of_not_running (.of_error rfl code rfl rfl) rfl
  have ended : busy (raiseDecoding e s).dec.phase = false := by rw [raised.dec]; rfl
  have wf : (raiseDecoding e s).mem.wf = true := by
    rw [raiseDecoding_eq]
    exact Memory.wf_drawBytes _ _ _ hs.mem
  exact ⟨sound, .of_not_busy ended, wf, raised.enc,
    fun a ha => raised.unstored a (outside_of_not_inOutput ha (passOutCap_of_running run ▸ hs.dec.written_le run hk)),
    raised.outside.1, raised.outside.2.1⟩

/-- A sound pixel step keeps DEC's invariant. -/
theorem DecSound.afterPixel {s t : State} (h : DecSound s.params s.dec) (phase : s.dec.phase = .pixels)
    (kept : SoundPixelStep s t) : DecSound s.params t.dec := by
  have run : running s.dec.phase = true := by rw [phase]; rfl
  obtain ⟨header, hcap⟩ := h.latches run
  obtain ⟨low, -⟩ := h.input run
  obtain ⟨⟨len, px, made, fits⟩, owed, cache, -⟩ := kept
  have hk := h.pixel phase
  have count := hcap.trans_lt s.dec.lat.outCap.isLt
  have opos : t.dec.opos.toNat = t.dec.k.toNat * t.dec.lat.ch.toNat := by
    rw [made.opos, made.k, made.lat]
    exact toNat_advance (h.output run) hk count
  have ipos : t.dec.ipos.toNat = s.dec.ipos.toNat + len := by
    have cap := s.dec.lat.inLen.isLt
    have small : (BitVec.ofNat 64 len).toNat = len := by
      rw [BitVec.toNat_ofNat]
      exact Nat.mod_eq_of_lt (by omega)
    rw [made.ipos, BitVec.toNat_add_of_lt (by omega), small]
  have phases := phase_after_pixel hk
  rw [← phase, ← made.phase, phase, ← made.k, ← made.lat] at phases
  have clear : RegsClear t.dec.regs := made.regs ▸ h.regs.clear (busy_of_running run)
  exact
    { regs := clear.sound (by rcases phases with ⟨-, ends⟩ | ⟨-, ends⟩ <;> simp [ends])
      noHeader := by rcases phases with ⟨-, ends⟩ | ⟨-, ends⟩ <;> simp [ends]
      latches := fun _ => by rw [made.lat]; exact ⟨header, hcap⟩
      latched := fun _ => by rw [made.lat, made.regs]; exact h.latched run
      output := fun _ => opos
      input := fun _ => by rw [made.lat, ipos]; omega
      pixel := fun e => by
        obtain ⟨-, ends⟩ | ⟨more, -⟩ := phases
        · rw [ends] at e
          cases e
        · exact more
      owed := fun _ => owed
      last := fun e => by
        obtain ⟨last, -⟩ | ⟨-, ends⟩ := phases
        · exact last
        · rw [ends] at e
          cases e
      cache := fun _ => cache }

theorem decPixel_unitStep {s t : State} (hs : Sound s) (phase : s.dec.phase = .pixels)
    (h : decPixel s = .next t) : UnitStep .dec s t := by
  have run : running s.dec.phase = true := by rw [phase]; rfl
  have hk := hs.dec.pixel phase
  obtain rfl | kept := decPixel_raises_or_sound (hs.dec.owed run) (hs.dec.cache run) hs.mem h (hs.dec.input run).2
  · exact .of_raiseDecoding hs run hk.le (by decide)
  obtain ⟨len, px, made, -⟩ := kept.made
  have goes_on : running t.dec.phase = true := by
    rw [made.phase]
    split
    · rfl
    · exact run
  refine ⟨hs.dec.afterPixel phase kept, .of_running run goes_on made.lat made.binding.1 made.binding.2.1, kept.mem,
    made.enc, fun a ha => made.unstored a ?_, made.outside.1, made.outside.2.1⟩
  have room := hs.dec.written_le run (Nat.succ_le_of_lt hk)
  rw [Nat.succ_mul] at room
  have outside := outside_of_not_inOutput ha (passOutCap_of_running run ▸ room)
  unfold pixelAddress
  simp only [State.unit_dec] at outside
  omega

theorem decFooter_unitStep {s t : State} (hs : Sound s) (phase : s.dec.phase = .footer)
    (h : decFooter s = .next t) : UnitStep .dec s t := by
  have run : running s.dec.phase = true := by rw [phase]; rfl
  have clear := hs.dec.regs.clear (busy_of_running run)
  obtain rfl | ⟨-, -, rfl⟩ := decFooter_next h
  · exact .of_raiseDecoding hs run (by rw [hs.dec.last phase]) (by decide)
  refine ⟨.of_not_running (RegsSound.completePass _ _ clear) rfl, .of_not_busy rfl,
    Memory.wf_drawCovered _ _ _ _ hs.mem, rfl, fun a ha => ?_, rfl, rfl⟩
  have len : (BitVec.ofNat 64 (s.dec.lat.n.toNat * s.dec.lat.ch.toNat)).toNat ≤ s.dec.lat.outCap.toNat :=
    (BitVec.toNat_ofNat _ _ ▸ Nat.mod_le _ _).trans (hs.dec.latches run).2
  have outside := outside_of_not_inOutput ha (passOutCap_of_running run ▸ len)
  exact Memory.read_drawCovered_outside _ _ _ _ _ _ (outside.imp_right .inl)

theorem decStep_unitStep {s t : State} (hs : Sound s) (h : decStep s = .next t) : UnitStep .dec s t := by
  unfold decStep at h
  cases phase : s.dec.phase <;> rw [phase] at h
  case idle | done | error => cases h; exact .refl _ hs
  case validate => exact decValidate_unitStep hs phase h
  case header => cases h
  case pixels => exact decPixel_unitStep hs phase h
  case footer => exact decFooter_unitStep hs phase h

end Sys2Proof.Safety
end

section
/-! PROOF. The host's register interface (spec/10_state.md R50 to R54, spec/70_reset_and_hazards.md R330, R333): one
rule for each access, then the statements about reads, writes and START. -/

namespace Sys2Proof.Machine

/-! ### The host's oldest action -/

theorem step_hostDo {s : State} {a : HostAction} {rest : List HostAction} (ha : nextAgent s = .host)
    (hin : s.hostIn = a :: rest) : step s = hostDo a { afterChoice s with hostIn := rest } := by
  rw [step_host ha, hostStep, afterChoice_hostIn, hin]

theorem unit_popped_afterChoice (s : State) (rest : List HostAction) (u : UnitId) :
    ({ afterChoice s with hostIn := rest } : State).unit u = s.unit u := by
  rw [unit_popped, afterChoice_unit]

/-! ### Writes -/

theorem setUnit_unit (s : State) (u : UnitId) : s.setUnit u (s.unit u) = s := by cases u <;> rfl

/-- Which field a register number writes, and in what width (R50, R53). -/
theorem writtenRegs_eq (u : UnitId) (reg : Nat) (v : Word64) (r : Regs) : writtenRegs u reg v r = { r with
    width := if u = .enc ∧ reg = 5 then v.setWidth 32 else r.width
    height := if u = .enc ∧ reg = 6 then v.setWidth 32 else r.height
    channels := if u = .enc ∧ reg = 7 then v.setWidth 8 else r.channels
    colorspace := if u = .enc ∧ reg = 8 then v.setWidth 8 else r.colorspace
    inLen := if reg = 9 then v else r.inLen
    outCap := if reg = 10 then v else r.outCap } := by
  cases u with
  | enc => unfold writtenRegs; split <;> simp_all
  | dec => unfold writtenRegs; split <;> simp_all

/-- A BUSY unit ignores a register write (R52, R53). -/
theorem hostWriteReg_of_busy {u : UnitId} {s : State} (reg : Nat) (v : Word64) (h : busy (s.unit u).phase = true) :
    hostWriteReg u reg v s = .next s := by
  unfold hostWriteReg
  split
  · exact if_pos (.inr h)
  · exact if_pos h

/-- A unit that is not BUSY stores a register write that is no START (R52, R53). -/
theorem hostWriteReg_of_idle {u : UnitId} {reg : Nat} {v : Word64} {s : State} (h : busy (s.unit u).phase = false)
    (noStart : reg ≠ 0 ∨ v.getLsbD 0 = false) : hostWriteReg u reg v s =
      .next (s.setUnit u { s.unit u with regs := writtenRegs u reg v (s.unit u).regs }) := by
  unfold hostWriteReg
  split
  · rename_i ctrl
    subst ctrl
    have none : writtenRegs u 0 v (s.unit u).regs = (s.unit u).regs := by cases u <;> rfl
    rw [none, setUnit_unit]
    exact if_pos (.inl (noStart.resolve_left (absurd rfl)))
  · exact if_neg (by simp [h])

/-- Settles O39: CTRL and every other register number refuse the write by the same test of BUSY. -/
theorem writesWhileBusyHaveNoEffect : Obligations.WritesWhileBusyHaveNoEffect := by
  intro u reg v s rest ha hin hbusy
  rw [step_hostDo ha hin]
  exact hostWriteReg_of_busy reg v (by rwa [unit_popped_afterChoice])

/-- Settles O40: the write is done, and the fields it can reach are those of `writtenRegs_eq`. -/
theorem writesWhileIdleStoreInWidth : Obligations.WritesWhileIdleStoreInWidth := by
  intro u reg v s rest ha hin hidle noStart
  refine ⟨_, (step_hostDo ha hin).trans (hostWriteReg_of_idle (by rwa [unit_popped_afterChoice]) noStart),
    by simp, by simp, by simp, by simp, by simp, ?_, ?_⟩
  · rw [State.unit_setUnit_other, unit_popped_afterChoice]
  · rw [State.unit_setUnit, unit_popped_afterChoice, writtenRegs_eq]

/-! ### START -/

/-- Two windows meet when an address lies in both. -/
theorem windowsMeet_eq_false {a m b l : Nat} :
    windowsMeet a m b l = false ↔ ∀ x, (a ≤ x ∧ x < a + m) → ¬(b ≤ x ∧ x < b + l) := by
  simp only [windowsMeet, decide_eq_false_iff_not]
  constructor
  · intro apart x _ _
    omega
  · intro apart meet
    exact apart (max a b) (by omega) (by omega)

theorem windowsMeet_comm (a m b l : Nat) : windowsMeet a m b l = windowsMeet b l a m := by
  rw [windowsMeet, windowsMeet, max_comm, min_comm]

/-- When a launch keeps R73. -/
theorem launchHazard_eq_false {u : UnitId} {s : State} : launchHazard u s = false ↔
    windowsMeet (s.unit u).inBase (s.unit u).regs.inLen.toNat (s.unit u).outBase (s.unit u).regs.outCap.toNat = false ∧
    (busy (s.unit (otherUnit u)).phase = true →
      windowsMeet (s.unit u).outBase (s.unit u).regs.outCap.toNat (s.unit (otherUnit u)).inBase
        (passInLen (s.unit (otherUnit u))) = false ∧
      windowsMeet (s.unit u).outBase (s.unit u).regs.outCap.toNat (s.unit (otherUnit u)).outBase
        (passOutCap (s.unit (otherUnit u))) = false ∧
      windowsMeet (s.unit u).inBase (s.unit u).regs.inLen.toNat (s.unit (otherUnit u)).outBase
        (passOutCap (s.unit (otherUnit u))) = false) := by
  simp only [launchHazard, Bool.or_eq_false_iff, Bool.and_eq_false_imp, and_assoc]

/-- A START that breaks no rule is accepted (R52). -/
theorem hostWriteReg_start {u : UnitId} {v : Word64} {s : State} (start : v.getLsbD 0 = true)
    (idle : busy (s.unit u).phase = false) (apart : launchHazard u s = false) :
    hostWriteReg u 0 v s = .next (startPass u s) := by
  simp [hostWriteReg, hostWriteCtrl, start, idle, apart]

/-- Settles O38: addresses apart are windows apart, so the launch is no hazard, and START is accepted. -/
theorem startBeginsPass : Obligations.StartBeginsPass := by
  rintro u v s rest x y ha hin start rfl rfl idle own shared
  have apart : launchHazard u { afterChoice s with hostIn := rest } = false := by
    rw [launchHazard_eq_false]
    simp only [unit_popped_afterChoice, windowsMeet_eq_false]
    refine ⟨own, fun running => ⟨fun a out => ?_, fun a out => ?_, fun a inside => ?_⟩⟩
    · exact of_decide_eq_false ((shared running a).1 out).1
    · exact of_decide_eq_false ((shared running a).1 out).2
    · exact of_decide_eq_false ((shared running a).2 inside)
  refine ⟨_, (step_hostDo ha hin).trans (hostWriteReg_start start (by rwa [unit_popped_afterChoice]) apart),
    by simp, by simp, by simp, by simp, by simp, ?_, fun a => ?_, ?_⟩
  · rw [startPass_unit_other, unit_popped_afterChoice]
  · rw [startPass_unit]
    show covered (windowsWithout _ _) a = _
    rw [covered_windowsWithout, unit_popped_afterChoice]
    simp
  · rw [startPass_unit, unit_popped_afterChoice, unit_popped_afterChoice]
    cases u <;> rfl

/-! ### Reads -/

theorem step_readReg {u : UnitId} {reg : Nat} {s t : State} {rest : List HostAction} (ha : nextAgent s = .host)
    (hin : s.hostIn = .readReg u reg :: rest) (read : hostReadReg u reg { afterChoice s with hostIn := rest } = t) :
    step s = .next t :=
  (step_hostDo ha hin).trans (congrArg Host.Outcome.next read)

/-- The registers that R54 exempts. -/
theorem unspecifiedWhileBusy_iff {u : UnitId} {reg : Nat} :
    unspecifiedWhileBusy u reg = true ↔ reg ∈ [3, 4, 11, 12] ∨ (u = .dec ∧ reg ∈ [5, 6, 7, 8]) := by
  unfold unspecifiedWhileBusy
  split <;> simp_all

/-- Numbers from 13 on are no register (R50). -/
theorem regValue_of_ge {x : UnitState} {reg : Nat} (h : 13 ≤ reg) : regValue x reg = 0 := by
  obtain ⟨n, rfl⟩ := Nat.exists_eq_add_of_le' h
  rfl

/-- A register that R54 does not exempt is read (R50, R54). -/
theorem hostReadReg_of_specified {u : UnitId} {reg : Nat} {s : State}
    (h : ¬(busy (s.unit u).phase = true ∧ unspecifiedWhileBusy u reg = true)) :
    hostReadReg u reg s =
      { noteStatusRead u reg s with hostOut := s.hostOut ++ [regValue (s.unit u) reg] } := if_neg h

/-- What a BUSY unit answers to a read of STATUS or of a register that R54 exempts: nothing of the unit's. -/
def busyRead (d reg : Nat) : Word64 := if reg = 1 then 1 else freeReg d reg

theorem hostReadReg_of_busy {u : UnitId} {reg : Nat} {s : State} (h : busy (s.unit u).phase = true)
    (free : unspecifiedWhileBusy u reg = true ∨ reg = 1) :
    ∃ d, hostReadReg u reg s = { s with hostOut := s.hostOut ++ [busyRead s.draws reg], draws := d } := by
  by_cases status : reg = 1
  · subst status
    have unended : ¬(1 = 1 ∧ ((s.unit u).phase = .done ∨ (s.unit u).phase = .error)) := by
      rintro ⟨-, e | e⟩ <;> rw [e] at h <;> cases h
    have value : regValue (s.unit u) 1 = busyRead s.draws 1 := by
      have code : statusCode (s.unit u).phase = 1 := by simpa [busy] using h
      rw [regValue, code]
      rfl
    refine ⟨s.draws, ?_⟩
    rw [hostReadReg_of_specified (by cases u <;> simp [unspecifiedWhileBusy]), value, noteStatusRead, if_neg unended]
  · refine ⟨s.draws + 1, ?_⟩
    rw [hostReadReg, if_pos ⟨h, free.resolve_right status⟩, busyRead, if_neg status]

/-- Settles O42: both states answer `busyRead` at the same draw counter. -/
theorem readsWhileBusyAreFree : Obligations.ReadsWhileBusyAreFree := by
  intro u reg s s' rest rest' ha ha' draws hin hin' hbusy hbusy' free
  rw [← or_assoc, ← unspecifiedWhileBusy_iff] at free
  obtain ⟨d, read⟩ := hostReadReg_of_busy (s := { afterChoice s with hostIn := rest })
    (by rwa [unit_popped_afterChoice]) free
  obtain ⟨d', read'⟩ := hostReadReg_of_busy (s := { afterChoice s' with hostIn := rest' })
    (by rwa [unit_popped_afterChoice]) free
  refine ⟨_, _, busyRead (afterChoice s).draws reg, step_readReg ha hin read,
    step_readReg ha' hin' read', by simp, by simp [draws], fun status => if_pos status, by simp,
    by simp, by simp⟩

/-- A read of STATUS that returns DONE or ERROR closes the unit's pass (R83). -/
theorem noteStatusRead_of_ended {u : UnitId} {s : State}
    (ended : (s.unit u).phase = .done ∨ (s.unit u).phase = .error) :
    noteStatusRead u 1 s = s.setUnit u { s.unit u with awaited := false, unseen := [] } := if_pos ⟨rfl, ended⟩

/-- Every other read notes nothing. -/
theorem noteStatusRead_of_other {u : UnitId} {reg : Nat} {s : State}
    (other : ¬(reg = 1 ∧ ((s.unit u).phase = .done ∨ (s.unit u).phase = .error))) : noteStatusRead u reg s = s :=
  if_neg other

/-- A read changes nothing of the block but those notes (R54). -/
theorem noteStatusRead_frame (u : UnitId) (reg : Nat) (s : State) :
    (noteStatusRead u reg s).mem = s.mem ∧ (noteStatusRead u reg s).contested = s.contested ∧
    (noteStatusRead u reg s).params = s.params ∧ (noteStatusRead u reg s).hostIn = s.hostIn := by
  obtain ⟨-, -, e⟩ | ⟨-, e⟩ := noteStatusRead_cases u reg s <;> simp [e]

/-- An answer to the host leaves the units alone. -/
theorem unit_answered (s : State) (out : List Word64) (u : UnitId) :
    ({ s with hostOut := out } : State).unit u = s.unit u := by cases u <;> rfl

/-- Settles O41: the value is the register's, and the notes of the order are those of `noteStatusRead`. -/
theorem readsWhileIdleReturnTheRegister : Obligations.ReadsWhileIdleReturnTheRegister := by
  intro u reg s rest ha hin specified
  have read := hostReadReg_of_specified (u := u) (reg := reg) (s := { afterChoice s with hostIn := rest }) (by
    rw [unit_popped_afterChoice, unspecifiedWhileBusy_iff]
    rintro ⟨isBusy, exempt⟩
    rcases specified with idle | other
    · rw [idle] at isBusy
      cases isBusy
    · exact other exempt)
  rw [unit_popped_afterChoice] at read
  obtain ⟨mem, contested, params, hostIn⟩ := noteStatusRead_frame u reg { afterChoice s with hostIn := rest }
  refine ⟨_, regValue (s.unit u) reg, step_readReg ha hin read, hostIn, by simp, mem.trans (by simp),
    contested.trans (by simp), params.trans (by simp), fun other => ?_, fun status ended => ?_, ?_⟩
  · have e := noteStatusRead_of_other (u := u) (reg := reg) (s := { afterChoice s with hostIn := rest })
      (by rwa [unit_popped_afterChoice])
    exact ⟨(congrArg State.enc e).trans (afterChoice_enc s), (congrArg State.dec e).trans (afterChoice_dec s)⟩
  · subst status
    have e := noteStatusRead_of_ended (u := u) (s := { afterChoice s with hostIn := rest })
      (by rwa [unit_popped_afterChoice])
    constructor
    · rw [unit_answered, e, State.unit_setUnit, unit_popped_afterChoice]
    · rw [unit_answered, e, State.unit_setUnit_other, unit_popped_afterChoice]
  have wide : ∀ {w : Nat} (b : BitVec w), w ≤ 64 → (b.setWidth 64).toNat = b.toNat :=
    fun _ h => BitVec.toNat_setWidth_of_le h
  refine ⟨?_, ?_, ?_, ?_, ?_, ?_, ?_, ?_, ?_, ?_, ?_, ?_, ?_, ?_, ?_, ?_, regValue_of_ge⟩
  · rintro rfl; rfl
  · rintro rfl idle
    simp [regValue, idle, statusCode]
  · rintro rfl running
    simp [regValue, eq_of_beq running]
  · rintro rfl done
    simp [regValue, done, statusCode]
  · rintro rfl error
    simp [regValue, error, statusCode]
  · rintro rfl; exact wide _ (by decide)
  · rintro rfl; rfl
  · rintro rfl; rfl
  · rintro rfl; exact wide _ (by decide)
  · rintro rfl; exact wide _ (by decide)
  · rintro rfl; exact wide _ (by decide)
  · rintro rfl; exact wide _ (by decide)
  · rintro rfl; rfl
  · rintro rfl; rfl
  · rintro rfl; rfl
  · rintro rfl; rfl

end Sys2Proof.Machine
end

section
/-! PROOF. The host's steps keep the invariant, and with the steps of the units every step does (spec R34 to R37, R51,
R52, R55, R73, R143, R203); and a unit's step reaches nothing of the other unit and no byte outside its OUT (R30, R31,
R71). -/

namespace Sys2Proof.Safety

open Sys2Proof.Machine

/-! ### The host's steps -/

/-- A register write reaches no error and no result register (R50). -/
theorem RegsSound.writtenRegs {raised : List Byte} {x : UnitState} (h : RegsSound raised x) (u : UnitId) (reg : Nat)
    (v : Word64) : RegsSound raised { x with regs := writtenRegs u reg v x.regs } := by
  rw [writtenRegs_eq]
  exact ⟨h.noError, h.error, h.noResult⟩

/-- A launch that is no hazard puts the buffers of its pass apart from the other unit's (R73). -/
theorem BuffersApart.startPass {u : UnitId} {s : State} (h : BuffersApart s) (apart : launchHazard u s = false) :
    BuffersApart (startPass u s) := by
  obtain ⟨own, shared⟩ := launchHazard_eq_false.1 apart
  cases u with
  | enc =>
    exact ⟨fun _ => own, h.dec, fun _ running =>
      have ⟨outIn, outOut, inOut⟩ := shared running
      ⟨outOut, outIn, inOut⟩⟩
  | dec =>
    exact ⟨h.enc, fun _ => own, fun running _ =>
      have ⟨outIn, outOut, inOut⟩ := shared running
      ⟨windowsMeet_comm .. ▸ outOut, windowsMeet_comm .. ▸ inOut, windowsMeet_comm .. ▸ outIn⟩⟩

theorem Sound.startPass {u : UnitId} {s : State} (h : Sound s) (apart : launchHazard u s = false) :
    Sound (startPass u s) := by
  have started : UnitSound u s.params ((Machine.startPass u s).unit u) :=
    .of_not_running (RegsClear.sound (by rw [startPass_unit]; exact .startRegs u _) (by simp))
      (by rw [startPass_unit]; rfl)
  cases u with
  | enc => exact ⟨h.mem, started, h.dec, h.apart.startPass apart⟩
  | dec => exact ⟨h.mem, h.enc, started, h.apart.startPass apart⟩

theorem Sound.hostReadReg {s : State} (h : Sound s) (u : UnitId) (reg : Nat) : Sound (hostReadReg u reg s) := by
  obtain ⟨b1, b2, ws1, ws2, out, d, e⟩ := hostReadReg_eq u reg s
  rw [e]
  exact ⟨h.mem, UnitSound.with_notes (u := .enc) h.enc b1 ws1, UnitSound.with_notes (u := .dec) h.dec b2 ws2,
    h.apart.of_kept (.refl _) (.refl _)⟩

theorem Sound.hostReadMem {s : State} (h : Sound s) (a : Nat) : Sound (hostReadMem a s) := by
  unfold Machine.hostReadMem
  split
  · exact h.of_fields h.mem rfl rfl rfl
  · exact h.of_fields h.mem rfl rfl rfl

theorem wf_drawRunningOutput {s : State} (x : UnitState) (h : s.mem.wf = true) :
    (drawRunningOutput x s).mem.wf = true := by
  unfold drawRunningOutput
  split
  · exact Memory.wf_drawBytes _ _ _ h
  · exact h

theorem UnitSound.resetUnit (u : UnitId) (params : Params) (d : Nat) (x : UnitState) :
    UnitSound u params (resetUnit d x) :=
  .of_not_running (RegsClear.sound ⟨rfl, rfl, rfl, rfl, rfl⟩ (by simp [Machine.resetUnit])) rfl

theorem Sound.hardwareReset {s : State} (h : Sound s) : Sound (hardwareReset s) :=
  ⟨wf_drawRunningOutput _ (wf_drawRunningOutput _ h.mem), UnitSound.resetUnit .enc _ _ _,
    UnitSound.resetUnit .dec _ _ _, h.apart.of_kept (.of_not_busy rfl) (.of_not_busy rfl)⟩

theorem hostStep_sound {s t : State} (hs : Sound s) (h : hostStep s = .next t) : Sound t := by
  have popped : ∀ rest, Sound { s with hostIn := rest } := fun _ => hs.of_fields hs.mem rfl rfl rfl
  cases hostStep_next h with
  | none _ e => exact e ▸ hs
  | readReg u reg rest _ e => exact e ▸ (popped rest).hostReadReg u reg
  | start u v rest _ _ _ apart e =>
    refine e ▸ (popped rest).startPass ?_
    rw [← apart]
    simp only [launchHazard, unit_popped]
  | ignored u reg v rest _ e => exact e ▸ popped rest
  | writeReg u reg v rest _ _ idle e =>
    exact e ▸ (popped rest).setUnit
      (.of_not_running ((hs.unit u).regs.writtenRegs u reg v) (not_running_of_not_busy idle)) (.of_not_busy idle)
  | readMem a rest _ e => exact e ▸ (popped rest).hostReadMem a
  | writeMem a v rest _ _ e => exact e ▸ hs.of_fields (Memory.wf_write a v hs.mem) rfl rfl rfl
  | bind u a b rest _ closed e =>
    have idle : busy (s.unit u).phase = false := (Bool.or_eq_false_iff.1 closed).1
    have regs := (hs.unit u).regs
    exact e ▸ (popped rest).setUnit
      (.of_not_running ⟨regs.noError, regs.error, regs.noResult⟩ (not_running_of_not_busy idle)) (.of_not_busy idle)
  | reset rest _ e => exact e ▸ (popped rest).hardwareReset

/-! ### Every step -/

/-- Whichever agent moves, the invariant is kept. -/
theorem step_sound {s t : State} (hs : Sound s) (h : step s = .next t) : Sound t := by
  have kept : ∀ a, agentStep a (Machine.afterChoice s) = .next t → Sound t := by
    intro a ha
    cases a with
    | host => exact hostStep_sound hs.afterChoice ha
    | enc => exact (encStep_unitStep hs.afterChoice ha).keeps_sound hs.afterChoice (encStep_params ha)
    | dec => exact (decStep_unitStep hs.afterChoice ha).keeps_sound hs.afterChoice (decStep_params ha)
  exact kept _ h

/-- Settles O56: each agent's step keeps the invariant of either unit, the buffers of the passes that run, and the
canonical form of storage. -/
theorem everyStepKeepsSound : Obligations.EveryStepKeepsSound := fun _ _ => step_sound

/-- The frame of a unit's step, from the state before the choice of the agent. -/
theorem UnitStep.frame {u : UnitId} {s t : State} (h : UnitStep u (Machine.afterChoice s) t) :
    t.unit (otherUnit u) = s.unit (otherUnit u) ∧ t.hostIn = s.hostIn ∧ t.hostOut = s.hostOut ∧
    ∀ a, inOutput (s.unit u) a = false → t.mem.read a = s.mem.read a := by
  obtain ⟨-, -, -, other, unwritten, hostIn, hostOut⟩ := h
  simp only [afterChoice_unit, afterChoice_mem, afterChoice_hostIn, afterChoice_hostOut] at *
  exact ⟨other, hostIn, hostOut, unwritten⟩

/-- Settles O51, by what a step of ENC in a sound state leaves alone. -/
theorem encWritesOnlyItsOutput : Obligations.EncWritesOnlyItsOutput := by
  intro s t hs ha h
  rw [step_enc ha] at h
  exact (encStep_unitStep hs.afterChoice h).frame

/-- Settles O52, by what a step of DEC in a sound state leaves alone. -/
theorem decWritesOnlyItsOutput : Obligations.DecWritesOnlyItsOutput := by
  intro s t hs ha h
  rw [step_dec ha] at h
  exact (decStep_unitStep hs.afterChoice h).frame

end Sys2Proof.Safety
end

section
/-! PROOF. In a sound state no step faults (spec R72, R203): every access of a unit lies inside IN or OUT, so each step
of a unit answers a next state; and no action of the host faults in any state. -/

namespace Sys2Proof.Safety

open Sys2Proof.Machine

/-! ### The room that the invariant leaves -/

/-- The longest stream grows with the image (R202). -/
theorem maxLen_mono {k n : Nat} (prevInit : Pixel) (ch : Nat) (h : k ≤ n) :
    maxLen prevInit k ch ≤ maxLen prevInit n ch := by
  have pixels : k * (ch + 1) ≤ n * (ch + 1) := Nat.mul_le_mul_right _ h
  unfold maxLen
  omega

/-- ENC's next bytes fit OUT while they and the end marker keep within the budget of the first `k` pixels (R203). -/
theorem EncSound.room {params : Params} {x : UnitState} {bytes k : Nat} (h : EncSound params x)
    (run : running x.phase = true) (hk : k ≤ x.lat.n.toNat)
    (budget : bytes ≤ maxLen params.prevInit k x.lat.ch.toNat) : bytes ≤ x.lat.outCap.toNat := by
  obtain ⟨-, -, cap⟩ := h.latches run
  exact (budget.trans (maxLen_mono _ _ hk)).trans cap

/-- What an ENC PIXELS step emits fits OUT: its share of the budget is that of one pixel (R203). -/
theorem EncSound.effect_fits {params : Params} {x : UnitState} {last : Bool} {effect : List Byte × UnitState}
    (h : EncSound params x) (phase : x.phase = .pixels) (fits : EffectFits x.lat.ch last x effect) :
    x.opos.toNat + effect.1.length ≤ x.lat.outCap.toNat := by
  obtain ⟨hk, -, -, budget⟩ := h.pixel phase
  have cost := fits.cost
  rw [streamBudget_iff] at budget
  refine h.room (by rw [phase]; rfl) (Nat.succ_le_of_lt hk) ?_
  rw [Nat.succ_eq_add_one, maxLen_succ]
  omega

/-- A sound pass of DEC has room in OUT for its next pixel (R72). -/
theorem DecSound.pixelRoom {s : State} (h : DecSound s.params s.dec) (phase : s.dec.phase = .pixels) :
    PixelRoom s := by
  have run : running s.dec.phase = true := by rw [phase]; rfl
  obtain ⟨⟨ch, -⟩, -⟩ := h.latches run
  have room := h.written_le run (Nat.succ_le_of_lt (h.pixel phase))
  rw [Nat.succ_mul] at room
  exact ⟨ch, room⟩

/-! ### The steps of ENC answer -/

/-- Bytes that fit OUT are emitted. -/
theorem emit_answers {bs : List Byte} {s : State} (fits : s.enc.opos.toNat + bs.length ≤ s.enc.lat.outCap.toNat) :
    ∃ t, emit bs s = some t := ⟨_, emit_eq_some.2 ⟨fits, rfl⟩⟩

/-- What a PIXELS step of ENC emits from the unit that it leaves is emitted when it fits OUT before the step. -/
theorem emit_effect_answers {s : State} {last : Bool} {p : Pixel}
    (fits : s.enc.opos.toNat + (encPixelEffect last p s.enc).1.length ≤ s.enc.lat.outCap.toNat) :
    ∃ t, emit (encPixelEffect last p s.enc).1 { s with enc := (encPixelEffect last p s.enc).2 } = some t :=
  emit_answers (by
    rw [encPixelEffect_frame]
    exact fits)

/-- VALIDATE of ENC makes no access (R205). -/
theorem encValidate_answers (s : State) : ∃ t, encValidate s = .next t := by
  unfold encValidate
  simp only
  iterate 6
    split
    · exact ⟨_, rfl⟩
  exact ⟨_, rfl⟩

theorem encHeader_answers {s : State} (h : EncSound s.params s.enc) (phase : s.enc.phase = .header) :
    ∃ t, encHeader s = .next t := by
  obtain ⟨-, -, opos, -, -⟩ := h.start phase
  obtain ⟨t, emitted⟩ := emit_answers
    (bs := headerBytes s.params.magic s.enc.lat.w s.enc.lat.hgt s.enc.lat.ch s.enc.lat.cs) (s := s) (by
      rw [opos]
      exact h.room (k := 0) (by rw [phase]; rfl) (Nat.zero_le _)
        (show 14 ≤ 14 + 8 + _ + _ by omega))
  exact ⟨_, by simp only [encHeader, emitted]; rfl⟩

theorem encPixel_answers {s : State} (h : EncSound s.params s.enc) (phase : s.enc.phase = .pixels) :
    ∃ t, encPixel s = .next t := by
  have run : running s.enc.phase = true := by rw [phase]; rfl
  obtain ⟨⟨ch, -⟩, input, -⟩ := h.latches run
  obtain ⟨hk, owed, -, -⟩ := h.pixel phase
  have inside : s.enc.k.toNat * s.enc.lat.ch.toNat + s.enc.lat.ch.toNat ≤ s.enc.lat.inLen.toNat := by
    rw [input, ← Nat.succ_mul]
    exact Nat.mul_le_mul_right _ hk
  have read := (memRead_eq_some (u := .enc) (s := s)).2 ⟨inside, rfl⟩
  obtain ⟨p, pixel⟩ := pixelOfBytes_isSome (bs := inBytes s.enc s.mem
      (s.enc.inBase + s.enc.k.toNat * s.enc.lat.ch.toNat) s.enc.lat.ch.toNat) (by
    rw [length_inBytes]
    rcases ch with e | e <;> rw [e] <;> decide)
  have solid : s.enc.lat.ch = 3 → p.a = 255 := fun three => pixelOfBytes_opaque (by simp [three]) pixel
  obtain ⟨t, emitted⟩ := emit_effect_answers (h.effect_fits phase
    (encPixelEffect_fits (decide (s.enc.k.toNat + 1 = s.enc.lat.n.toNat)) ch solid owed (h.cache run)))
  exact ⟨encAdvance t, by simp only [encPixel, read, State.unit_enc, pixel]; rw [emitted]⟩

theorem encFooter_answers {s : State} (h : EncSound s.params s.enc) (phase : s.enc.phase = .footer) :
    ∃ t, encFooter s = .next t := by
  obtain ⟨k, -, budget⟩ := h.last phase
  rw [streamBudget_iff, k] at budget
  obtain ⟨t, emitted⟩ := emit_answers (bs := endMarker) (s := s)
    (h.room (by rw [phase]; rfl) le_rfl (show s.enc.opos.toNat + 8 ≤ _ by omega))
  exact ⟨_, by simp only [encFooter, emitted]; rfl⟩

/-- A step of a sound ENC answers: no access leaves IN or OUT (R72, R203). -/
theorem encStep_answers {s : State} (h : EncSound s.params s.enc) : ∃ t, encStep s = .next t := by
  unfold encStep
  cases phase : s.enc.phase
  case idle | done | error => exact ⟨s, rfl⟩
  case validate => exact encValidate_answers s
  case header => exact encHeader_answers h phase
  case pixels => exact encPixel_answers h phase
  case footer => exact encFooter_answers h phase

/-! ### The steps of DEC answer -/

/-- VALIDATE of DEC reads its 14 bytes once IN is known to hold 22 (R244). -/
theorem decValidate_answers (s : State) : ∃ t, decValidate s = .next t := by
  unfold decValidate
  simp only
  split
  · exact ⟨_, rfl⟩
  rename_i long
  split
  · iterate 6
      split
      · exact ⟨_, rfl⟩
    exact ⟨_, rfl⟩
  · rename_i unread
    exact (unread _ _ _ _ _ _ _ _ _ _ _ _ _ _
      (memRead_eq_some.2 ⟨(by decide : 14 ≤ 22).trans (Nat.le_of_not_lt long), rfl⟩)).elim

/-- A chunk of more than one byte raises, or has room for its pixel. -/
theorem longChunk_answers {s : State} (room : PixelRoom s) (len : Nat) (px : Pixel) :
    ∃ t, longChunk len px s = .next t := by
  by_cases past : s.dec.lat.inLen.toNat < s.dec.ipos.toNat + len
  · exact ⟨_, longChunk_raised past⟩
  · obtain ⟨t, made, -⟩ := longChunk_step (px := px) room (Nat.le_of_not_lt past)
    exact ⟨t, made⟩

/-- A pixel step answers where its pixel fits. -/
theorem finishPixel_answers {u : State} (room : PixelRoom u) (px : Pixel) : ∃ t, finishPixel px u = .next t := by
  obtain ⟨bs, -, made⟩ := finishPixel_eq (px := px) room
  exact ⟨_, made⟩

/-- Every chunk answers where a pixel fits (R250). -/
theorem exec_answers {s : State} (room : PixelRoom s) (i : Instr) : ∃ t, exec i s = .next t := by
  cases i with
  | rgb r g b => exact longChunk_answers room 4 ⟨r, g, b, s.dec.prev.a⟩
  | rgba r g b a => exact longChunk_answers room 5 ⟨r, g, b, a⟩
  | luma dg drg dbg => exact longChunk_answers room 2 (lumaPixel s.dec.prev dg drg dbg)
  | index slot =>
    exact finishPixel_answers (u := takeChunk 1 s.params.decUpdateOnIndex (cacheLookup s.dec.idx slot) s) room _
  | diff dr dg db =>
    exact finishPixel_answers (u := takeChunk 1 true (diffPixel s.dec.prev dr dg db) s) room _
  | run len =>
    exact finishPixel_answers
      (u := { s with dec := { s.dec with ipos := s.dec.ipos + 1, run := BitVec.ofNat 6 (len - 1) } }) room _

theorem decPixel_answers {s : State} (h : DecSound s.params s.dec) (phase : s.dec.phase = .pixels) :
    ∃ t, decPixel s = .next t := by
  have room := h.pixelRoom phase
  unfold decPixel
  split
  · exact finishPixel_answers (u := { s with dec := { s.dec with run := s.dec.run - 1 } }) room _
  split
  · exact exec_answers room _
  · exact ⟨_, rfl⟩
  · exact ⟨_, rfl⟩

/-- FOOTER of DEC reads the end marker once it is known to lie in IN (R262). -/
theorem decFooter_answers (s : State) : ∃ t, decFooter s = .next t := by
  unfold decFooter
  simp only
  split
  · exact ⟨_, rfl⟩
  rename_i long
  rw [(memRead_eq_some (u := .dec)).2 ⟨Nat.le_of_not_lt long, rfl⟩]
  simp only
  split <;> exact ⟨_, rfl⟩

/-- A step of a sound DEC answers: no access leaves IN or OUT (R72). -/
theorem decStep_answers {s : State} (h : DecSound s.params s.dec) : ∃ t, decStep s = .next t := by
  unfold decStep
  cases phase : s.dec.phase
  case idle | done | error => exact ⟨s, rfl⟩
  case validate => exact decValidate_answers s
  case header => exact absurd phase h.noHeader
  case pixels => exact decPixel_answers h phase
  case footer => exact decFooter_answers s

/-! ### The host's actions -/

/-- An action of the host is done or refused. -/
theorem hostDo_ne_fault (a : HostAction) (s : State) (f : Fault) : hostDo a s ≠ .fault f := by
  cases a with
  | readReg u reg => exact nofun
  | readMem addr => exact nofun
  | hardwareReset => exact nofun
  | writeReg u reg v =>
    simp only [hostDo, hostWriteReg, hostWriteCtrl]
    repeat' split
    all_goals exact nofun
  | writeMem addr v =>
    simp only [hostDo, hostWriteMem]
    repeat' split
    all_goals exact nofun
  | bind u inBase outBase =>
    simp only [hostDo, hostBind]
    split <;> exact nofun

theorem hostStep_ne_fault (s : State) (f : Fault) : hostStep s ≠ .fault f := by
  unfold hostStep
  split
  · exact nofun
  · exact hostDo_ne_fault _ _ f

/-- Settles O57: a unit's step answers a next state by its invariant, and the host's never faults. -/
theorem soundStatesAreSafe : Obligations.SoundStatesAreSafe := by
  intro s hs f
  cases ha : nextAgent s with
  | host =>
    rw [step_host ha]
    exact hostStep_ne_fault _ f
  | enc =>
    obtain ⟨t, answer⟩ := encStep_answers hs.afterChoice.enc
    rw [step_enc ha, answer]
    exact nofun
  | dec =>
    obtain ⟨t, answer⟩ := decStep_answers hs.afterChoice.dec
    rw [step_dec ha, answer]
    exact nofun

end Sys2Proof.Safety
end

section
/-! PROOF. What an error of ENC and a chunk of DEC leave alone (spec R71, R88, R250), and the host's accesses to storage
(spec/20_memory.md R73, R83, R85, spec/70_reset_and_hazards.md R330 to R332): one rule for each answer of an access,
then the statements about START, writes and reads. -/

namespace Sys2Proof.Machine

open Sys2Proof.Safety

/-! ### What a step of a unit leaves alone -/

/-- Settles O35: only VALIDATE of ENC can raise, and it writes no storage; the phases after HEADER, PIXELS and FOOTER
are no ERROR. -/
theorem encErrorWritesNoByte : Obligations.EncErrorWritesNoByte := by
  intro s t h error
  unfold encStep at h
  cases phase : s.enc.phase <;> rw [phase] at h
  case idle | done | error => cases h; rfl
  case validate =>
    obtain ⟨_, _, _, _, rfl, -⟩ | ⟨-, -, -, -, -, -, -, rfl⟩ := encValidate_next h
    · exact raise_mem ..
    · rfl
  case header =>
    obtain ⟨_, -, -, rfl⟩ := encHeader_next h
    cases error
  case pixels =>
    obtain ⟨_, _, _, -, -, -, -, -, rfl⟩ := encPixel_next h
    simp only [phase] at error
    split at error <;> cases error
  case footer =>
    obtain ⟨-, rfl⟩ := encFooter_next h
    cases error

/-- Settles O17: a chunk raises or makes a pixel step, and both state their frame. -/
theorem chunkTouchesOnlyDecAndItsOutput : Obligations.ChunkTouchesOnlyDecAndItsOutput := by
  intro i s t h
  have start : s.dec.outBase ≤ pixelAddress s := Nat.le_add_right _ _
  obtain rfl | ⟨len, px, made⟩ := exec_next h
  · obtain ⟨dec, unstored, enc, contested, params, hostIn, hostOut, schedule⟩ :=
      raiseDecoding_raised .unexpectedBufferEnd s
    refine ⟨enc, params, hostIn, hostOut, schedule, ?_⟩
    rw [dec]
    refine ⟨rfl, rfl, rfl, rfl, rfl, rfl, rfl, .inl rfl, fun a ha => ⟨unstored a (by omega), ?_⟩⟩
    have outside : decide (s.dec.outBase ≤ a ∧ a < pixelAddress s) = false := decide_eq_false (by omega)
    rw [contested, outside, Bool.not_false, Bool.and_true]
  · obtain ⟨inBase, outBase, awaited⟩ := made.binding
    obtain ⟨unseen, unorderedOut, unorderedIn, passDraw, contested⟩ := made.order
    obtain ⟨hostIn, hostOut, schedule, -⟩ := made.outside
    exact ⟨made.enc, made.params, hostIn, hostOut, schedule, made.lat, inBase, outBase, awaited, unorderedOut,
      unorderedIn, passDraw, .inr ⟨made.regs, unseen, contested⟩,
      fun a ha => ⟨made.unstored a (by omega), by rw [contested]⟩⟩

/-! ### Refused STARTs -/

/-- A START that breaks R73 is refused (R330). -/
theorem hostWriteReg_hazard {u : UnitId} {v : Word64} {s : State} (start : v.getLsbD 0 = true)
    (idle : busy (s.unit u).phase = false) (hazard : launchHazard u s = true) :
    hostWriteReg u 0 v s = .refused .overlappingBuffers := by
  simp [hostWriteReg, hostWriteCtrl, start, idle, hazard]

/-- Settles O43: an address in both windows denies one of the conjuncts of `launchHazard_eq_false`. -/
theorem overlappingLaunchIsRefused : Obligations.OverlappingLaunchIsRefused := by
  rintro u v s rest a x y ha hin start rfl rfl idle shared
  have hazard : launchHazard u { afterChoice s with hostIn := rest } = true := by
    by_contra apart
    rw [Bool.not_eq_true, launchHazard_eq_false] at apart
    simp only [unit_popped_afterChoice, windowsMeet_eq_false] at apart
    obtain ⟨own, other⟩ := apart
    simp only [inInput, inOutput, decide_eq_true_eq] at shared
    obtain ⟨input, output⟩ | ⟨running, shared⟩ := shared
    · exact own a input output
    obtain ⟨outIn, outOut, inOut⟩ := other running
    obtain ⟨output, otherIn | otherOut⟩ | ⟨input, otherOut⟩ := shared
    · exact outIn a output otherIn
    · exact outOut a output otherOut
    · exact inOut a input otherOut
  rw [step_hostDo ha hin]
  exact hostWriteReg_hazard start (by rwa [unit_popped_afterChoice]) hazard

/-! ### Writes of storage -/

theorem exists_unit {p : UnitId → Prop} : (∃ u, p u) ↔ p .enc ∨ p .dec :=
  ⟨fun ⟨u, h⟩ => by cases u; exacts [.inl h, .inr h], fun h => h.elim (⟨_, ·⟩) (⟨_, ·⟩)⟩

theorem outputOfRunningPass_iff {x : UnitState} {a : Nat} :
    outputOfRunningPass x a = true ↔ busy x.phase = true ∧ inOutput x a = true := Bool.and_eq_true_iff

theorem inputOfOpenPass_iff {x : UnitState} {a : Nat} :
    inputOfOpenPass x a = true ↔ passOpen x = true ∧ inInput x a = true := Bool.and_eq_true_iff

theorem hiddenFromHost_iff {x : UnitState} {a : Nat} : hiddenFromHost x a = true ↔
    (busy x.phase = true ∧ inOutput x a = true) ∨ covered x.unseen a = true := by
  rw [hiddenFromHost, Bool.or_eq_true, outputOfRunningPass_iff]

/-- A write into IN of an open pass is refused as such (R331). -/
theorem hostWriteMem_input {a : Nat} {v : Byte} {s : State} (input : ∃ u, inputOfOpenPass (s.unit u) a = true) :
    hostWriteMem a v s = .refused .hostWroteInput := if_pos (exists_unit.1 input)

/-- A write into OUT of a BUSY pass is refused: as one into IN where the byte lies in IN of an open pass too (R331,
R332). -/
theorem hostWriteMem_output {a : Nat} {v : Byte} {s : State} (output : ∃ u, outputOfRunningPass (s.unit u) a = true) :
    ∃ r, hostWriteMem a v s = .refused r ∧ (r = .hostWroteInput ∨ r = .hostWroteOutput) := by
  by_cases input : ∃ u, inputOfOpenPass (s.unit u) a = true
  · exact ⟨_, hostWriteMem_input input, .inl rfl⟩
  · rw [exists_unit] at input output
    exact ⟨_, (if_neg input).trans (if_pos output), .inr rfl⟩

/-- Every other write is done. -/
theorem hostWriteMem_done {a : Nat} {v : Byte} {s : State} (input : ¬∃ u, inputOfOpenPass (s.unit u) a = true)
    (output : ¬∃ u, outputOfRunningPass (s.unit u) a = true) : hostWriteMem a v s =
      .next { s with mem := s.mem.write a v, contested := contestedAfterWrite a s } := by
  rw [exists_unit] at input output
  exact (if_neg input).trans (if_neg output)

/-- What is contested after a write: the byte if it was unseen, and all other bytes as before (log entry 23). -/
theorem covered_contestedAfterWrite (a x : Nat) (s : State) : covered (contestedAfterWrite a s) x =
    if x = a then covered s.enc.unseen a || covered s.dec.unseen a else covered s.contested x := by
  have own : decide (a ≤ x ∧ x < a + 1) = decide (x = a) := by
    rw [decide_eq_decide]
    omega
  unfold contestedAfterWrite
  split
  · rename_i unseen
    rw [covered_cons, own]
    by_cases e : x = a <;> simp [e, unseen]
  · rename_i seen
    rw [covered_windowsWithout, covered_cons, own]
    by_cases e : x = a <;> simp_all

/-- Settles O44: the tests of `hostWriteMem` are those of R331 and R332, and a write that is done is one byte's. -/
theorem storageWritesRespectOpenPasses : Obligations.StorageWritesRespectOpenPasses := by
  intro a v s rest ha hin
  have write : step s = hostWriteMem a v { afterChoice s with hostIn := rest } := step_hostDo ha hin
  rw [write]
  refine ⟨fun u opened input => hostWriteMem_input ⟨u, ?_⟩, fun u running output => hostWriteMem_output ⟨u, ?_⟩,
    fun allowed => ⟨_, hostWriteMem_done ?_ ?_, fun x => ?_, fun x => ?_, ?_⟩⟩
  · rw [unit_popped_afterChoice, inputOfOpenPass_iff]
    exact ⟨opened, input⟩
  · rw [unit_popped_afterChoice, outputOfRunningPass_iff]
    exact ⟨running, output⟩
  · rintro ⟨u, refused⟩
    obtain ⟨opened, input⟩ := inputOfOpenPass_iff.1 (unit_popped_afterChoice s rest u ▸ refused)
    exact Bool.false_ne_true ((allowed u).1 opened ▸ input)
  · rintro ⟨u, refused⟩
    obtain ⟨running, output⟩ := outputOfRunningPass_iff.1 (unit_popped_afterChoice s rest u ▸ refused)
    exact Bool.false_ne_true ((allowed u).2 running ▸ output)
  · simpa using Memory.read_write s.mem a x v
  · simpa using covered_contestedAfterWrite a x { afterChoice s with hostIn := rest }
  · simp

/-! ### Reads of storage -/

/-- A read of a byte where some write is in no order with it returns the free byte at the draw counter (R332; log
entries 11 and 23). -/
theorem step_readMem_unordered {a : Nat} {s : State} {rest : List HostAction} (ha : nextAgent s = .host)
    (hin : s.hostIn = .readMem a :: rest)
    (unordered : (∃ u, hiddenFromHost (s.unit u) a = true) ∨ covered s.contested a = true) :
    step s = .next { afterChoice s with
      hostIn := rest, hostOut := s.hostOut ++ [(Config.freeByte (afterChoice s).draws).setWidth 64]
      draws := (afterChoice s).draws + 1 } := by
  rw [exists_unit, or_assoc] at unordered
  rw [step_hostDo ha hin, hostDo, hostReadMem, if_pos (by simpa using unordered)]
  simp

/-- A read of any other byte returns the byte of storage (R83). -/
theorem step_readMem_ordered {a : Nat} {s : State} {rest : List HostAction} (ha : nextAgent s = .host)
    (hin : s.hostIn = .readMem a :: rest)
    (ordered : ¬((∃ u, hiddenFromHost (s.unit u) a = true) ∨ covered s.contested a = true)) :
    step s = .next { afterChoice s with
      hostIn := rest, hostOut := s.hostOut ++ [(s.mem.read a).setWidth 64] } := by
  rw [exists_unit, or_assoc] at ordered
  rw [step_hostDo ha hin, hostDo, hostReadMem, if_neg (by simpa using ordered)]
  simp

/-- Settles O45: a read is answered from storage, or from the draw counter alone. -/
theorem storageReadsSeeEndedPasses : Obligations.StorageReadsSeeEndedPasses := by
  intro a s rest ha hin
  simp only [← hiddenFromHost_iff]
  by_cases unordered : (∃ u, hiddenFromHost (s.unit u) a = true) ∨ covered s.contested a = true
  · refine ⟨_, _, step_readMem_unordered ha hin unordered, rfl, by simp, by simp, by simp, by simp, by simp, rfl,
      fun shown settled => ?_, fun s' rest' ha' hin' draws _ unordered' =>
        ⟨_, step_readMem_unordered ha' hin' unordered', by rw [draws]⟩⟩
    obtain ⟨u, hidden⟩ | contested := unordered
    · rw [hiddenFromHost_iff, (shown u).2] at hidden
      exact absurd (hidden.resolve_right Bool.false_ne_true) (shown u).1
    · rw [settled] at contested
      cases contested
  · exact ⟨_, _, step_readMem_ordered ha hin unordered, rfl, by simp, by simp, by simp, by simp, by simp, rfl,
      fun _ _ => BitVec.toNat_setWidth_of_le (by decide), fun _ _ _ _ _ unordered' => absurd unordered' unordered⟩

end Sys2Proof.Machine
end

section
/-! PROOF. The notes of the order of R83 and R84 (spec/20_memory.md; log entries 11 and 23): what each step of a unit and
each action of the host does to them, then the statement that only a STATUS read of DONE or ERROR orders anything. -/

namespace Sys2Proof.Machine

open Sys2Proof.Safety

/-! ### The steps of the units -/

/-- What a step of a unit does to the notes and to storage, the other unit left alone: either no pass ends that wrote, so
the notes stay and storage changes only while the unit stays BUSY; or a pass ends and notes a window that holds all that
changed. -/
inductive UnitNotes (u : UnitId) (s t : State) : Prop
  | kept : t.unit (otherUnit u) = s.unit (otherUnit u) → (t.unit u).unseen = (s.unit u).unseen →
      t.contested = s.contested → (busy (t.unit u).phase = true ∨ t.mem = s.mem) → UnitNotes u s t
  | ended (w : Window) : t.unit (otherUnit u) = s.unit (otherUnit u) → (t.unit u).unseen = w :: (s.unit u).unseen →
      busy (s.unit u).phase = true → busy (t.unit u).phase = false →
      (∀ a, covered t.contested a = (covered s.contested a && !decide (w.1 ≤ a ∧ a < w.2))) →
      (∀ a, (a < w.1 ∨ w.2 ≤ a) → t.mem.read a = s.mem.read a) → UnitNotes u s t

/-- The end of a pass that is DONE notes the bytes that are settled (R55, R87), if the step wrote no byte outside
them. -/
theorem UnitNotes.of_completePass {u : UnitId} {s t : State} {outLen inUsed : Word64} {x : UnitState}
    (running : busy (s.unit u).phase = true) (other : t.unit (otherUnit u) = s.unit (otherUnit u))
    (unit : t.unit u = completePass outLen inUsed x) (unseen : x.unseen = (s.unit u).unseen)
    (contested : t.contested = s.contested)
    (written : ∀ a, (a < x.outBase ∨ x.outBase + outLen.toNat ≤ a) → t.mem.read a = s.mem.read a) :
    UnitNotes u s (settleOutput u outLen.toNat t) := by
  refine .ended (x.outBase, x.outBase + outLen.toNat) ?_ ?_ running ?_ (fun a => ?_) fun a outside => ?_
  · rw [settleOutput_unit, other]
  · rw [settleOutput_unit, unit, completePass_unseen, unseen]
  · rw [settleOutput_unit, unit]
    rfl
  · rw [settleOutput_contested, unit, contested]
    simp
  · rw [settleOutput_mem, unit]
    exact (Memory.read_drawCovered_outside _ _ _ _ _ _ (outside.imp_right .inl)).trans (written a outside)

/-- An error of DEC in PIXELS or FOOTER notes the bytes that become free (R88). -/
theorem UnitNotes.of_raiseDecoding {s : State} (e : PassError) (running : busy s.dec.phase = true) :
    UnitNotes .dec s (raiseDecoding e s) := by
  obtain ⟨dec, unstored, enc, contested, -, -⟩ := raiseDecoding_raised e s
  exact .ended (s.dec.outBase, pixelAddress s) enc (by rw [State.unit_dec, dec]; rfl) running
    (by rw [State.unit_dec, dec]; rfl) contested unstored

theorem encStep_notes {s t : State} (h : encStep s = .next t) : UnitNotes .enc s t := by
  unfold encStep at h
  cases phase : s.enc.phase <;> rw [phase] at h
  case idle | done | error => cases h; exact .kept rfl rfl rfl (.inr rfl)
  case validate =>
    obtain ⟨_, _, _, _, rfl, -⟩ | ⟨-, -, -, -, -, -, -, rfl⟩ := encValidate_next h
    · exact .kept (raise_unit_other ..) (by rw [raise_unit]; rfl) (raise_contested ..) (.inr (raise_mem ..))
    · exact .kept rfl rfl rfl (.inr rfl)
  case header =>
    obtain ⟨_, -, -, rfl⟩ := encHeader_next h
    exact .kept rfl rfl rfl (.inl rfl)
  case pixels =>
    obtain ⟨_, _, _, -, -, -, -, -, rfl⟩ := encPixel_next h
    refine .kept rfl rfl rfl (.inl ?_)
    simp only [State.unit_enc, phase]
    split <;> rfl
  case footer =>
    obtain ⟨fits, rfl⟩ := encFooter_next h
    have len : (s.enc.opos + 8).toNat = s.enc.opos.toNat + 8 := by bv_omega
    refine .of_completePass (x := { s.enc with opos := s.enc.opos + 8 }) (by rw [State.unit_enc, phase]; rfl) rfl rfl
      rfl rfl fun a outside => Memory.read_writeBytes_outside _ _ _ _ ?_
    show a < _ ∨ _ + 8 ≤ a
    dsimp only at outside
    omega

theorem decStep_notes {s t : State} (h : decStep s = .next t) : UnitNotes .dec s t := by
  unfold decStep at h
  cases phase : s.dec.phase <;> rw [phase] at h
  case idle | done | error => cases h; exact .kept rfl rfl rfl (.inr rfl)
  case validate =>
    obtain ⟨_, _, _, _, _, rfl, -⟩ | ⟨_, _, _, _, -, -, -, -, -, -, -, -, rfl⟩ := decValidate_next h
    · exact .kept (raise_unit_other ..) (by rw [raise_unit]; rfl) (raise_contested ..) (.inr (raise_mem ..))
    · exact .kept rfl rfl rfl (.inr rfl)
  case header => cases h
  case pixels =>
    obtain rfl | ⟨_, _, made⟩ := decPixel_next h
    · exact .of_raiseDecoding _ (by rw [phase]; rfl)
    obtain ⟨unseen, -, -, -, contested⟩ := made.order
    refine .kept made.enc unseen contested (.inl ?_)
    rw [State.unit_dec, made.phase, phase]
    split <;> rfl
  case footer =>
    have running : busy s.dec.phase = true := by rw [phase]; rfl
    obtain rfl | ⟨-, -, rfl⟩ := decFooter_next h
    · exact .of_raiseDecoding _ running
    · exact .of_completePass running rfl rfl rfl rfl fun _ _ => rfl

theorem eq_or_eq_otherUnit (u v : UnitId) : v = u ∨ v = otherUnit u := by
  cases u <;> cases v <;> simp [otherUnit]

/-- A step of a unit shows the host nothing (R83). -/
theorem UnitNotes.unseen {u v : UnitId} {s t : State} {a : Nat} (h : UnitNotes u s t)
    (before : covered (s.unit v).unseen a = true) : covered (t.unit v).unseen a = true := by
  obtain rfl | rfl := eq_or_eq_otherUnit u v
  · cases h with
    | kept _ unseen => rwa [unseen]
    | ended w _ unseen => rw [unseen, covered_cons, before, Bool.or_true]
  · cases h with
    | kept other => rwa [other]
    | ended w other => rwa [other]

/-- A step of a unit takes a byte out of what is contested only when it ends a pass that notes it (log entry 23). -/
theorem UnitNotes.contested {u : UnitId} {s t : State} {a : Nat} (h : UnitNotes u s t)
    (before : covered s.contested a = true) : covered t.contested a = true ∨
      ∃ w, busy (s.unit u).phase = true ∧ busy (t.unit u).phase = false ∧
        (t.unit u).unseen = w :: (s.unit u).unseen ∧ w.1 ≤ a ∧ a < w.2 := by
  cases h with
  | kept _ _ contested => exact .inl (by rwa [contested])
  | ended w _ unseen running ended contested =>
    by_cases inside : w.1 ≤ a ∧ a < w.2
    · exact .inr ⟨w, running, ended, unseen, inside⟩
    · exact .inl (by rw [contested, before, decide_eq_false inside]; rfl)

/-- A byte that a step of a unit changes in a sound state is hidden from the host after it: it lies in OUT of the pass
that goes on (R71, R332), or in what the pass that ended notes. -/
theorem UnitNotes.hidden {u : UnitId} {s t : State} {a : Nat} (h : UnitNotes u s t) (sound : UnitStep u s t)
    (changed : t.mem.read a ≠ s.mem.read a) : hiddenFromHost (t.unit u) a = true := by
  rw [hiddenFromHost_iff]
  cases h with
  | kept _ _ _ goesOn =>
    have goesOn := goesOn.resolve_right fun same => changed (by rw [same])
    obtain ⟨-, -, outBase, -, outCap⟩ := sound.buffers goesOn
    refine .inl ⟨goesOn, ?_⟩
    rw [inOutput, outBase, outCap]
    by_contra outside
    exact changed (sound.unwritten a (Bool.not_eq_true _ ▸ outside))
  | ended w _ unseen _ _ _ unchanged =>
    refine .inr ?_
    by_contra outside
    rw [unseen, covered_cons, Bool.or_eq_true, decide_eq_true_eq, not_or] at outside
    exact changed (unchanged a (by omega))

/-! ### Hardware reset -/

/-- A reset hides nothing less: what was hidden from the host before it is unseen after it (R84, R320). -/
theorem covered_resetUnit_unseen (d : Nat) (x : UnitState) (a : Nat) :
    covered (resetUnit d x).unseen a = hiddenFromHost x a := by
  unfold resetUnit hiddenFromHost outputOfRunningPass
  by_cases running : busy x.phase = true <;> simp [running, inOutput]

@[simp] theorem drawRunningOutput_unit (x : UnitState) (s : State) (u : UnitId) :
    (drawRunningOutput x s).unit u = s.unit u := by
  unfold drawRunningOutput
  split <;> cases u <;> rfl

theorem hardwareReset_unit (s : State) (u : UnitId) : ∃ d, (hardwareReset s).unit u = resetUnit d (s.unit u) := by
  have drawn : (drawRunningOutput s.dec (drawRunningOutput s.enc s)).unit u = s.unit u := by simp
  cases u <;> exact ⟨_, congrArg (resetUnit _) drawn⟩

/-- What a reset draws lies in OUT of a BUSY pass (R320). -/
theorem read_drawRunningOutput {x : UnitState} {a : Nat} (s : State) (h : outputOfRunningPass x a = false) :
    (drawRunningOutput x s).mem.read a = s.mem.read a := by
  unfold drawRunningOutput
  split
  · rename_i running
    rw [outputOfRunningPass, running, Bool.true_and] at h
    exact Memory.read_drawBytes_outside _ _ _ _ _ (outside_of_not_inOutput h le_rfl)
  · rfl

theorem read_hardwareReset {s : State} {a : Nat} (h : ¬∃ u, outputOfRunningPass (s.unit u) a = true) :
    (hardwareReset s).mem.read a = s.mem.read a := by
  simp only [exists_unit, State.unit_enc, State.unit_dec, not_or, Bool.not_eq_true] at h
  obtain ⟨enc, dec⟩ := h
  exact (read_drawRunningOutput _ dec).trans (read_drawRunningOutput s enc)

/-- What a reset takes out of what is contested lies in OUT of a BUSY pass (log entry 23). -/
theorem covered_hardwareReset_contested {s : State} {a : Nat} (h : ¬∃ u, outputOfRunningPass (s.unit u) a = true) :
    covered (hardwareReset s).contested a = covered s.contested a := by
  simp only [exists_unit, State.unit_enc, State.unit_dec, not_or, Bool.not_eq_true, outputOfRunningPass] at h
  simp [hardwareReset, h]

/-! ### The host's actions -/

/-- What an action of the host does to the notes and to storage: nothing, or it is a STATUS read of DONE or ERROR, a
write of storage, or a hardware reset. -/
inductive HostNotes (s t : State) : Prop
  | kept : (∀ u, (t.unit u).unseen = (s.unit u).unseen) → t.contested = s.contested → t.mem = s.mem → HostNotes s t
  | shown (u : UnitId) (rest : List HostAction) : s.hostIn = .readReg u 1 :: rest →
      ((s.unit u).phase = .done ∨ (s.unit u).phase = .error) →
      (t.unit (otherUnit u)).unseen = (s.unit (otherUnit u)).unseen → t.contested = s.contested → t.mem = s.mem →
      HostNotes s t
  | wrote (a : Nat) (v : Byte) (rest : List HostAction) : s.hostIn = .writeMem a v :: rest →
      (∀ u, t.unit u = s.unit u) → t.contested = contestedAfterWrite a s → t.mem = s.mem.write a v → HostNotes s t
  | reset (rest : List HostAction) : t = hardwareReset { s with hostIn := rest } → HostNotes s t

theorem HostNotes.of_units {s t : State} (enc : t.enc = s.enc) (dec : t.dec = s.dec)
    (contested : t.contested = s.contested) (mem : t.mem = s.mem) : HostNotes s t :=
  .kept (fun u => by cases u; exacts [congrArg _ enc, congrArg _ dec]) contested mem

/-- A change of a unit that keeps its `unseen` shows nothing. -/
theorem HostNotes.of_setUnit {s : State} {u : UnitId} {x : UnitState} (rest : List HostAction)
    (unseen : x.unseen = (s.unit u).unseen) : HostNotes s (({ s with hostIn := rest } : State).setUnit u x) := by
  refine .kept (fun v => ?_) (by simp) (by simp)
  obtain rfl | rfl := eq_or_eq_otherUnit u v
  · rw [State.unit_setUnit, unseen]
  · rw [State.unit_setUnit_other, unit_popped]

/-- A START shows nothing (R84). -/
theorem startPass_notes (u : UnitId) (s : State) (rest : List HostAction) :
    HostNotes s (startPass u { s with hostIn := rest }) := by
  refine .kept (fun v => ?_) (by simp) (by simp)
  obtain rfl | rfl := eq_or_eq_otherUnit u v
  · rw [startPass_unit, unit_popped]
  · rw [startPass_unit_other, unit_popped]

theorem hostReadReg_notes {u : UnitId} {reg : Nat} {s : State} {rest : List HostAction}
    (hin : s.hostIn = .readReg u reg :: rest) : HostNotes s (hostReadReg u reg { s with hostIn := rest }) := by
  unfold hostReadReg
  dsimp only
  split
  · exact .of_units rfl rfl rfl rfl
  obtain ⟨rfl, ended, e⟩ | ⟨-, e⟩ := noteStatusRead_cases u reg { s with hostIn := rest }
  · rw [unit_popped] at ended
    rw [e]
    refine .shown u rest hin ended ?_ (by simp) (by simp)
    rw [unit_answered, State.unit_setUnit_other, unit_popped]
  · rw [e]
    exact .of_units rfl rfl rfl rfl

theorem hostReadMem_notes (a : Nat) (s : State) (rest : List HostAction) :
    HostNotes s (hostReadMem a { s with hostIn := rest }) := by
  unfold hostReadMem
  split
  · exact .of_units rfl rfl rfl rfl
  · exact .of_units rfl rfl rfl rfl

theorem hostStep_notes {s t : State} (h : hostStep s = .next t) : HostNotes s t := by
  cases hostStep_next h with
  | none _ e => exact e ▸ .of_units rfl rfl rfl rfl
  | readReg u reg rest hin e => exact e ▸ hostReadReg_notes hin
  | start u v rest _ _ _ _ e => exact e ▸ startPass_notes u s rest
  | ignored u reg v rest _ e => exact e ▸ .of_units rfl rfl rfl rfl
  | writeReg u reg v rest _ _ _ e => exact e ▸ .of_setUnit rest rfl
  | readMem a rest _ e => exact e ▸ hostReadMem_notes a s rest
  | writeMem a v rest hin _ e => exact e ▸ .wrote a v rest hin (fun u => by cases u <;> rfl) rfl rfl
  | bind u a b rest _ _ e => exact e ▸ .of_setUnit rest rfl
  | reset rest _ e => exact .reset rest e

/-- The host sees what was unseen only by a STATUS read of DONE or ERROR (R83). -/
theorem HostNotes.unseen {s t : State} {u : UnitId} {a : Nat} (h : HostNotes s t)
    (before : covered (s.unit u).unseen a = true) : covered (t.unit u).unseen a = true ∨
      ∃ rest, s.hostIn = .readReg u 1 :: rest ∧ ((s.unit u).phase = .done ∨ (s.unit u).phase = .error) := by
  cases h with
  | kept unseen => exact .inl (by rwa [unseen])
  | wrote _ _ _ _ unit => exact .inl (by rwa [unit])
  | shown v rest hin ended other =>
    obtain rfl | rfl := eq_or_eq_otherUnit v u
    · exact .inr ⟨rest, hin, ended⟩
    · exact .inl (by rwa [other])
  | reset rest e =>
    obtain ⟨d, unit⟩ := hardwareReset_unit { s with hostIn := rest } u
    left
    rw [e, unit, covered_resetUnit_unseen, unit_popped, hiddenFromHost_iff]
    exact .inr before

/-- The host takes a byte out of what is contested by a write where no write is unseen, or by a reset that ends a pass
in whose OUT it lies (log entry 23). -/
theorem HostNotes.contested {s t : State} {a : Nat} (h : HostNotes s t) (before : covered s.contested a = true) :
    covered t.contested a = true ∨
    (covered s.enc.unseen a = false ∧ covered s.dec.unseen a = false ∧ ∃ v rest, s.hostIn = .writeMem a v :: rest) ∨
    ∃ u w, busy (s.unit u).phase = true ∧ busy (t.unit u).phase = false ∧
      (t.unit u).unseen = w :: (s.unit u).unseen ∧ w.1 ≤ a ∧ a < w.2 := by
  cases h with
  | kept _ contested => exact .inl (by rwa [contested])
  | shown _ _ _ _ _ contested => exact .inl (by rwa [contested])
  | wrote b v rest hin _ contested =>
    rw [contested, covered_contestedAfterWrite]
    by_cases own : a = b
    · subst own
      rw [if_pos rfl, Bool.or_eq_true]
      by_cases unseen : covered s.enc.unseen a = true ∨ covered s.dec.unseen a = true
      · exact .inl unseen
      · simp only [not_or, Bool.not_eq_true] at unseen
        obtain ⟨enc, dec⟩ := unseen
        exact .inr (.inl ⟨enc, dec, v, rest, hin⟩)
    · exact .inl (by rwa [if_neg own])
  | reset rest e =>
    subst e
    by_cases output : ∃ u, outputOfRunningPass (({ s with hostIn := rest } : State).unit u) a = true
    · obtain ⟨u, output⟩ := output
      obtain ⟨d, unit⟩ := hardwareReset_unit { s with hostIn := rest } u
      rw [unit_popped] at output unit
      obtain ⟨running, inside⟩ := outputOfRunningPass_iff.1 output
      refine .inr (.inr ⟨u, ((s.unit u).outBase, (s.unit u).outBase + passOutCap (s.unit u)), running, ?_, ?_,
        of_decide_eq_true inside⟩)
      · rw [unit]
        rfl
      · rw [unit]
        exact if_pos running
    · exact .inl ((covered_hardwareReset_contested output).trans before)

/-- A byte that an action of the host changes is the one it writes, or is hidden after a reset. -/
theorem HostNotes.hidden {s t : State} {a : Nat} (h : HostNotes s t) (changed : t.mem.read a ≠ s.mem.read a) :
    (∃ u, hiddenFromHost (t.unit u) a = true) ∨ ∃ v rest, s.hostIn = .writeMem a v :: rest := by
  cases h with
  | kept _ _ mem => exact absurd (by rw [mem]) changed
  | shown _ _ _ _ _ _ mem => exact absurd (by rw [mem]) changed
  | wrote b v rest hin _ _ mem =>
    rw [mem, Memory.read_write] at changed
    by_cases own : a = b
    · exact .inr ⟨v, rest, own ▸ hin⟩
    · exact absurd (if_neg own) changed
  | reset rest e =>
    subst e
    by_cases output : ∃ u, outputOfRunningPass (({ s with hostIn := rest } : State).unit u) a = true
    · obtain ⟨u, output⟩ := output
      obtain ⟨d, unit⟩ := hardwareReset_unit { s with hostIn := rest } u
      refine .inl ⟨u, ?_⟩
      rw [unit, hiddenFromHost_iff, covered_resetUnit_unseen, hiddenFromHost_iff]
      exact .inr (.inl (outputOfRunningPass_iff.1 output))
    · exact absurd (read_hardwareReset output) changed

/-! ### Every step -/

/-- Whose notes a step keeps or writes: the unit's that moves, or the host's action's. -/
inductive StepNotes (s t : State) : Prop
  | unit (u : UnitId) : UnitNotes u (afterChoice s) t → (Sound s → UnitStep u (afterChoice s) t) → StepNotes s t
  | host : nextAgent s = .host → HostNotes (afterChoice s) t → StepNotes s t

theorem step_notes {s t : State} (h : step s = .next t) : StepNotes s t := by
  cases ha : nextAgent s with
  | host =>
    rw [step_host ha] at h
    exact .host ha (hostStep_notes h)
  | enc =>
    rw [step_enc ha] at h
    exact .unit .enc (encStep_notes h) fun hs => encStep_unitStep hs.afterChoice h
  | dec =>
    rw [step_dec ha] at h
    exact .unit .dec (decStep_notes h) fun hs => decStep_unitStep hs.afterChoice h

theorem exists_hiddenFromHost {s : State} {a : Nat} : (∃ u, hiddenFromHost (s.unit u) a = true) ↔
    hiddenFromHost s.enc a = true ∨ hiddenFromHost s.dec a = true := exists_unit

/-- Settles O46: of all steps only the STATUS read empties `unseen`; only a host write and the end of a pass take from
`contested`; and what a step of a unit or a reset changes stays in what that unit hides. -/
theorem writesStayUnseenUntilAStatusRead : Obligations.WritesStayUnseenUntilAStatusRead := by
  refine ⟨fun u a s t h before => ?_, fun a s t h before => ?_, fun a s t hs h changed => ?_⟩
  · rw [← afterChoice_unit] at before
    cases step_notes h with
    | unit _ notes => exact .inl (notes.unseen before)
    | host ha notes => simpa [ha] using notes.unseen before
  · rw [← afterChoice_contested] at before
    cases step_notes h with
    | unit u notes => exact (notes.contested before).imp_right fun ended => .inr ⟨u, by simpa using ended⟩
    | host ha notes => simpa [ha] using notes.contested before
  · rw [← afterChoice_mem s] at changed
    rw [← or_assoc, ← exists_hiddenFromHost]
    cases step_notes h with
    | unit u notes sound => exact .inl ⟨u, notes.hidden (sound hs) changed⟩
    | host ha notes => simpa [ha] using notes.hidden changed

end Sys2Proof.Machine
end

section
/-! PROOF. The stream format (spec/30_encoding.md R102 to R112): a first byte is one of six forms, the decoder's answer
for each of them is said once, and the statements about decoding and encoding go through these answers. -/

namespace Sys2Proof

open Sys2Proof.Machine (toNat_append_eq_add)

/-! ### Fields -/

/-- A bit field is its upper part above its lower part. -/
theorem exists_eq_append {m n : Nat} (v : BitVec (m + n)) : ∃ (x : BitVec m) (y : BitVec n), v = x ++ y :=
  ⟨_, _, BitVec.extractLsb'_append_extractLsb'.symm⟩

@[simp] theorem tagOf_append (tag : BitVec 2) (low : BitVec 6) : tagOf (tag ++ low : BitVec 8) = tag :=
  BitVec.extractLsb'_append_eq_left

@[simp] theorem lowSix_append (tag : BitVec 2) (low : BitVec 6) : lowSix (tag ++ low : BitVec 8) = low :=
  BitVec.extractLsb'_append_eq_right

/-- DIFF's first byte as tag and operand field (R102, R105). -/
theorem tag_append_diffFields (tag r g b : BitVec 2) :
    (tag ++ r ++ g ++ b : BitVec 8) = (tag ++ (r ++ g ++ b : BitVec 6) : BitVec 8) := by
  apply BitVec.eq_of_toNat_eq
  simp only [toNat_append_eq_add]
  omega

/-- The delta fields of DIFF's first byte (R105). -/
theorem extractLsb'_diffFields (tag r g b : BitVec 2) :
    (tag ++ r ++ g ++ b : BitVec 8).extractLsb' 4 2 = r ∧ (tag ++ r ++ g ++ b : BitVec 8).extractLsb' 2 2 = g ∧
      (tag ++ r ++ g ++ b : BitVec 8).extractLsb' 0 2 = b := by
  refine ⟨?_, ?_, BitVec.extractLsb'_append_eq_right⟩
  · rw [BitVec.extractLsb'_append_eq_of_le (by decide), BitVec.extractLsb'_append_eq_of_le (by decide)]
    exact BitVec.extractLsb'_append_eq_right
  · rw [BitVec.extractLsb'_append_eq_of_le (by decide)]
    exact BitVec.extractLsb'_append_eq_right

/-- Only the two largest operand fields of the tag 11 make a literal tag (R104, R107). -/
theorem tag_append_ne_literal {tag : BitVec 2} {low : BitVec 6} (h : tag = 0b11 → low.toNat < 62) :
    (tag ++ low : BitVec 8) ≠ 0xFE#8 ∧ (tag ++ low : BitVec 8) ≠ 0xFF#8 := by
  have parts (b1 : Byte) (e : (tag ++ low : BitVec 8) = b1) : tag = tagOf b1 ∧ low = lowSix b1 := by simp [← e]
  refine ⟨fun e => ?_, fun e => ?_⟩
  · obtain ⟨rfl, rfl⟩ := parts _ e
    exact absurd (h rfl) (by decide)
  · obtain ⟨rfl, rfl⟩ := parts _ e
    exact absurd (h rfl) (by decide)

/-- A delta in its field's range is read back from the field (R108, R109). -/
theorem unbias_biased {w bias : Nat} {delta : Int} (lo : -(bias : Int) ≤ delta) (hi : delta + bias < (2 : Int) ^ w) :
    unbias bias (biased w bias delta) = delta := by
  have field : (delta + bias) % (2 ^ w : Nat) = delta + bias := Int.emod_eq_of_lt (by omega) (by exact_mod_cast hi)
  rw [unbias, biased, BitVec.toNat_ofInt, field, Int.toNat_of_nonneg (by omega)]
  omega

/-- The delta read from a field is stored as that field (R108, R109). -/
@[simp] theorem biased_unbias {w : Nat} (bias : Nat) (field : BitVec w) : biased w bias (unbias bias field) = field := by
  simp [biased, unbias]

/-- The range of a delta read from a field (R108). -/
theorem unbias_range {w : Nat} (bias : Nat) (field : BitVec w) :
    -(bias : Int) ≤ unbias bias field ∧ unbias bias field < (2 : Int) ^ w - bias := by
  have : (field.toNat : Int) < 2 ^ w := by exact_mod_cast field.isLt
  unfold unbias
  omega

/-! ### The ranges of the deltas -/

theorem wellFormed_diff_iff (dr dg db : Int) : (Instr.diff dr dg db).wellFormed = true ↔
    ((-2 ≤ dr ∧ dr ≤ 1) ∧ (-2 ≤ dg ∧ dg ≤ 1)) ∧ (-2 ≤ db ∧ db ≤ 1) := by
  simp only [Instr.wellFormed, Bool.and_eq_true, decide_eq_true_eq]

theorem wellFormed_luma_iff (dg drg dbg : Int) : (Instr.luma dg drg dbg).wellFormed = true ↔
    ((-32 ≤ dg ∧ dg ≤ 31) ∧ (-8 ≤ drg ∧ drg ≤ 7)) ∧ (-8 ≤ dbg ∧ dbg ≤ 7) := by
  simp only [Instr.wellFormed, Bool.and_eq_true, decide_eq_true_eq]

/-- The deltas of DIFF's fields are in range (R108). -/
theorem wellFormed_diff_unbias (r g b : BitVec 2) :
    (Instr.diff (unbias 2 r) (unbias 2 g) (unbias 2 b)).wellFormed = true := by
  have red := unbias_range 2 r
  have green := unbias_range 2 g
  have blue := unbias_range 2 b
  rw [wellFormed_diff_iff]
  omega

/-- The deltas of LUMA's fields are in range (R108). -/
theorem wellFormed_luma_unbias (g : BitVec 6) (rg bg : BitVec 4) :
    (Instr.luma (unbias 32 g) (unbias 8 rg) (unbias 8 bg)).wellFormed = true := by
  have green := unbias_range 32 g
  have red := unbias_range 8 rg
  have blue := unbias_range 8 bg
  rw [wellFormed_luma_iff]
  omega

/-! ### The six forms of a first byte -/

/-- The forms of a first byte, with its operand fields (R103 to R107). -/
inductive FirstByte : Byte → Prop
  | rgb : FirstByte 0xFE
  | rgba : FirstByte 0xFF
  | index (i : Slot) : FirstByte (0b00#2 ++ i)
  | diff (r g b : BitVec 2) : FirstByte (0b01#2 ++ r ++ g ++ b)
  | luma (g : BitVec 6) : FirstByte (0b10#2 ++ g)
  | run (l : BitVec 6) : l.toNat < 62 → FirstByte (0b11#2 ++ l)

/-- Every first byte has one of the forms (R112): its tag says which, and the two operand fields that RUN does not have
are the literals. -/
theorem firstByte (b1 : Byte) : FirstByte b1 := by
  obtain ⟨tag, low, rfl⟩ := exists_eq_append (m := 2) (n := 6) b1
  have tags : ∀ t : BitVec 2, t = 0b00 ∨ t = 0b01 ∨ t = 0b10 ∨ t = 0b11 := by decide
  obtain rfl | rfl | rfl | rfl := tags tag
  · exact .index low
  · obtain ⟨rg, b, rfl⟩ := exists_eq_append (m := 4) (n := 2) low
    obtain ⟨r, g, rfl⟩ := exists_eq_append (m := 2) (n := 2) rg
    exact tag_append_diffFields .. ▸ .diff r g b
  · exact .luma low
  · by_cases rgb : low = 62
    · exact rgb ▸ .rgb
    by_cases rgba : low = 63
    · exact rgba ▸ .rgba
    exact .run low (by bv_omega)

/-! ### The decoder's answer for each form -/

theorem decode_rgb_cases (rest : List Byte) :
    (∃ r g b left, rest = r :: g :: b :: left ∧ decode (0xFE :: rest) = .ok (.rgb r g b) left) ∨
    (rest.length < 3 ∧ decode (0xFE :: rest) = .truncated) := by
  match rest with
  | r :: g :: b :: left => exact .inl ⟨r, g, b, left, rfl, rfl⟩
  | [] | [_] | [_, _] => exact .inr ⟨by simp, rfl⟩

theorem decode_rgba_cases (rest : List Byte) :
    (∃ r g b a left, rest = r :: g :: b :: a :: left ∧ decode (0xFF :: rest) = .ok (.rgba r g b a) left) ∨
    (rest.length < 4 ∧ decode (0xFF :: rest) = .truncated) := by
  match rest with
  | r :: g :: b :: a :: left => exact .inl ⟨r, g, b, a, left, rfl, rfl⟩
  | [] | [_] | [_, _] | [_, _, _] => exact .inr ⟨by simp, rfl⟩

theorem decode_index (i : Slot) (rest : List Byte) :
    decode ((0b00#2 ++ i : BitVec 8) :: rest) = .ok (.index i) rest := by
  obtain ⟨rgb, rgba⟩ := tag_append_ne_literal (tag := 0b00#2) (low := i) fun h => absurd h (by decide)
  simp [decode, rgb, rgba]

theorem decode_diff (r g b : BitVec 2) (rest : List Byte) :
    decode ((0b01#2 ++ r ++ g ++ b : BitVec 8) :: rest) = .ok (.diff (unbias 2 r) (unbias 2 g) (unbias 2 b)) rest := by
  obtain ⟨rgb, rgba⟩ := tag_append_ne_literal (tag := 0b01#2) (low := r ++ g ++ b) fun h => absurd h (by decide)
  obtain ⟨red, green, blue⟩ := extractLsb'_diffFields 0b01#2 r g b
  rw [tag_append_diffFields] at red green blue ⊢
  simp [decode, rgb, rgba, red, green, blue]

theorem decode_luma (g : BitVec 6) (rg bg : BitVec 4) (rest : List Byte) :
    decode ((0b10#2 ++ g : BitVec 8) :: (rg ++ bg : BitVec 8) :: rest) =
      .ok (.luma (unbias 32 g) (unbias 8 rg) (unbias 8 bg)) rest := by
  obtain ⟨rgb, rgba⟩ := tag_append_ne_literal (tag := 0b10#2) (low := g) fun h => absurd h (by decide)
  have red : (rg ++ bg : BitVec 8).extractLsb' 4 4 = rg := BitVec.extractLsb'_append_eq_left
  have blue : (rg ++ bg : BitVec 8).extractLsb' 0 4 = bg := BitVec.extractLsb'_append_eq_right
  simp [decode, rgb, rgba, red, blue]

/-- LUMA's first byte alone. -/
theorem decode_luma_nil (g : BitVec 6) : decode [(0b10#2 ++ g : BitVec 8)] = .truncated := by
  obtain ⟨rgb, rgba⟩ := tag_append_ne_literal (tag := 0b10#2) (low := g) fun h => absurd h (by decide)
  simp [decode, rgb, rgba]

theorem decode_run {l : BitVec 6} (h : l.toNat < 62) (rest : List Byte) :
    decode ((0b11#2 ++ l : BitVec 8) :: rest) = .ok (.run (l.toNat + 1)) rest := by
  obtain ⟨rgb, rgba⟩ := tag_append_ne_literal (tag := 0b11#2) fun _ => h
  simp [decode, rgb, rgba]

/-! ### Decoding and encoding invert each other -/

/-- Settles O4: each field of the encoding is read back, and no RUN that R108 allows meets a literal tag. -/
theorem decodeOfEncode : Obligations.DecodeOfEncode := by
  intro i rest wf
  cases i with
  | rgb r g b => rfl
  | rgba r g b a => rfl
  | index slot => exact decode_index slot rest
  | diff dr dg db =>
    obtain ⟨⟨red, green⟩, blue⟩ := (wellFormed_diff_iff dr dg db).1 wf
    have answer := decode_diff (biased 2 2 dr) (biased 2 2 dg) (biased 2 2 db) rest
    rwa [unbias_biased (by omega) (by omega), unbias_biased (by omega) (by omega),
      unbias_biased (by omega) (by omega)] at answer
  | luma dg drg dbg =>
    obtain ⟨⟨green, red⟩, blue⟩ := (wellFormed_luma_iff dg drg dbg).1 wf
    have answer := decode_luma (biased 6 32 dg) (biased 4 8 drg) (biased 4 8 dbg) rest
    rwa [unbias_biased (by omega) (by omega), unbias_biased (by omega) (by omega),
      unbias_biased (by omega) (by omega)] at answer
  | run len =>
    obtain ⟨pos, le⟩ := of_decide_eq_true wf
    have field : (BitVec.ofNat 6 (len - 1)).toNat = len - 1 := Nat.mod_eq_of_lt (by omega)
    have answer := decode_run (l := BitVec.ofNat 6 (len - 1)) (by omega) rest
    rwa [field, Nat.sub_add_cancel pos] at answer

/-- Settles O5, by the form of the first byte: the answer's operands are its fields, which are in range and are stored
as those fields. -/
theorem decodedIsEncodingOfWellFormed : Obligations.DecodedIsEncodingOfWellFormed := by
  intro bs rest i h
  cases bs with
  | nil => cases h
  | cons b1 tail =>
    cases firstByte b1 with
    | rgb =>
      obtain ⟨r, g, b, left, rfl, answer⟩ | ⟨-, answer⟩ := decode_rgb_cases tail <;> cases answer.symm.trans h
      exact ⟨rfl, rfl⟩
    | rgba =>
      obtain ⟨r, g, b, a, left, rfl, answer⟩ | ⟨-, answer⟩ := decode_rgba_cases tail <;> cases answer.symm.trans h
      exact ⟨rfl, rfl⟩
    | index slot =>
      cases (decode_index slot tail).symm.trans h
      exact ⟨rfl, rfl⟩
    | diff r g b =>
      cases (decode_diff r g b tail).symm.trans h
      exact ⟨wellFormed_diff_unbias r g b, by simp [encode]⟩
    | luma g =>
      cases tail with
      | nil => cases (decode_luma_nil g).symm.trans h
      | cons b2 tail =>
        obtain ⟨rg, bg, rfl⟩ := exists_eq_append (m := 4) (n := 4) b2
        cases (decode_luma g rg bg tail).symm.trans h
        exact ⟨wellFormed_luma_unbias g rg bg, by simp [encode]⟩
    | run l lt =>
      cases (decode_run lt tail).symm.trans h
      exact ⟨decide_eq_true (by omega), by simp [encode]⟩

/-! ### The first byte's ranges -/

/-- A first byte's number is its tag's and its operand field's (R102). -/
theorem toNat_tag_append (tag : BitVec 2) (low : BitVec 6) :
    (tag ++ low : BitVec 8).toNat = tag.toNat * 64 + low.toNat := toNat_append_eq_add tag low

theorem toNat_diffByte (r g b : BitVec 2) :
    (0b01#2 ++ r ++ g ++ b : BitVec 8).toNat = 64 + r.toNat * 16 + g.toNat * 4 + b.toNat := by
  simp only [toNat_append_eq_add, BitVec.toNat_ofNat]
  omega

/-- Settles O6, by the form of the first byte: each form is one of the ranges, and the fields are its digits there. -/
theorem firstByteSelectsChunk : Obligations.FirstByteSelectsChunk := by
  intro b1 x2 x3 x4 x5 rest
  cases firstByte b1 with
  | rgb => exact ⟨_, _, rfl, .inl ⟨rfl, rfl, rfl⟩⟩
  | rgba => exact ⟨_, _, rfl, .inr (.inl ⟨rfl, rfl, rfl⟩)⟩
  | index slot =>
    have number : (0b00#2 ++ slot : BitVec 8).toNat = slot.toNat := by simpa using toNat_tag_append 0b00#2 slot
    refine ⟨_, _, decode_index .., .inr (.inr (.inl ⟨?_, ?_, rfl⟩))⟩
    · omega
    · rw [number, BitVec.ofNat_toNat, BitVec.setWidth_eq]
  | diff r g b =>
    have number := toNat_diffByte r g b
    refine ⟨_, _, decode_diff .., .inr (.inr (.inr (.inl ⟨?_, ?_, ?_, rfl⟩)))⟩
    · omega
    · omega
    · unfold unbias
      congr 2 <;> omega
  | luma g =>
    obtain ⟨rg, bg, rfl⟩ := exists_eq_append (m := 4) (n := 4) x2
    have first : (0b10#2 ++ g : BitVec 8).toNat = 128 + g.toNat := toNat_tag_append 0b10#2 g
    have second := toNat_append_eq_add rg bg
    refine ⟨_, _, decode_luma .., .inr (.inr (.inr (.inr (.inl ⟨?_, ?_, ?_, rfl⟩))))⟩
    · omega
    · omega
    · unfold unbias
      congr 2 <;> omega
  | run l lt =>
    have number : (0b11#2 ++ l : BitVec 8).toNat = 192 + l.toNat := toNat_tag_append 0b11#2 l
    refine ⟨_, _, decode_run lt _, .inr (.inr (.inr (.inr (.inr ⟨?_, ?_, ?_, rfl⟩))))⟩
    · omega
    · omega
    · congr 1
      omega

/-! ### Which bytes are rejected -/

/-- The length that a byte selects that is no literal tag (R110): its tag decides. -/
theorem chunkLength_tag_append {tag : BitVec 2} {low : BitVec 6} (h : tag = 0b11 → low.toNat < 62) :
    chunkLength (tag ++ low : BitVec 8) = if tag = 0b10 then 2 else 1 := by
  obtain ⟨rgb, rgba⟩ := tag_append_ne_literal h
  simp [chunkLength, rgb, rgba]

/-- A first byte and what follows are decoded to a chunk, or end inside the chunk that the first byte selects (R110,
R252). -/
theorem decode_cons_cases (b1 : Byte) (rest : List Byte) :
    (∃ i left, decode (b1 :: rest) = .ok i left ∧ chunkLength b1 ≤ rest.length + 1) ∨
    (decode (b1 :: rest) = .truncated ∧ rest.length + 1 < chunkLength b1) := by
  cases firstByte b1 with
  | rgb =>
    have four : chunkLength 0xFE = 4 := rfl
    obtain ⟨r, g, b, left, rfl, answer⟩ | ⟨short, answer⟩ := decode_rgb_cases rest
    · exact .inl ⟨_, _, answer, by simp only [four, List.length_cons]; omega⟩
    · exact .inr ⟨answer, by omega⟩
  | rgba =>
    have five : chunkLength 0xFF = 5 := rfl
    obtain ⟨r, g, b, a, left, rfl, answer⟩ | ⟨short, answer⟩ := decode_rgba_cases rest
    · exact .inl ⟨_, _, answer, by simp only [five, List.length_cons]; omega⟩
    · exact .inr ⟨answer, by omega⟩
  | index slot =>
    have one := chunkLength_tag_append (tag := 0b00#2) (low := slot) fun h => absurd h (by decide)
    exact .inl ⟨_, _, decode_index .., by simp [one]⟩
  | diff r g b =>
    have one := chunkLength_tag_append (tag := 0b01#2) (low := r ++ g ++ b) fun h => absurd h (by decide)
    exact .inl ⟨_, _, decode_diff .., by simp [tag_append_diffFields, one]⟩
  | luma g =>
    have two := chunkLength_tag_append (tag := 0b10#2) (low := g) fun h => absurd h (by decide)
    cases rest with
    | nil => exact .inr ⟨decode_luma_nil g, by simp [two]⟩
    | cons b2 rest =>
      obtain ⟨rg, bg, rfl⟩ := exists_eq_append (m := 4) (n := 4) b2
      exact .inl ⟨_, _, decode_luma .., by simp [two]⟩
  | run l lt =>
    have one := chunkLength_tag_append (tag := 0b11#2) fun _ => lt
    exact .inl ⟨_, _, decode_run lt rest, by simp [one]⟩

/-- The range of LUMA's first bytes (R110). -/
theorem tagOf_eq_luma_iff : ∀ b1 : Byte, tagOf b1 = 0b10 ↔ 0x80 ≤ b1.toNat ∧ b1.toNat ≤ 0xBF := by decide

/-- When a list is shorter than the chunk that its first byte selects (R110). -/
theorem lt_chunkLength_iff (b1 : Byte) (rest : List Byte) : rest.length + 1 < chunkLength b1 ↔
    (b1 = 0xFE ∧ rest.length < 3) ∨ (b1 = 0xFF ∧ rest.length < 4) ∨
      (0x80 ≤ b1.toNat ∧ b1.toNat ≤ 0xBF ∧ rest = []) := by
  rw [← and_assoc (a := 0x80 ≤ b1.toNat), ← tagOf_eq_luma_iff, ← List.length_eq_zero_iff]
  unfold chunkLength
  split
  · rename_i rgb
    subst rgb
    have other : (0xFE : Byte) ≠ 0xFF ∧ tagOf 0xFE ≠ 0b10 := by decide
    simp only [other, true_and, false_and, or_false]
    omega
  rename_i rgb
  split
  · rename_i rgba
    subst rgba
    have other : tagOf 0xFF ≠ 0b10 := by decide
    simp only [rgb, other, true_and, false_and, or_false, false_or]
    omega
  rename_i rgba
  split
  · rename_i luma
    simp only [rgb, rgba, luma, false_and, false_or, true_and]
    omega
  · rename_i single
    simp only [rgb, rgba, single, false_and, or_false, iff_false]
    omega

/-- Settles O7: bytes are truncated when they are fewer than their first byte's chunk has, and are decoded
otherwise. -/
theorem decodeRejectsOnlyShortBytes : Obligations.DecodeRejectsOnlyShortBytes := by
  refine ⟨rfl, fun b1 rest => ?_⟩
  rw [← lt_chunkLength_iff]
  obtain ⟨i, left, answer, long⟩ | ⟨answer, short⟩ := decode_cons_cases b1 rest
  · simp [answer, long]
  · simp [answer, short]

/-- Settles O8: the decoder is run on each of the six words. -/
theorem wordsDecodeAsTheTableSays : Obligations.WordsDecodeAsTheTableSays := by
  unfold Obligations.WordsDecodeAsTheTableSays
  decide

end Sys2Proof
end

section
/-! PROOF. The pixel model (spec/40_pixel_model.md R135 to R139): the index hash is one ring expression over 6-bit words,
which truncation of wider words preserves; channel addition and the signed delta are sum and difference of bytes. -/

namespace Sys2Proof.Machine

/-- The hash computed in 6-bit words: `BitVec.ofNat` carries the integer sum to the wrapping one. -/
theorem pixelHash_eq_wrappedSum (p : Pixel) :
    pixelHash p = BitVec.ofNat 6 p.r.toNat * BitVec.ofNat 6 3 + BitVec.ofNat 6 p.g.toNat * BitVec.ofNat 6 5 +
      BitVec.ofNat 6 p.b.toNat * BitVec.ofNat 6 7 + BitVec.ofNat 6 p.a.toNat * BitVec.ofNat 6 11 := by
  simp only [pixelHash, BitVec.ofNat_add, BitVec.ofNat_mul]

/-- The low 6 bits of the sum wrapped at any width of at least 6 bits are the hash (R135). -/
theorem setWidth_wrappedSum (p : Pixel) {w : Nat} (hw : 6 ≤ w) :
    (BitVec.ofNat w p.r.toNat * BitVec.ofNat w 3 + BitVec.ofNat w p.g.toNat * BitVec.ofNat w 5 +
      BitVec.ofNat w p.b.toNat * BitVec.ofNat w 7 + BitVec.ofNat w p.a.toNat * BitVec.ofNat w 11).setWidth 6 =
        pixelHash p := by
  simp only [pixelHash_eq_wrappedSum, BitVec.setWidth_add _ _ hw, BitVec.setWidth_mul _ _ hw,
    BitVec.setWidth_ofNat_of_le hw]

/-- Adding the signed delta restores the channel, across the wrap too (R139). -/
@[simp] theorem channelAdd_signedDelta (x y : Byte) : channelAdd y (signedDelta x y) = x := by
  rw [channelAdd_eq, ofInt_signedDelta, add_sub_cancel]

/-- Two deltas added one after the other are their sum added once (R139). -/
@[simp] theorem channelAdd_channelAdd (y : Byte) (d1 d2 : Int) :
    channelAdd (channelAdd y d1) d2 = channelAdd y (d1 + d2) := by
  simp only [channelAdd_eq, BitVec.ofInt_add, BitVec.add_assoc]

/-- The signed delta is the channel difference modulo 256 (R137). -/
theorem signedDelta_sub_emod (x y : Byte) :
    (signedDelta x y - ((x.toNat : Int) - (y.toNat : Int))) % 256 = 0 := by
  have residue := congrArg BitVec.toNat (ofInt_signedDelta x y)
  rw [BitVec.toNat_ofInt, BitVec.toNat_sub] at residue
  omega

/-- Settles O1: the slot is the sum's remainder by 2 ^ 6, and the wrapped sum's low 6 bits are the same slot. -/
theorem hashIsWeightedSumModSixtyFour : Obligations.HashIsWeightedSumModSixtyFour := by
  refine fun p => ⟨BitVec.toNat_ofNat .., fun w hw => ?_⟩
  rw [← setWidth_wrappedSum p hw, BitVec.toNat_setWidth]

/-- Settles O3: both halves are laws of byte addition. -/
theorem deltaAddRestoresChannel : Obligations.DeltaAddRestoresChannel :=
  ⟨channelAdd_signedDelta, channelAdd_channelAdd⟩

/-- Settles O2: the range is `s8`'s, the congruence that of the byte difference it reads. -/
theorem signedDeltaIsWrappedDifference : Obligations.SignedDeltaIsWrappedDifference := fun x y =>
  ⟨(signedDelta_lt x y).1, (signedDelta_lt x y).2, signedDelta_sub_emod x y⟩

end Sys2Proof.Machine
end

section
/-! PROOF. The chunks in DEC (spec/41_chunk_codec.md R160 to R167): what each completes to, said with the cache as the
WRITE leaves it, and that the chunk which ENC chooses takes DEC to its pixel and its state. -/

namespace Sys2Proof.Safety

open Sys2Proof.Machine

/-! ### What a chunk that takes its pixel does -/

/-- `s` goes to `t` by a chunk of `len` bytes that produces `px`: a pixel step that leaves `prev` at the pixel and the
cache at `idx`, and owes nothing (R160 to R162, R164, R165). -/
structure TakesPixel (s t : State) (len : Nat) (px : Pixel) (idx : Cache) : Prop where
  made : PixelStep s t len px
  prev : t.dec.prev = px
  idx : t.dec.idx = idx
  run : t.dec.run = s.dec.run

theorem CacheTook.cacheWrite (idx : Cache) (px : Pixel) : CacheTook idx (cacheWrite idx px) px :=
  cacheLookup_cacheWrite idx px

theorem TakesPixel.cacheTook {s t : State} {len : Nat} {px : Pixel}
    (h : TakesPixel s t len px (cacheWrite s.dec.idx px)) : CacheTook s.dec.idx t.dec.idx px :=
  h.idx ▸ .cacheWrite _ _

/-- A chunk of more than one byte that lies inside IN. -/
theorem longChunk_takes {s : State} {len : Nat} (px : Pixel) (room : PixelRoom s)
    (fits : s.dec.ipos.toNat + len ≤ s.dec.lat.inLen.toNat) :
    ∃ t, longChunk len px s = .next t ∧ TakesPixel s t len px (cacheWrite s.dec.idx px) := by
  obtain ⟨t, next, made, prev, idx, run⟩ := longChunk_step (px := px) room fits
  exact ⟨t, next, made, prev, idx, run⟩

theorem exec_index_takes {s : State} (room : PixelRoom s) (i : Slot) {px : Pixel} (hit : cacheLookup s.dec.idx i = px) :
    ∃ t, exec (.index i) s = .next t ∧
      TakesPixel s t 1 px (if s.params.decUpdateOnIndex then cacheWrite s.dec.idx px else s.dec.idx) := by
  subst hit
  obtain ⟨t, next, made, prev, idx, run⟩ := finishPixel_step (px := cacheLookup s.dec.idx i) room rfl
  exact ⟨t, next, made, prev, idx, run⟩

theorem exec_diff_takes {s : State} (room : PixelRoom s) (dr dg db : Int) :
    ∃ t, exec (.diff dr dg db) s = .next t ∧
      TakesPixel s t 1 (diffPixel s.dec.prev dr dg db) (cacheWrite s.dec.idx (diffPixel s.dec.prev dr dg db)) := by
  obtain ⟨t, next, made, prev, idx, run⟩ := finishPixel_step (px := diffPixel s.dec.prev dr dg db) room rfl
  exact ⟨t, next, made, prev, idx, run⟩

/-- RUN gives the previous pixel once and leaves the rest owed (R163). -/
theorem exec_run_next {s : State} {len : Nat} (room : PixelRoom s) (short : len ≤ 62) :
    ∃ t, exec (.run len) s = .next t ∧ PixelStep s t 1 s.dec.prev ∧ t.dec.run.toNat = len - 1 ∧
      t.dec.prev = s.dec.prev ∧ t.dec.idx = s.dec.idx := by
  obtain ⟨t, next, made, prev, idx, run⟩ := finishPixel_step (px := s.dec.prev) room rfl
  exact ⟨t, next, made, run ▸ Nat.mod_eq_of_lt (by omega), prev, idx⟩

/-! ### The chunks -/

/-- Settles O10: RGB is the long chunk of 4 bytes with the previous alpha. -/
theorem rgbTakesPreviousAlpha : Obligations.RgbTakesPreviousAlpha := by
  intro r g b s room fits
  obtain ⟨t, next, takes⟩ := longChunk_takes ⟨r, g, b, s.dec.prev.a⟩ room fits
  exact ⟨t, next, takes.made, takes.prev, takes.run, takes.cacheTook⟩

/-- Settles O11: RGBA is the long chunk of 5 bytes with all four channels. -/
theorem rgbaTakesAllChannels : Obligations.RgbaTakesAllChannels := by
  intro r g b a s room fits
  obtain ⟨t, next, takes⟩ := longChunk_takes ⟨r, g, b, a⟩ room fits
  exact ⟨t, next, takes.made, takes.prev, takes.run, takes.cacheTook⟩

/-- Settles O12, by the two values of `P_DEC_UPDATE_ON_INDEX`. -/
theorem indexTakesCachedPixel : Obligations.IndexTakesCachedPixel := by
  intro i s room
  obtain ⟨t, next, made, prev, idx, run⟩ := exec_index_takes room i rfl
  refine ⟨t, next, made, prev, run, fun keep => ?_, fun update => ?_⟩
  · rw [idx, keep]
    rfl
  · rw [idx, update]
    exact .cacheWrite _ _

/-- Settles O13: `channelAdd` is the addition of bytes. -/
theorem diffAddsDeltas : Obligations.DiffAddsDeltas := by
  intro dr dg db s room
  obtain ⟨t, next, takes⟩ := exec_diff_takes room dr dg db
  exact ⟨t, _, next, takes.made, channelAdd_eq .., channelAdd_eq .., channelAdd_eq .., rfl, takes.prev, takes.run,
    takes.cacheTook⟩

/-- Settles O14: LUMA is the long chunk of 2 bytes, and `channelAdd` is the addition of bytes. -/
theorem lumaAddsGreenAndRelativeDeltas : Obligations.LumaAddsGreenAndRelativeDeltas := by
  intro dg drg dbg s room fits
  obtain ⟨t, next, takes⟩ := longChunk_takes (lumaPixel s.dec.prev dg drg dbg) room fits
  exact ⟨t, _, next, takes.made, channelAdd_eq .., channelAdd_eq .., channelAdd_eq .., rfl, takes.prev, takes.run,
    takes.cacheTook⟩

/-- Settles O15: the counter of 6 bits holds every length that is owed. -/
theorem runOwesTheRest : Obligations.RunOwesTheRest := fun _ _ _ short room => exec_run_next room short

/-! ### The chunk that ENC chooses -/

/-- DIFF of the signed deltas gives the pixel, where alpha is kept (R139, R161). -/
theorem diffPixel_signedDelta {prev p : Pixel} (alpha : p.a = prev.a) :
    diffPixel prev (signedDelta p.r prev.r) (signedDelta p.g prev.g) (signedDelta p.b prev.b) = p := by
  simp [diffPixel, ← alpha]

/-- LUMA of green's signed delta and the differences to it gives the pixel, where alpha is kept (R139, R162). -/
theorem lumaPixel_signedDelta {prev p : Pixel} (alpha : p.a = prev.a) :
    lumaPixel prev (signedDelta p.g prev.g) (signedDelta p.r prev.r - signedDelta p.g prev.g)
      (signedDelta p.b prev.b - signedDelta p.g prev.g) = p := by
  simp [lumaPixel, ← alpha]

/-- The chunks of selections (c) to (e) of R211: each has operands in range that give the pixel from `prev`. -/
inductive Codes (prev p : Pixel) : Instr → Prop
  | diff (dr dg db : Int) : (Instr.diff dr dg db).wellFormed = true → diffPixel prev dr dg db = p →
      Codes prev p (.diff dr dg db)
  | luma (dg drg dbg : Int) : (Instr.luma dg drg dbg).wellFormed = true → lumaPixel prev dg drg dbg = p →
      Codes prev p (.luma dg drg dbg)
  | rgb : p.a = prev.a → Codes prev p (.rgb p.r p.g p.b)
  | rgba : Codes prev p (.rgba p.r p.g p.b p.a)

/-- ENC's tests of the deltas are the ranges of R108 (R217 to R219). -/
theorem codes_codedChunk (prev p : Pixel) : Codes prev p (codedChunk prev p) := by
  unfold codedChunk
  dsimp only
  split
  · rename_i alpha
    split
    · rename_i fits
      exact .diff _ _ _ fits (diffPixel_signedDelta alpha)
    split
    · rename_i fits
      exact .luma _ _ _ fits (lumaPixel_signedDelta alpha)
    · exact .rgb alpha
  · exact .rgba

theorem Codes.wellFormed {prev p : Pixel} {i : Instr} (h : Codes prev p i) : i.wellFormed = true := by
  cases h with
  | diff _ _ _ wf => exact wf
  | luma _ _ _ wf => exact wf
  | rgb => rfl
  | rgba => rfl

/-- Whichever of these chunks it is, DEC takes the pixel from it and WRITEs the cache (R161, R162, R164, R165). -/
theorem Codes.exec_takes {s : State} {p : Pixel} {i : Instr} (h : Codes s.dec.prev p i) (room : PixelRoom s)
    (fits : s.dec.ipos.toNat + (encode i).length ≤ s.dec.lat.inLen.toNat) :
    ∃ t, exec i s = .next t ∧ TakesPixel s t (encode i).length p (cacheWrite s.dec.idx p) := by
  cases h with
  | diff dr dg db _ gives => exact gives ▸ exec_diff_takes room dr dg db
  | luma dg drg dbg _ gives => exact gives ▸ longChunk_takes (lumaPixel s.dec.prev dg drg dbg) room fits
  | rgb alpha =>
    obtain ⟨t, next, takes⟩ := longChunk_takes ⟨p.r, p.g, p.b, s.dec.prev.a⟩ room fits
    rw [← alpha] at takes
    exact ⟨t, next, takes⟩
  | rgba => exact longChunk_takes p room fits

/-- A WRITE of the pixel that the slot holds changes nothing (R141, R142). -/
theorem cacheWrite_of_hit {idx : Cache} {p : Pixel} (hit : cacheLookup idx (pixelHash p) = p) :
    cacheWrite idx p = idx :=
  calc cacheWrite idx p = idx.set (pixelHash p).toNat (cacheLookup idx (pixelHash p)) := by rw [hit, cacheWrite]
    _ = idx := Vector.set_getElem_self _

/-- The chunk that ENC chooses gives its pixel, and the cache as ENC's becomes (R160, R167, R216). -/
theorem exec_chunkFor {s : State} {p : Pixel} (room : PixelRoom s)
    (fits : s.dec.ipos.toNat + (encode (chunkFor s.dec.prev s.dec.idx p)).length ≤ s.dec.lat.inLen.toNat) :
    ∃ t, exec (chunkFor s.dec.prev s.dec.idx p) s = .next t ∧
      TakesPixel s t (encode (chunkFor s.dec.prev s.dec.idx p)).length p
        (if cacheLookup s.dec.idx (pixelHash p) = p then s.dec.idx else cacheWrite s.dec.idx p) := by
  rw [chunkFor_eq] at fits ⊢
  by_cases hit : cacheLookup s.dec.idx (pixelHash p) = p
  · rw [if_pos hit, if_pos hit]
    have made := exec_index_takes room (pixelHash p) hit
    rwa [cacheWrite_of_hit hit, ite_self] at made
  · rw [if_neg hit] at fits ⊢
    rw [if_neg hit]
    exact (codes_codedChunk _ p).exec_takes room fits

/-- Settles O33: a pixel that is no repetition takes ENC to the same `prev` and cache (R215 to R220). -/
theorem decodedChunkRestoresPixelAndState : Obligations.DecodedChunkRestoresPixelAndState := by
  intro e p last s differs prev idx room fits
  rw [← prev, ← idx] at fits ⊢
  obtain ⟨t, next, takes⟩ := exec_chunkFor room fits
  rw [encPixelEffect_break differs]
  exact ⟨t, next, takes.made, takes.prev, takes.idx.trans (by rw [idx]), takes.run⟩

end Sys2Proof.Safety
end

section
/-! PROOF. The stream of an image (spec/42_encoder.md R211 to R220) as a function of ENC's unit and the pixels it still
has to code, and where DEC stands in it: DEC meets a RUN byte at the first pixel of its run, ENC emits it at the last.
-/

namespace Sys2Proof.Safety

open Sys2Proof.Machine

/-! ### The stream -/

/-- ENC after its PIXELS step for the pixel `p`. -/
def encNext (last : Bool) (p : Pixel) (x : UnitState) : UnitState := encAfterPixel x (encPixelEffect last p x)

/-- What ENC emits for the pixels that are left, the last of them the image's last. -/
def streamFrom (x : UnitState) : List Pixel → List Byte
  | [] => []
  | p :: ps => (encPixelEffect ps.isEmpty p x).1 ++ streamFrom (encNext ps.isEmpty p x) ps

/-- A repetition that ends its run: the RUN byte is emitted (R212, R214). -/
theorem streamFrom_flush {x : UnitState} {ps : List Pixel} (h : x.run + 1 = 62 ∨ ps.isEmpty = true) :
    streamFrom x (x.prev :: ps) = encode (.run (x.run + 1).toNat) ++ streamFrom (encNext ps.isEmpty x.prev x) ps ∧
      (encNext ps.isEmpty x.prev x).run = 0 := by
  rw [streamFrom, encNext, encPixelEffect_flush h]
  exact ⟨rfl, rfl⟩

/-- Any other repetition emits nothing. -/
theorem streamFrom_grow {x : UnitState} {ps : List Pixel} (h : ¬(x.run + 1 = 62 ∨ ps.isEmpty = true)) :
    streamFrom x (x.prev :: ps) = streamFrom (encNext ps.isEmpty x.prev x) ps ∧
      (encNext ps.isEmpty x.prev x).run = x.run + 1 := by
  rw [streamFrom, encNext, encPixelEffect_grow h]
  exact ⟨rfl, rfl⟩

/-- A pixel that is no repetition emits the run that is owed, and its chunk (R215 to R220). -/
theorem streamFrom_break {p : Pixel} {x : UnitState} {ps : List Pixel} (h : p ≠ x.prev) :
    streamFrom x (p :: ps) = (if x.run = 0 then [] else encode (.run x.run.toNat)) ++
        (encode (chunkFor x.prev x.idx p) ++ streamFrom (encNext ps.isEmpty p x) ps) ∧
      (encNext ps.isEmpty p x).run = 0 := by
  rw [streamFrom, encNext, encPixelEffect_break h, List.append_assoc]
  refine ⟨?_, rfl⟩
  by_cases zero : x.run = 0 <;> simp [runActive, zero]

/-- `prev` and the cache stay in a repetition. -/
theorem encNext_repeated (last : Bool) (x : UnitState) :
    (encNext last x.prev x).prev = x.prev ∧ (encNext last x.prev x).idx = x.idx := by
  by_cases h : x.run + 1 = 62 ∨ last = true
  · rw [encNext, encPixelEffect_flush h]
    exact ⟨rfl, rfl⟩
  · rw [encNext, encPixelEffect_grow h]
    exact ⟨rfl, rfl⟩

/-- A run that R34 allows stays so. -/
theorem encNext_run_le {x : UnitState} (last : Bool) (p : Pixel) (run : x.run.toNat ≤ 61) :
    (encNext last p x).run.toNat ≤ 61 := by
  by_cases repeated : p = x.prev
  · subst repeated
    by_cases h : x.run + 1 = 62 ∨ last = true
    · rw [encNext, encPixelEffect_flush h]
      exact Nat.zero_le _
    · rw [encNext, encPixelEffect_grow h]
      rw [not_or] at h
      show (x.run + 1).toNat ≤ 61
      bv_omega
  · rw [encNext, encPixelEffect_break repeated]
    exact Nat.zero_le _

/-! ### Chunks in a stream -/

/-- A stream begins with one chunk only (R110): what the decoder reads. -/
theorem encode_append_inj {i j : Instr} {bs cs : List Byte} (hi : i.wellFormed = true) (hj : j.wellFormed = true)
    (h : encode i ++ bs = encode j ++ cs) : i = j ∧ bs = cs := by
  have decoded := decodeOfEncode i bs hi
  rw [h, decodeOfEncode j cs hj] at decoded
  cases decoded
  exact ⟨rfl, rfl⟩

theorem wellFormed_run {len : Nat} (pos : 1 ≤ len) (le : len ≤ 62) : (Instr.run len).wellFormed = true :=
  decide_eq_true ⟨pos, le⟩

/-- ENC chooses chunks that a stream can hold (R222). -/
theorem wellFormed_chunkFor (prev p : Pixel) (idx : Cache) : (chunkFor prev idx p).wellFormed = true := by
  rw [chunkFor_eq]
  split
  · rfl
  · exact (codes_codedChunk prev p).wellFormed

/-! ### Where DEC stands in the stream -/

/-- ENC is `x` before the pixels `ps`; DEC, before them too, owes `d` pixels of a run and has the bytes `bs` ahead. When
ENC holds no run back, DEC owes none; else DEC is past the RUN byte that ENC has yet to emit, and that counts the
pixels that ENC holds back and those that DEC owes. -/
inductive Owes (x : UnitState) (ps : List Pixel) : Nat → List Byte → Prop
  | none : x.run = 0 → Owes x ps 0 (streamFrom x ps)
  | run (d : Nat) (bs : List Byte) : x.run ≠ 0 → x.run.toNat + d ≤ 62 →
      streamFrom x ps = encode (.run (x.run.toNat + d)) ++ bs → Owes x ps d bs

/-- A repetition begins or goes on in a run whose RUN byte comes next in the stream. -/
def RunAhead (x : UnitState) (ps : List Pixel) : Prop :=
  ∃ d bs, Owes (encNext ps.isEmpty x.prev x) ps d bs ∧ x.run.toNat + 1 + d ≤ 62 ∧
    streamFrom x (x.prev :: ps) = encode (.run (x.run.toNat + 1 + d)) ++ bs

/-- The run ends with this repetition, or later, as what follows says. -/
theorem runAhead_of_rest {x : UnitState} {ps : List Pixel} (run : x.run.toNat ≤ 61)
    (rest : ps ≠ [] → ∀ y : UnitState, y.run.toNat ≤ 61 → ∃ d bs, Owes y ps d bs) : RunAhead x ps := by
  have count : (x.run + 1).toNat = x.run.toNat + 1 := by bv_omega
  by_cases ends : x.run + 1 = 62 ∨ ps.isEmpty = true
  · obtain ⟨stream, flushed⟩ := streamFrom_flush ends
    exact ⟨0, _, .none flushed, by omega, by rw [stream, count, Nat.add_zero]⟩
  · obtain ⟨stream, grown⟩ := streamFrom_grow ends
    rw [not_or] at ends
    obtain ⟨d, bs, owes⟩ := rest (by simpa using ends.2) _ (encNext_run_le ps.isEmpty x.prev run)
    refine ⟨d, bs, owes, ?_⟩
    cases owes with
    | none zero =>
      rw [← grown, zero] at count
      exact absurd count.symm (Nat.succ_ne_zero _)
    | run d bs _ le ahead =>
      rw [grown, count] at le ahead
      exact ⟨le, stream.trans ahead⟩

/-- While pixels are left, the RUN byte of a run that ENC holds back is in the stream. -/
theorem exists_owes {ps : List Pixel} (left : ps ≠ []) (x : UnitState) (run : x.run.toNat ≤ 61) :
    ∃ d bs, Owes x ps d bs := by
  induction ps generalizing x with
  | nil => exact absurd rfl left
  | cons p ps ih =>
    by_cases zero : x.run = 0
    · exact ⟨_, _, .none zero⟩
    by_cases repeated : p = x.prev
    · subst repeated
      obtain ⟨d, bs, -, le, stream⟩ := runAhead_of_rest run ih
      exact ⟨1 + d, bs, .run _ _ zero (by omega) (by rw [stream, Nat.add_assoc])⟩
    · obtain ⟨stream, -⟩ := streamFrom_break (ps := ps) repeated
      rw [if_neg zero] at stream
      exact ⟨0, _, .run _ _ zero (by omega) stream⟩

theorem runAhead {x : UnitState} (ps : List Pixel) (run : x.run.toNat ≤ 61) : RunAhead x ps :=
  runAhead_of_rest run exists_owes

/-- At a repetition DEC owes the pixel, or the RUN byte is ahead of it. -/
theorem Owes.repeated {x : UnitState} {ps : List Pixel} {d : Nat} {bs : List Byte} (h : Owes x (x.prev :: ps) d bs)
    (run : x.run.toNat ≤ 61) :
    (∃ d', d = d' + 1 ∧ Owes (encNext ps.isEmpty x.prev x) ps d' bs) ∨
    (d = 0 ∧ ∃ d' rest, d' + 1 ≤ 62 ∧ bs = encode (.run (d' + 1)) ++ rest ∧
      Owes (encNext ps.isEmpty x.prev x) ps d' rest) := by
  obtain ⟨d', rest, owes, le, stream⟩ := runAhead ps run
  cases h with
  | none zero =>
    have first : x.run.toNat + 1 + d' = d' + 1 := by simp [zero, Nat.add_comm]
    rw [first] at le stream
    exact .inr ⟨rfl, d', rest, le, stream, owes⟩
  | run d bs active le' stream' =>
    have pos : 1 ≤ x.run.toNat := by bv_omega
    obtain ⟨same, rfl⟩ := encode_append_inj (wellFormed_run (by omega) le') (wellFormed_run (by omega) le)
      (stream'.symm.trans stream)
    injection same with count
    exact .inl ⟨d', by omega, owes⟩

/-- At any other pixel DEC owes nothing, and its chunk is ahead. -/
theorem Owes.broken {x : UnitState} {p : Pixel} {ps : List Pixel} {d : Nat} {bs : List Byte}
    (h : Owes x (p :: ps) d bs) (run : x.run.toNat ≤ 61) (differs : p ≠ x.prev) :
    d = 0 ∧ ∃ rest, bs = encode (chunkFor x.prev x.idx p) ++ rest ∧ Owes (encNext ps.isEmpty p x) ps 0 rest := by
  obtain ⟨stream, flushed⟩ := streamFrom_break (ps := ps) differs
  cases h with
  | none zero => exact ⟨rfl, _, by rw [stream, if_pos zero, List.nil_append], .none flushed⟩
  | run d bs active le ahead =>
    have pos : 1 ≤ x.run.toNat := by bv_omega
    rw [if_neg active] at stream
    obtain ⟨same, rest⟩ := encode_append_inj (wellFormed_run (by omega) le) (wellFormed_run pos (by omega))
      (ahead.symm.trans stream)
    injection same with count
    exact ⟨by omega, _, rest, .none flushed⟩

/-- After the image's last pixel nothing is owed, and nothing of the stream is ahead. -/
theorem Owes.nil {x : UnitState} {d : Nat} {bs : List Byte} (h : Owes x [] d bs) : bs = [] := by
  cases h with
  | none => rfl
  | run d bs _ _ ahead => cases ahead

end Sys2Proof.Safety
end

section
/-! PROOF. ENC scheduled alone writes header, stream and end marker of its image into OUT (spec/42_encoder.md R210 to
R221), and changes no byte of the image while it reads it (R73). -/

namespace Sys2Proof.Safety

open Sys2Proof.Machine

/-! ### Bytes in a row -/

theorem inBytes_eq_append {x : UnitState} {m : Memory} {a : Nat} {bs cs : List Byte}
    (h : inBytes x m a (bs ++ cs).length = bs ++ cs) :
    inBytes x m a bs.length = bs ∧ inBytes x m (a + bs.length) cs.length = cs := by
  rw [List.length_append, inBytes_append] at h
  exact List.append_inj h (length_inBytes ..)

/-- Bytes that a later write leaves alone and bytes that it puts behind them are read in a row. -/
theorem readBytes_eq_append {m m' : Memory} {a : Nat} {bs cs : List Byte} (first : m.readBytes a bs.length = bs)
    (kept : ∀ x, x < a + bs.length → m'.read x = m.read x) (second : m'.readBytes (a + bs.length) cs.length = cs) :
    m'.readBytes a (bs ++ cs).length = bs ++ cs := by
  rw [List.length_append, Memory.readBytes_append, second,
    Memory.readBytes_congr m' m a bs.length fun x _ => kept x, first]

/-! ### IN of a running pass -/

/-- No address lies in IN and in OUT of a running pass (R73). -/
theorem Sound.not_inOutput {s : State} {u : UnitId} {a : Nat} (h : Sound s) (running : busy (s.unit u).phase = true)
    (input : inInput (s.unit u) a = true) : inOutput (s.unit u) a = false := by
  have apart :
      windowsMeet (s.unit u).inBase (passInLen (s.unit u)) (s.unit u).outBase (passOutCap (s.unit u)) = false := by
    cases u
    · exact h.apart.enc running
    · exact h.apart.dec running
  exact decide_eq_false (windowsMeet_eq_false.1 apart a (of_decide_eq_true input))

/-- So a step of the unit leaves the bytes of its IN as they are. -/
theorem UnitStep.inBytes_kept {s t : State} {u : UnitId} {a count : Nat} (h : UnitStep u s t) (hs : Sound s)
    (running : busy (s.unit u).phase = true) (order : (t.unit u).unorderedIn = (s.unit u).unorderedIn)
    (draw : (t.unit u).passDraw = (s.unit u).passDraw) (low : (s.unit u).inBase ≤ a)
    (high : a + count ≤ (s.unit u).inBase + passInLen (s.unit u)) :
    inBytes (t.unit u) t.mem a count = inBytes (s.unit u) s.mem a count :=
  inBytes_congr order.symm draw.symm fun j from_a below _ =>
    h.unwritten j (hs.not_inOutput running (decide_eq_true (by omega)))

/-! ### The pixels of an image -/

/-- The bytes of an image, and its pixels (R130, R134): each pixel is made of its bytes, and has these as its byte
form. -/
inductive Image (ch : Byte) : List Byte → List Pixel → Prop
  | nil : Image ch [] []
  | cons {px img : List Byte} {p : Pixel} {ps : List Pixel} : pixelOfBytes px = some p → bytesOfPixel ch p = some px →
      Image ch img ps → Image ch (px ++ img) (p :: ps)

theorem length_of_bytesOfPixel {ch : Byte} {p : Pixel} {px : List Byte} (hch : ch = 3 ∨ ch = 4)
    (h : bytesOfPixel ch p = some px) : px.length = ch.toNat := by
  obtain ⟨bs, hbs, len, -⟩ := bytesOfPixel_eq p hch
  cases h.symm.trans hbs
  exact len

theorem exists_pixel {ch : Byte} {px : List Byte} (hch : ch = 3 ∨ ch = 4) (len : px.length = ch.toNat) :
    ∃ p, pixelOfBytes px = some p ∧ bytesOfPixel ch p = some px := by
  rcases hch with rfl | rfl
  · match px, len with
    | [_, _, _], _ => exact ⟨_, rfl, rfl⟩
  · match px, len with
    | [_, _, _, _], _ => exact ⟨_, rfl, rfl⟩

/-- Every `n * ch` bytes are an image of `n` pixels. -/
theorem exists_image {ch : Byte} (hch : ch = 3 ∨ ch = 4) (n : Nat) {bs : List Byte} (len : bs.length = n * ch.toNat) :
    ∃ ps, ps.length = n ∧ Image ch bs ps := by
  induction n generalizing bs with
  | zero =>
    rw [Nat.zero_mul, List.length_eq_zero_iff] at len
    exact ⟨[], rfl, len ▸ .nil⟩
  | succ n ih =>
    rw [Nat.add_mul, Nat.one_mul] at len
    obtain ⟨p, pixel, bytes⟩ := exists_pixel (px := bs.take ch.toNat) hch (List.length_take_of_le (by omega))
    obtain ⟨ps, count, image⟩ := ih (bs := bs.drop ch.toNat) (by rw [List.length_drop]; omega)
    exact ⟨p :: ps, by rw [List.length_cons, count], List.take_append_drop ch.toNat bs ▸ .cons pixel bytes image⟩

theorem Image.length {ch : Byte} {img : List Byte} {ps : List Pixel} (h : Image ch img ps) (hch : ch = 3 ∨ ch = 4) :
    img.length = ps.length * ch.toNat := by
  induction h with
  | nil => simp
  | cons _ bytes _ ih =>
    rw [List.length_append, length_of_bytesOfPixel hch bytes, ih, List.length_cons, Nat.add_mul, Nat.one_mul,
      Nat.add_comm]

/-! ### What ENC has written -/

/-- From `s` to `t` ENC has written `bs` to OUT from `opos` on and nothing before them, in the same pass. -/
structure Emitted (s t : State) (bs : List Byte) : Prop where
  stored : t.mem.readBytes (s.enc.outBase + s.enc.opos.toNat) bs.length = bs
  below : ∀ a, a < s.enc.outBase + s.enc.opos.toNat → t.mem.read a = s.mem.read a
  opos : t.enc.opos.toNat = s.enc.opos.toNat + bs.length
  room : t.enc.opos.toNat ≤ s.enc.lat.outCap.toNat
  lat : t.enc.lat = s.enc.lat
  outBase : t.enc.outBase = s.enc.outBase
  order : t.enc.unorderedOut = s.enc.unorderedOut
  params : t.params = s.params

theorem Emitted.refl {s : State} (room : s.enc.opos.toNat ≤ s.enc.lat.outCap.toNat) : Emitted s s [] :=
  ⟨rfl, fun _ _ => rfl, rfl, room, rfl, rfl, rfl, rfl⟩

/-- Bytes written at `opos` that fit OUT. -/
theorem Emitted.of_writeBytes {s t : State} {bs : List Byte}
    (fits : s.enc.opos.toNat + bs.length ≤ s.enc.lat.outCap.toNat)
    (mem : t.mem = s.mem.writeBytes (s.enc.outBase + s.enc.opos.toNat) bs)
    (opos : t.enc.opos = s.enc.opos + BitVec.ofNat 64 bs.length) (lat : t.enc.lat = s.enc.lat)
    (outBase : t.enc.outBase = s.enc.outBase) (order : t.enc.unorderedOut = s.enc.unorderedOut)
    (params : t.params = s.params) : Emitted s t bs := by
  have cap := s.enc.lat.outCap.isLt
  have len : (BitVec.ofNat 64 bs.length).toNat = bs.length := Nat.mod_eq_of_lt (by omega)
  have pos : t.enc.opos.toNat = s.enc.opos.toNat + bs.length := by
    rw [opos, BitVec.toNat_add_of_lt (by omega), len]
  refine ⟨?_, fun a below => ?_, pos, pos ▸ fits, lat, outBase, order, params⟩
  · rw [mem, Memory.readBytes_writeBytes]
  · rw [mem, Memory.read_writeBytes_outside _ _ _ _ (.inl below)]

theorem Emitted.trans {s m t : State} {bs cs : List Byte} (h : Emitted s m bs) (h' : Emitted m t cs) :
    Emitted s t (bs ++ cs) := by
  obtain ⟨stored, below, opos, room, lat, outBase, order, params⟩ := h
  obtain ⟨stored', below', opos', room', lat', outBase', order', params'⟩ := h'
  rw [outBase, opos, ← Nat.add_assoc] at stored' below'
  refine ⟨readBytes_eq_append stored below' stored', fun a lt => ?_, ?_, lat ▸ room', lat'.trans lat,
    outBase'.trans outBase, order'.trans order, params'.trans params⟩
  · rw [below' a (by omega), below a lt]
  · rw [opos', opos, List.length_append, Nat.add_assoc]

/-- The agents that move next play no part. -/
theorem Emitted.unscheduled {s t : State} {bs : List Byte} {rest : List Agent}
    (h : Emitted { s with schedule := rest } t bs) : Emitted s t bs :=
  ⟨h.stored, h.below, h.opos, h.room, h.lat, h.outBase, h.order, h.params⟩

/-! ### Steps of a scheduled unit -/

theorem step_scheduled {s : State} {a : Agent} {rest : List Agent} (h : s.schedule = a :: rest) :
    step s = agentStep a { s with schedule := rest } := by
  rw [step, (nextAgent_cons h).1, afterChoice, h]

theorem Sound.scheduled {s : State} (h : Sound s) (rest : List Agent) : Sound { s with schedule := rest } :=
  h.of_fields h.mem rfl rfl rfl

/-! ### PIXELS -/

/-- The last pixel is the one that none follows. -/
theorem decide_last {k n : Nat} {ps : List Pixel} (count : k + (ps.length + 1) = n) :
    decide (k + 1 = n) = ps.isEmpty := by
  rw [Bool.eq_iff_iff, decide_eq_true_iff, List.isEmpty_iff_length_eq_zero]
  omega

/-- The phase of a pass of which the pixels `ps` are left. -/
def phaseBefore (ps : List Pixel) : Phase := if ps.isEmpty then .footer else .pixels

theorem phaseBefore_next {k n : Word64} {ps : List Pixel} (count : k.toNat + (ps.length + 1) = n.toNat) :
    (if k + 1 = n then Phase.footer else .pixels) = phaseBefore ps := by
  have last : k + 1 = n ↔ k.toNat + 1 = n.toNat := by
    rw [← BitVec.toNat_inj, toNat_succ_of_lt (n := n) (by omega)]
  rw [phaseBefore, ← decide_last count]
  simp only [last, decide_eq_true_eq]

theorem phaseBefore_of_pos {ps : List Pixel} (h : 0 < ps.length) : phaseBefore ps = .pixels :=
  if_neg (by rw [List.isEmpty_iff_length_eq_zero]; omega)

/-- ENC stands before the pixels `ps` of its image, whose bytes are `img`, and moves next, once for each of them. -/
structure EncStands (s : State) (img : List Byte) (ps : List Pixel) (rest : List Agent) : Prop where
  sound : Sound s
  phase : s.enc.phase = phaseBefore ps
  schedule : s.schedule = List.replicate ps.length .enc ++ rest
  count : s.enc.k.toNat + ps.length = s.enc.lat.n.toNat
  image : Image s.enc.lat.ch img ps
  input : inBytes s.enc s.mem (s.enc.inBase + s.enc.k.toNat * s.enc.lat.ch.toNat) img.length = img

/-- The offset of the pixel after the next. -/
theorem offset_succ {k n : Word64} (ch : Byte) (h : k.toNat < n.toNat) :
    (k + 1).toNat * ch.toNat = k.toNat * ch.toNat + ch.toNat := by
  rw [toNat_succ_of_lt h, Nat.succ_mul]

/-- PIXELS of ENC codes the pixel whose bytes stand at `k * ch` in IN (R211, R213). -/
theorem encPixel_codes {s : State} {px : List Byte} {p : Pixel} {ps : List Pixel} (hs : Sound s)
    (phase : s.enc.phase = .pixels) (count : s.enc.k.toNat + (ps.length + 1) = s.enc.lat.n.toNat)
    (pixel : pixelOfBytes px = some p)
    (input : inBytes s.enc s.mem (s.enc.inBase + s.enc.k.toNat * s.enc.lat.ch.toNat) s.enc.lat.ch.toNat = px) :
    ∃ t, encPixel s = .next t ∧ t.enc = encNext ps.isEmpty p s.enc ∧ t.schedule = s.schedule ∧
      Emitted s t (encPixelEffect ps.isEmpty p s.enc).1 := by
  obtain ⟨t, made⟩ := encPixel_answers hs.enc phase
  obtain ⟨_, p', effect, -, rfl, pixel', rfl, fits, ht⟩ := encPixel_next made
  obtain rfl : p' = p := by
    rw [input, pixel] at pixel'
    exact (Option.some.inj pixel').symm
  rw [decide_last count] at fits ht
  exact ⟨t, made, by rw [ht]; rfl, by rw [ht], .of_writeBytes fits (by rw [ht]) (by rw [ht]) (by rw [ht]) (by rw [ht])
    (by rw [ht]) (by rw [ht])⟩

/-- One pixel is coded, and the bytes of the others stay as they are. -/
theorem EncStands.step {s : State} {img : List Byte} {p : Pixel} {ps : List Pixel} {rest : List Agent}
    (h : EncStands s img (p :: ps) rest) : ∃ t img', Machine.step s = .next t ∧
      t.enc = encNext ps.isEmpty p s.enc ∧ Emitted s t (encPixelEffect ps.isEmpty p s.enc).1 ∧
      EncStands t img' ps rest := by
  obtain ⟨hs, phase, schedule, count, image, input⟩ := h
  replace phase : s.enc.phase = .pixels := phase
  have run : running s.enc.phase = true := by rw [phase]; rfl
  obtain ⟨⟨hch, -⟩, inLen, -⟩ := hs.enc.latches run
  obtain ⟨hk, -⟩ := hs.enc.pixel phase
  have hs' := hs.scheduled (List.replicate ps.length .enc ++ rest)
  cases image with
  | @cons px img _ _ pixel bytes image =>
    obtain ⟨input_px, input_img⟩ := inBytes_eq_append input
    rw [length_of_bytesOfPixel hch bytes] at input_px input_img
    obtain ⟨t, made, enc, turns, emitted⟩ := encPixel_codes hs' phase count pixel input_px
    have next : Machine.step s = .next t := by
      rw [step_scheduled schedule, agentStep, encStep, phase]
      exact made
    have k : t.enc.k = s.enc.k + 1 := by rw [enc]; rfl
    have lat : t.enc.lat = s.enc.lat := emitted.lat
    refine ⟨t, img, next, enc, emitted.unscheduled, step_sound hs next, ?_, turns, ?_, lat ▸ image, ?_⟩
    · have after : t.enc.phase = if s.enc.k + 1 = s.enc.lat.n then .footer else s.enc.phase := by rw [enc]; rfl
      rw [after, phase]
      exact phaseBefore_next count
    · rw [k, lat, toNat_succ_of_lt hk, ← count, List.length_cons]
      omega
    · have inBase : t.enc.inBase = s.enc.inBase := by rw [enc]; rfl
      have total : s.enc.lat.inLen.toNat = s.enc.k.toNat * s.enc.lat.ch.toNat + s.enc.lat.ch.toNat + img.length := by
        rw [inLen, ← count, image.length hch, List.length_cons]
        ring
      rw [k, lat, inBase, offset_succ _ hk, ← Nat.add_assoc]
      have kept := encPixel_unitStep hs' phase made
      refine (kept.inBytes_kept hs' (busy_of_running run) (by rw [State.unit_enc, enc]; rfl)
        (by rw [State.unit_enc, enc]; rfl) ?_ ?_).trans input_img
      · exact (Nat.le_add_right _ _).trans (Nat.le_add_right _ _)
      · show _ ≤ s.enc.inBase + passInLen s.enc
        rw [passInLen_of_running run, total]
        omega

/-- All pixels are coded. -/
theorem EncStands.run {s : State} {img : List Byte} {ps : List Pixel} {rest : List Agent}
    (h : EncStands s img ps rest) : ∃ t img', (∀ c, core.run (ps.length + c) s = core.run c t) ∧
      Emitted s t (streamFrom s.enc ps) ∧ EncStands t img' [] rest := by
  induction ps generalizing s img with
  | nil =>
    have room : s.enc.opos.toNat ≤ s.enc.lat.outCap.toNat := by
      have run : running s.enc.phase = true := by rw [h.phase]; rfl
      obtain ⟨k, -, budget⟩ := h.sound.enc.last h.phase
      rw [streamBudget_iff, k] at budget
      exact h.sound.enc.room run le_rfl (by omega)
    exact ⟨s, img, fun c => by rw [List.length_nil, Nat.zero_add], .refl room, h⟩
  | cons p ps ih =>
    obtain ⟨m, img', next, enc, emitted, stands⟩ := h.step
    obtain ⟨t, img'', runs, emitted', ends⟩ := ih stands
    rw [enc] at emitted'
    refine ⟨t, img'', fun c => ?_, emitted.trans emitted', ends⟩
    rw [List.length_cons, Nat.add_right_comm, core_run_next next, runs]

/-! ### The whole pass -/

/-- HEADER writes the 14 header bytes and ENC stands before its first pixel (R210). -/
theorem encHeader_stands {s : State} {img : List Byte} {ps : List Pixel} {rest : List Agent} (hs : Sound s)
    (phase : s.enc.phase = .header) (schedule : s.schedule = .enc :: (List.replicate ps.length .enc ++ rest))
    (count : ps.length = s.enc.lat.n.toNat) (image : Image s.enc.lat.ch img ps)
    (input : inBytes s.enc s.mem s.enc.inBase img.length = img) : ∃ t, Machine.step s = .next t ∧
      (t.enc.prev = s.params.prevInit ∧ t.enc.idx = cacheCleared ∧ t.enc.run = 0) ∧
      Emitted s t (headerBytes s.params.magic s.enc.lat.w s.enc.lat.hgt s.enc.lat.ch s.enc.lat.cs) ∧
      EncStands t img ps rest := by
  have run : running s.enc.phase = true := by rw [phase]; rfl
  obtain ⟨valid, inLen, -⟩ := hs.enc.latches run
  obtain ⟨k, owed, -, prev, idx⟩ := hs.enc.start phase
  have hs' := hs.scheduled (List.replicate ps.length .enc ++ rest)
  obtain ⟨t, made⟩ := encHeader_answers hs'.enc phase
  have next : Machine.step s = .next t := by
    rw [step_scheduled schedule, agentStep, encStep, phase]
    exact made
  have kept := encHeader_unitStep hs' phase made
  obtain ⟨bs, rfl, fits, ht⟩ := encHeader_next made
  refine ⟨t, next, by rw [ht]; exact ⟨prev, idx, owed⟩, .of_writeBytes fits (by rw [ht]) (by rw [ht]) (by rw [ht])
    (by rw [ht]) (by rw [ht]) (by rw [ht]), step_sound hs next, ?_, by rw [ht], ?_, by rw [ht]; exact image, ?_⟩
  · rw [ht, phaseBefore_of_pos (count ▸ valid.count_pos)]
  · rw [ht]
    simp [k, count]
  · have start : t.enc.inBase + t.enc.k.toNat * t.enc.lat.ch.toNat = s.enc.inBase := by
      rw [ht]
      simp [k]
    rw [start]
    refine (kept.inBytes_kept hs' (busy_of_running run) (by rw [ht]; rfl) (by rw [ht]; rfl) le_rfl ?_).trans input
    rw [State.unit_enc, passInLen_of_running run, inLen, image.length valid.1, count]

/-- FOOTER appends the end marker, and the stream is what ENC wrote (R221). -/
theorem encFooter_stands {s : State} {img : List Byte} {rest : List Agent}
    (h : EncStands s img [] (.enc :: rest)) : ∃ t m count, Machine.step s = .next t ∧ t = settleOutput .enc count m ∧
      t.enc.regs.outLen = m.enc.opos ∧ Emitted s m endMarker := by
  have phase : s.enc.phase = .footer := h.phase
  have hs' := h.sound.scheduled rest
  obtain ⟨t, made⟩ := encFooter_answers hs'.enc phase
  have next : Machine.step s = .next t := by
    rw [step_scheduled h.schedule, agentStep, encStep, phase]
    exact made
  obtain ⟨fits, ht⟩ := encFooter_next made
  exact ⟨t, _, _, next, ht, by rw [ht]; rfl, .of_writeBytes fits rfl rfl rfl rfl rfl rfl⟩

/-- ENC, scheduled alone from HEADER on, leaves in OUT the header, the stream of its image from the state that VALIDATE
sets, and the end marker, and `OUT_LEN` is their length; no byte of OUT is in no order with the other unit's writes. -/
theorem enc_writes_stream {s : State} {img : List Byte} {ps : List Pixel} (hs : Sound s) (phase : s.enc.phase = .header)
    (schedule : s.schedule = List.replicate (ps.length + 2) .enc) (count : ps.length = s.enc.lat.n.toNat)
    (image : Image s.enc.lat.ch img ps) (input : inBytes s.enc s.mem s.enc.inBase img.length = img)
    (order : ∀ a, inOutput s.enc a = true → covered s.enc.unorderedOut a = false) :
    ∃ t x stream, core.run (ps.length + 2) s = .next t ∧
      (x.prev = s.params.prevInit ∧ x.idx = cacheCleared ∧ x.run = 0) ∧
      stream = headerBytes s.params.magic s.enc.lat.w s.enc.lat.hgt s.enc.lat.ch s.enc.lat.cs ++
        (streamFrom x ps ++ endMarker) ∧
      t.mem.readBytes t.enc.outBase stream.length = stream ∧ t.enc.regs.outLen.toNat = stream.length ∧
      t.params = s.params := by
  have run : running s.enc.phase = true := by rw [phase]; rfl
  obtain ⟨-, -, opos, -, -⟩ := hs.enc.start phase
  have turns : s.schedule = .enc :: (List.replicate ps.length .enc ++ [.enc]) := by
    rw [schedule, List.replicate_succ, List.replicate_succ']
  obtain ⟨m1, next1, start, header, stands⟩ := encHeader_stands hs phase turns count image input
  obtain ⟨m2, _, pixels, stream, ends⟩ := stands.run
  obtain ⟨t, m3, _, next3, ht, outLen, marker⟩ := encFooter_stands ends
  obtain ⟨stored, -, pos, room, -, outBase, unordered, params⟩ := header.trans (stream.trans marker)
  rw [opos] at stored pos
  have base : t.enc.outBase = s.enc.outBase := by rw [ht]; exact outBase
  refine ⟨t, m1.enc, _, ?_, start, rfl, ?_, ?_, by rw [ht]; exact params⟩
  · rw [core_run_next next1, pixels, core_run_next next3]
    rfl
  · rw [base]
    refine (Memory.readBytes_congr _ _ _ _ fun a low high => ?_).trans stored
    rw [ht, settleOutput_mem]
    refine Memory.read_drawCovered_outside _ _ _ _ _ _ (.inr (.inr ?_))
    rw [State.unit_enc, unordered]
    refine order a (decide_eq_true ?_)
    rw [passOutCap_of_running run]
    omega
  · rw [outLen, pos]
    simp

end Sys2Proof.Safety
end

section
/-! PROOF. DEC scheduled alone follows ENC through the stream of an image (spec/43_decoder.md R244 to R262), and with it
the round trip of R167 and R222. -/

namespace Sys2Proof.Safety

open Sys2Proof.Machine

/-! ### VALIDATE and FOOTER -/

/-- `BE32` inverts `bytesBE32` (R13). -/
theorem be32_extractBytes (v : Word32) :
    be32 (v.extractLsb' 24 8) (v.extractLsb' 16 8) (v.extractLsb' 8 8) (v.extractLsb' 0 8) = v := by
  apply BitVec.eq_of_toNat_eq
  rw [toNat_be32]
  simp only [BitVec.extractLsb'_toNat, Nat.shiftRight_eq_div_pow]
  have := v.isLt
  omega

/-- DEC after a VALIDATE step that has read a header and passed its checks (R244, R322). -/
def decStarted (params : Params) (x : UnitState) (w hgt : Word32) (ch cs : Byte) : UnitState :=
  { x with
    lat := { w := w, hgt := hgt, ch := ch, cs := cs, n := BitVec.ofNat 64 (w.toNat * hgt.toNat)
             inLen := x.regs.inLen, outCap := x.regs.outCap }
    regs := { x.regs with width := w, height := hgt, channels := ch, colorspace := cs }
    prev := params.prevInit, run := 0, k := 0, ipos := 14, opos := 0, idx := cacheCleared, phase := .pixels }

/-- VALIDATE of DEC, where IN begins with a header that passes every check (R244, R247). -/
theorem decValidate_of_header {s : State} {w hgt : Word32} {ch cs : Byte} (long : 22 ≤ s.dec.regs.inLen.toNat)
    (read : inBytes s.dec s.mem s.dec.inBase 14 = headerBytes s.params.magic w hgt ch cs)
    (hch : ch = 3 ∨ ch = 4) (hcs : cs = 0 ∨ cs = 1) (hw : w ≠ 0) (hhgt : hgt ≠ 0)
    (max : w.toNat * hgt.toNat ≤ s.params.maxPixels.toNat)
    (cap : w.toNat * hgt.toNat * ch.toNat ≤ s.dec.regs.outCap.toNat) :
    decValidate s = .next { s with dec := decStarted s.params s.dec w hgt ch cs } := by
  have header : memRead .dec { s with dec := { s.dec with
      lat := { s.dec.lat with inLen := s.dec.regs.inLen, outCap := s.dec.regs.outCap } } } 0 14 =
        some (headerBytes s.params.magic w hgt ch cs) :=
    memRead_eq_some.2 ⟨(by decide : 14 ≤ 22).trans long,
      read.symm.trans (inBytes_congr rfl rfl fun _ _ _ _ => rfl)⟩
  unfold decValidate
  simp only [if_neg (Nat.not_lt.2 long), header, headerBytes, bytesBE32, List.cons_append, List.nil_append,
    be32_extractBytes]
  rw [if_neg (not_not.2 rfl), if_neg (by tauto), if_neg (by tauto), if_neg (by tauto), if_neg (Nat.not_lt.2 max),
    if_neg (Nat.not_lt.2 cap)]
  rfl

/-- FOOTER of DEC at the end marker (R262). -/
theorem decFooter_of_marker {s : State} (fits : s.dec.ipos.toNat + 8 ≤ s.dec.lat.inLen.toNat)
    (marker : inBytes s.dec s.mem (s.dec.inBase + s.dec.ipos.toNat) 8 = endMarker) :
    decFooter s = .next (settleOutput .dec (BitVec.ofNat 64 (s.dec.lat.n.toNat * s.dec.lat.ch.toNat)).toNat { s with
      dec := completePass (BitVec.ofNat 64 (s.dec.lat.n.toNat * s.dec.lat.ch.toNat)) (s.dec.ipos + 8) s.dec }) := by
  have read : memRead .dec s s.dec.ipos.toNat 8 = some endMarker := memRead_eq_some.2 ⟨fits, marker.symm⟩
  simp only [decFooter, if_neg (Nat.not_lt.2 fits), read]
  rw [if_neg (not_not.2 rfl)]

/-! ### A PIXELS step of DEC -/

/-- A chunk has at most 5 bytes (R110). -/
theorem length_encode_le (i : Instr) : (encode i).length ≤ 5 := by
  cases i <;> simp [encode]

/-- With no run active DEC executes the chunk whose bytes are ahead (R250, R254). -/
theorem decPixel_of_chunk {s : State} {i : Instr} (idle : s.dec.run = 0) (wf : i.wellFormed = true)
    (fits : s.dec.ipos.toNat + (encode i).length ≤ s.dec.lat.inLen.toNat)
    (bytes : inBytes s.dec s.mem (s.dec.inBase + s.dec.ipos.toNat) (encode i).length = encode i) :
    decPixel s = exec i s := by
  have len := length_encode_le i
  obtain ⟨more, window⟩ : ∃ more, min 5 (s.dec.lat.inLen.toNat - s.dec.ipos.toNat) = (encode i).length + more :=
    Nat.exists_eq_add_of_le (by omega)
  have inactive : ¬runActive s.dec = true := by simp [runActive, idle]
  rw [decPixel, if_neg inactive, chunkWindow, window, inBytes_append, bytes, decodeOfEncode i _ wf]

/-- In an active run DEC repeats the pixel and owes one less (R251). -/
theorem decPixel_repeats {s : State} (active : s.dec.run ≠ 0) (room : PixelRoom s) :
    ∃ t, decPixel s = .next t ∧ PixelStep s t 0 s.dec.prev ∧ t.dec.prev = s.dec.prev ∧ t.dec.idx = s.dec.idx ∧
      t.dec.run.toNat + 1 = s.dec.run.toNat := by
  obtain ⟨t, next, made, prev, idx, run⟩ := finishPixel_step (px := s.dec.prev)
    (u := { s with dec := { s.dec with run := s.dec.run - 1 } }) (len := 0) room (by rw [BitVec.add_zero])
  have isActive : runActive s.dec = true := bne_iff_ne.2 active
  exact ⟨t, by rw [decPixel, if_pos isActive, next], made, prev, idx, by bv_omega⟩

/-- The bytes that are left of DEC's IN are `bs`. -/
structure StreamAhead (s : State) (bs : List Byte) : Prop where
  bytes : inBytes s.dec s.mem (s.dec.inBase + s.dec.ipos.toNat) bs.length = bs
  all : s.dec.ipos.toNat + bs.length = s.dec.lat.inLen.toNat

/-- The chunk at the head of the bytes ahead is executed. -/
theorem StreamAhead.decPixel_eq {s : State} {i : Instr} {bs : List Byte} (h : StreamAhead s (encode i ++ bs))
    (idle : s.dec.run = 0) (wf : i.wellFormed = true) :
    decPixel s = exec i s ∧ s.dec.ipos.toNat + (encode i).length ≤ s.dec.lat.inLen.toNat := by
  have all := h.all
  rw [List.length_append] at all
  exact ⟨decPixel_of_chunk idle wf (by omega) (inBytes_eq_append h.bytes).1, by omega⟩

/-- A sound pixel step consumes the bytes that it takes, and leaves the others as they are. -/
theorem StreamAhead.advance {s t : State} {used bs : List Byte} {px : Pixel} (h : StreamAhead s (used ++ bs))
    (hs : Sound s) (run : running s.dec.phase = true) (kept : UnitStep .dec s t)
    (made : PixelStep s t used.length px) : StreamAhead t bs := by
  obtain ⟨inBase, -, -⟩ := made.binding
  obtain ⟨-, -, order, draw, -⟩ := made.order
  have all := h.all
  rw [List.length_append] at all
  have lt := s.dec.lat.inLen.isLt
  have len : (BitVec.ofNat 64 used.length).toNat = used.length := Nat.mod_eq_of_lt (by omega)
  have ipos : t.dec.ipos.toNat = s.dec.ipos.toNat + used.length := by
    rw [made.ipos, BitVec.toNat_add_of_lt (by omega), len]
  refine ⟨?_, by rw [ipos, made.lat]; omega⟩
  rw [inBase, ipos, ← Nat.add_assoc]
  refine (kept.inBytes_kept hs (busy_of_running run) order draw ?_ ?_).trans (inBytes_eq_append h.bytes).2
  · exact (Nat.le_add_right _ _).trans (Nat.le_add_right _ _)
  · show _ ≤ s.dec.inBase + passInLen s.dec
    rw [passInLen_of_running run]
    omega

/-- DEC stands where ENC stood as `x` before the pixels `ps`, with the bytes `bs` of the stream ahead. -/
structure Follows (d x : UnitState) (ps : List Pixel) (bs : List Byte) : Prop where
  prev : d.prev = x.prev
  idx : d.idx = x.idx
  run : x.run.toNat ≤ 61
  owes : Owes x ps d.run.toNat bs

/-- Whether it repeats `prev`, begins a run or executes the chunk that ENC chose, DEC writes ENC's pixel and follows
(R167, R250, R251). -/
theorem decPixel_follows {s : State} {x : UnitState} {p : Pixel} {ps : List Pixel} {bs tail : List Byte}
    (h : Follows s.dec x (p :: ps) bs) (ahead : StreamAhead s (bs ++ tail)) (room : PixelRoom s) :
    ∃ t used bs', decPixel s = .next t ∧ bs = used ++ bs' ∧ PixelStep s t used.length p ∧
      Follows t.dec (encNext ps.isEmpty p x) ps bs' := by
  obtain ⟨prev, idx, run, owes⟩ := h
  have run' := encNext_run_le ps.isEmpty p run
  by_cases repeated : p = x.prev
  · subst repeated
    obtain ⟨same, cache⟩ := encNext_repeated ps.isEmpty x
    obtain ⟨d, count, owes'⟩ | ⟨none, d, rest, le, rfl, owes'⟩ := owes.repeated run
    · obtain ⟨t, next, made, prev', idx', fewer⟩ := decPixel_repeats (by bv_omega) room
      exact ⟨t, [], bs, next, rfl, prev ▸ made, prev'.trans (prev.trans same.symm), idx'.trans (idx.trans cache.symm),
        run', (by omega : t.dec.run.toNat = d) ▸ owes'⟩
    · rw [List.append_assoc] at ahead
      obtain ⟨answer, -⟩ := ahead.decPixel_eq (BitVec.eq_of_toNat_eq none) (wellFormed_run (by omega) le)
      obtain ⟨t, next, made, owed, prev', idx'⟩ := exec_run_next room le
      exact ⟨t, _, rest, answer.trans next, rfl, prev ▸ made, prev'.trans (prev.trans same.symm),
        idx'.trans (idx.trans cache.symm), run', (by omega : t.dec.run.toNat = d) ▸ owes'⟩
  · obtain ⟨none, rest, rfl, owes'⟩ := owes.broken run repeated
    rw [List.append_assoc] at ahead
    obtain ⟨answer, fits⟩ := ahead.decPixel_eq (BitVec.eq_of_toNat_eq none) (wellFormed_chunkFor ..)
    obtain ⟨t, next, made, prev', idx', owed⟩ :=
      decodedChunkRestoresPixelAndState x p ps.isEmpty s repeated prev idx room fits
    exact ⟨t, _, rest, answer.trans next, rfl, made, prev', idx', run', by rwa [owed, none]⟩

/-! ### PIXELS -/

/-- From `s` to `t` DEC has written the pixel bytes `img` to OUT and nothing before them, in the same pass. -/
structure Restored (s t : State) (img : List Byte) : Prop where
  stored : t.mem.readBytes (pixelAddress s) img.length = img
  below : ∀ a, a < pixelAddress s → t.mem.read a = s.mem.read a
  address : pixelAddress t = pixelAddress s + img.length
  regs : t.dec.regs = s.dec.regs
  lat : t.dec.lat = s.dec.lat
  outBase : t.dec.outBase = s.dec.outBase
  order : t.dec.unorderedOut = s.dec.unorderedOut

theorem Restored.refl (s : State) : Restored s s [] := ⟨rfl, fun _ _ => rfl, rfl, rfl, rfl, rfl, rfl⟩

theorem Restored.trans {s m t : State} {bs cs : List Byte} (h : Restored s m bs) (h' : Restored m t cs) :
    Restored s t (bs ++ cs) := by
  obtain ⟨stored, below, address, regs, lat, outBase, order⟩ := h
  obtain ⟨stored', below', address', regs', lat', outBase', order'⟩ := h'
  rw [address] at stored' below'
  refine ⟨readBytes_eq_append stored below' stored', fun a lt => ?_, ?_, regs'.trans regs, lat'.trans lat,
    outBase'.trans outBase, order'.trans order⟩
  · rw [below' a (by omega), below a lt]
  · rw [address', address, List.length_append, Nat.add_assoc]

/-- The agents that move next play no part. -/
theorem Restored.unscheduled {s t : State} {img : List Byte} {rest : List Agent}
    (h : Restored { s with schedule := rest } t img) : Restored s t img :=
  ⟨h.stored, h.below, h.address, h.regs, h.lat, h.outBase, h.order⟩

/-- A pixel step writes the byte form of its pixel (R134, R250). -/
theorem Restored.of_pixelStep {s t : State} {len : Nat} {p : Pixel} {px : List Byte} (made : PixelStep s t len p)
    (hk : s.dec.k.toNat < s.dec.lat.n.toNat) (hch : s.dec.lat.ch = 3 ∨ s.dec.lat.ch = 4)
    (bytes : bytesOfPixel s.dec.lat.ch p = some px) : Restored s t px := by
  obtain ⟨px', bytes', count, channel⟩ := bytesOfPixel_eq p hch
  obtain rfl : px' = px := Option.some.inj (bytes'.symm.trans bytes)
  obtain ⟨-, outBase, -⟩ := made.binding
  obtain ⟨-, order, -⟩ := made.order
  refine ⟨?_, fun a below => made.unstored a (.inl below), ?_, made.regs, made.lat, outBase, order⟩
  · refine List.ext_getElem (Memory.length_readBytes ..) fun c _ hc => ?_
    have four : c < 4 := by rcases hch with e | e <;> rw [e] at count <;> simp at count <;> omega
    rw [Memory.getElem_readBytes]
    exact (made.stored ⟨c, four⟩ (count ▸ hc)).trans (channel ⟨c, four⟩ hc).symm
  · rw [pixelAddress, outBase, made.k, made.lat, offset_succ _ hk, count, pixelAddress, Nat.add_assoc]

/-- DEC stands before the pixels `ps`, whose bytes are `img`, where ENC stood as `x`, with the bytes `bs` of the stream
and then `tail` ahead; and it moves next, once for each pixel. -/
structure DecStands (s : State) (x : UnitState) (bs tail img : List Byte) (ps : List Pixel) (rest : List Agent) :
    Prop where
  sound : Sound s
  phase : s.dec.phase = phaseBefore ps
  schedule : s.schedule = List.replicate ps.length .dec ++ rest
  count : s.dec.k.toNat + ps.length = s.dec.lat.n.toNat
  image : Image s.dec.lat.ch img ps
  ahead : StreamAhead s (bs ++ tail)
  follows : Follows s.dec x ps bs

/-- One pixel is decoded (R250). -/
theorem DecStands.step {s : State} {x : UnitState} {bs tail img : List Byte} {p : Pixel} {ps : List Pixel}
    {rest : List Agent} (h : DecStands s x bs tail img (p :: ps) rest) : ∃ t x' bs' px img',
      Machine.step s = .next t ∧ img = px ++ img' ∧ Restored s t px ∧ DecStands t x' bs' tail img' ps rest := by
  obtain ⟨hs, phase, schedule, count, image, ahead, follows⟩ := h
  replace phase : s.dec.phase = .pixels := phase
  have run : running s.dec.phase = true := by rw [phase]; rfl
  obtain ⟨⟨hch, -⟩, -⟩ := hs.dec.latches run
  have hk := hs.dec.pixel phase
  have hs' := hs.scheduled (List.replicate ps.length .dec ++ rest)
  replace ahead : StreamAhead { s with schedule := List.replicate ps.length .dec ++ rest } (bs ++ tail) :=
    ⟨ahead.bytes, ahead.all⟩
  obtain ⟨t, used, bs', next, rfl, made, follows'⟩ :=
    decPixel_follows (s := { s with schedule := List.replicate ps.length .dec ++ rest }) follows ahead
      (hs'.dec.pixelRoom phase)
  have stepped : Machine.step s = .next t := by
    rw [step_scheduled schedule, agentStep, decStep, phase]
    exact next
  rw [List.append_assoc] at ahead
  cases image with
  | @cons px img _ _ _ bytes image =>
    refine ⟨t, _, bs', px, img, stepped, rfl, (Restored.of_pixelStep made hk hch bytes).unscheduled,
      step_sound hs stepped, ?_, made.outside.2.2.1, ?_, made.lat ▸ image,
      ahead.advance hs' run (decPixel_unitStep hs' phase next) made, follows'⟩
    · rw [made.phase, phase]
      exact phaseBefore_next count
    · rw [made.k, made.lat, toNat_succ_of_lt hk, ← count, List.length_cons]
      omega

/-- All pixels are decoded. -/
theorem DecStands.run {s : State} {x : UnitState} {bs tail img : List Byte} {ps : List Pixel} {rest : List Agent}
    (h : DecStands s x bs tail img ps rest) : ∃ t x', (∀ c, core.run (ps.length + c) s = core.run c t) ∧
      Restored s t img ∧ DecStands t x' [] tail [] [] rest := by
  induction ps generalizing s x bs img with
  | nil =>
    obtain rfl := h.follows.owes.nil
    obtain rfl : img = [] := by cases h.image; rfl
    exact ⟨s, x, fun c => by rw [List.length_nil, Nat.zero_add], .refl s, h⟩
  | cons p ps ih =>
    obtain ⟨m, x', bs', px, img', next, rfl, restored, stands⟩ := h.step
    obtain ⟨t, x'', runs, restored', ends⟩ := ih stands
    refine ⟨t, x'', fun c => ?_, restored.trans restored', ends⟩
    rw [List.length_cons, Nat.add_right_comm, core_run_next next, runs]

/-! ### The whole pass -/

/-- VALIDATE reads ENC's header, and DEC stands before the first pixel where ENC stood (R244). -/
theorem decValidate_stands {s : State} {l : Latches} {x : UnitState} {tail img : List Byte} {ps : List Pixel}
    {rest : List Agent} (hs : Sound s) (phase : s.dec.phase = .validate)
    (schedule : s.schedule = .dec :: (List.replicate ps.length .dec ++ rest)) (valid : ValidHeader s.params l)
    (cap : l.n.toNat * l.ch.toNat ≤ s.dec.regs.outCap.toNat) (count : ps.length = l.n.toNat)
    (image : Image l.ch img ps) (start : x.prev = s.params.prevInit ∧ x.idx = cacheCleared ∧ x.run = 0)
    (input : inBytes s.dec s.mem s.dec.inBase s.dec.regs.inLen.toNat =
      headerBytes s.params.magic l.w l.hgt l.ch l.cs ++ (streamFrom x ps ++ tail)) (long : 8 ≤ tail.length) :
    Machine.step s = .next { s with
      schedule := List.replicate ps.length .dec ++ rest, dec := decStarted s.params s.dec l.w l.hgt l.ch l.cs } ∧
    DecStands { s with
      schedule := List.replicate ps.length .dec ++ rest, dec := decStarted s.params s.dec l.w l.hgt l.ch l.cs }
      x (streamFrom x ps) tail img ps rest := by
  have pos : 0 < ps.length := count ▸ valid.count_pos
  obtain ⟨hch, hcs, hw, hhgt, pixels, max⟩ := valid
  obtain ⟨prev, idx, owed⟩ := start
  have inLen := congrArg List.length input
  rw [length_inBytes] at inLen
  rw [inLen] at input
  obtain ⟨header, stream⟩ := inBytes_eq_append input
  have fourteen : (headerBytes s.params.magic l.w l.hgt l.ch l.cs).length = 14 := rfl
  rw [List.length_append, List.length_append, fourteen] at inLen
  rw [fourteen] at header stream
  have long' : 22 ≤ s.dec.regs.inLen.toNat := by omega
  have next : Machine.step s = .next _ := (step_scheduled schedule).trans (by
    rw [agentStep, decStep, phase]
    exact decValidate_of_header (s := { s with schedule := _ }) long' header hch hcs hw hhgt (pixels ▸ max)
      (pixels ▸ cap))
  refine ⟨next, step_sound hs next, ?_, rfl, ?_, image, ⟨?_, ?_⟩, prev.symm, idx.symm, ?_, ?_⟩
  · exact (phaseBefore_of_pos pos).symm
  · show 0 + ps.length = (BitVec.ofNat 64 _).toNat
    rw [toNat_pixelCount, ← pixels, count, Nat.zero_add]
  · have notes : inBytes (decStarted s.params s.dec l.w l.hgt l.ch l.cs) s.mem (s.dec.inBase + 14) =
        inBytes s.dec s.mem (s.dec.inBase + 14) := funext fun _ => inBytes_congr rfl rfl fun _ _ _ _ => rfl
    exact (congrFun notes _).trans stream
  · show 14 + _ = s.dec.regs.inLen.toNat
    rw [inLen, List.length_append]
  · rw [owed]
    exact Nat.zero_le _
  · exact .none owed

/-- FOOTER finds the end marker, and the pass is DONE (R262). -/
theorem decFooter_stands {s : State} {x : UnitState} {rest : List Agent}
    (h : DecStands s x [] endMarker [] [] (.dec :: rest)) : ∃ t count, Machine.step s = .next t ∧
      t.dec = completePass (BitVec.ofNat 64 (s.dec.lat.n.toNat * s.dec.lat.ch.toNat)) s.dec.lat.inLen s.dec ∧
      t.mem = s.mem.drawCovered s.dec.unorderedOut s.dec.outBase s.draws count := by
  have phase : s.dec.phase = .footer := h.phase
  have all : s.dec.ipos.toNat + 8 = s.dec.lat.inLen.toNat := h.ahead.all
  have used : s.dec.ipos + 8 = s.dec.lat.inLen := by bv_omega
  have made := decFooter_of_marker (s := { s with schedule := rest }) all.le h.ahead.bytes
  have next := step_scheduled h.schedule
  rw [agentStep, decStep, phase] at next
  exact ⟨_, _, next.trans made, by rw [← used]; rfl, rfl⟩

/-- DEC, scheduled alone from VALIDATE on, with IN holding what ENC wrote for an image, is DONE with all of IN used, the
header in its registers and the image in OUT; no byte of OUT is in no order with the other unit's writes. -/
theorem dec_restores_image {s : State} {l : Latches} {x : UnitState} {img : List Byte} {ps : List Pixel} (hs : Sound s)
    (phase : s.dec.phase = .validate) (schedule : s.schedule = List.replicate (ps.length + 2) .dec)
    (valid : ValidHeader s.params l) (cap : l.n.toNat * l.ch.toNat ≤ s.dec.regs.outCap.toNat)
    (count : ps.length = l.n.toNat) (image : Image l.ch img ps)
    (start : x.prev = s.params.prevInit ∧ x.idx = cacheCleared ∧ x.run = 0)
    (input : inBytes s.dec s.mem s.dec.inBase s.dec.regs.inLen.toNat =
      headerBytes s.params.magic l.w l.hgt l.ch l.cs ++ (streamFrom x ps ++ endMarker))
    (order : ∀ a, inOutput s.dec a = true → covered s.dec.unorderedOut a = false) :
    ∃ t, core.run (ps.length + 2) s = .next t ∧ t.dec.phase = .done ∧
      t.dec.regs = { s.dec.regs with
        width := l.w, height := l.hgt, channels := l.ch, colorspace := l.cs
        outLen := BitVec.ofNat 64 (l.n.toNat * l.ch.toNat), inUsed := s.dec.regs.inLen } ∧
      t.mem.readBytes s.dec.outBase img.length = img := by
  have turns : s.schedule = .dec :: (List.replicate ps.length .dec ++ [.dec]) := by
    rw [schedule, List.replicate_succ, List.replicate_succ']
  obtain ⟨next, stands⟩ := decValidate_stands hs phase turns valid cap count image start input (by decide)
  obtain ⟨m, _, pixels, ⟨stored, -, -, regs, lat, outBase, unordered⟩, ends⟩ := stands.run
  obtain ⟨t, _, next', dec, mem⟩ := decFooter_stands ends
  obtain ⟨hch, -, -, -, area, -⟩ := valid
  refine ⟨t, ?_, by rw [dec]; rfl, ?_, ?_⟩
  · rw [core_run_next next, pixels, core_run_next next']
    rfl
  · rw [dec, completePass_regs, regs, lat]
    simp only [decStarted, ← area, BitVec.ofNat_toNat, BitVec.setWidth_eq]
  · have first : pixelAddress { s with
        schedule := List.replicate ps.length .dec ++ [.dec]
        dec := decStarted s.params s.dec l.w l.hgt l.ch l.cs } = s.dec.outBase := by
      simp [pixelAddress, decStarted]
    rw [first] at stored
    refine (Memory.readBytes_congr _ _ _ _ fun a low high => ?_).trans stored
    rw [mem]
    refine Memory.read_drawCovered_outside _ _ _ _ _ _ (.inr (.inr ?_))
    rw [unordered]
    refine order a (decide_eq_true ⟨low, ?_⟩)
    rw [image.length hch, count] at high
    rw [passOutCap, if_pos phase]
    omega

/-! ### The round trip -/

/-- Settles O60: the bytes that ENC reads are an image, ENC writes its stream, DEC finds the stream in its IN, and
restores the image from it. -/
theorem decodingAnEncodedImageGivesItBack : Obligations.DecodingAnEncodedImageGivesItBack := by
  intro s t u n hs phase count schedule encoded hu phase' params mem inBase inLen cap ordered orderedIn orderedOut
    schedule'
  have run : running s.enc.phase = true := by rw [phase]; rfl
  obtain ⟨valid, -, -⟩ := hs.enc.latches run
  obtain ⟨ps, pixels, image⟩ := exists_image valid.1 n
    (length_inBytes s.enc s.mem s.enc.inBase (n * s.enc.lat.ch.toNat))
  subst pixels
  have whole := length_inBytes s.enc s.mem s.enc.inBase (ps.length * s.enc.lat.ch.toNat)
  obtain ⟨t', x, stream, runs, start, stream_eq, stored, outLen, params'⟩ :=
    enc_writes_stream hs phase schedule count image (by rw [whole]) ordered
  obtain rfl : t' = t := Host.Outcome.next.inj (runs.symm.trans encoded)
  have same := params.trans params'
  rw [← same] at valid start stream_eq
  have input : inBytes u.dec u.mem u.dec.inBase u.dec.regs.inLen.toNat = stream := by
    rw [inLen, outLen, mem, inBase, inBytes_ordered _ fun a low high => ?_, stored]
    refine orderedIn a (decide_eq_true ?_)
    rw [passInLen, if_pos phase', inLen, outLen, inBase]
    exact ⟨low, high⟩
  obtain ⟨v, runs', done, regs, restored⟩ := dec_restores_image hu phase' schedule' valid (count ▸ cap) count image
    start (input.trans stream_eq) orderedOut
  have small : ps.length * s.enc.lat.ch.toNat < 2 ^ 64 := cap.trans_lt u.dec.regs.outCap.isLt
  rw [whole] at restored
  refine ⟨v, runs', done, by rw [regs], by rw [regs], by rw [regs], by rw [regs], by rw [regs]; exact inLen, ?_,
    restored⟩
  rw [regs, ← count]
  exact Nat.mod_eq_of_lt small

end Sys2Proof.Safety
end

section
/-! PROOF. ENC's VALIDATE and its choice of a chunk (spec/42_encoder.md R205, R216 to R222): the checks of R286 as one
function of the registers, which VALIDATE reports, and the cases of the selection order. -/

namespace Sys2Proof.Safety

open Sys2Proof.Machine

/-! ### The choice of a chunk -/

theorem chunkFor_of_hit {prev p : Pixel} {idx : Cache} (hit : cacheLookup idx (pixelHash p) = p) :
    chunkFor prev idx p = .index (pixelHash p) := if_pos hit

theorem chunkFor_of_miss {prev p : Pixel} {idx : Cache} (miss : cacheLookup idx (pixelHash p) ≠ p) :
    chunkFor prev idx p = codedChunk prev p := if_neg miss

theorem fitsDiff_iff {dr dg db : Int} : fitsDiff dr dg db = true ↔
    (-2 ≤ dr ∧ dr ≤ 1) ∧ (-2 ≤ dg ∧ dg ≤ 1) ∧ (-2 ≤ db ∧ db ≤ 1) := by
  simp only [fitsDiff, Bool.and_eq_true, decide_eq_true_eq, and_assoc]

theorem fitsLuma_iff {dr dg db : Int} : fitsLuma dr dg db = true ↔
    (-32 ≤ dg ∧ dg ≤ 31) ∧ (-8 ≤ dr - dg ∧ dr - dg ≤ 7) ∧ (-8 ≤ db - dg ∧ db - dg ≤ 7) := by
  simp only [fitsLuma, Bool.and_eq_true, decide_eq_true_eq, and_assoc]

/-- Settles O31: a hit is `chunkFor`'s first test, and the others are `codedChunk`'s, in their order. -/
theorem encSelectionOrder : Obligations.EncSelectionOrder := by
  rintro prev p idx dr dg db rfl rfl rfl
  simp only [← fitsDiff_iff, ← fitsLuma_iff]
  refine ⟨chunkFor_of_hit, fun miss => ?_⟩
  rw [chunkFor_of_miss miss]
  refine ⟨fun alpha => if_neg alpha, fun alpha diff => ?_, fun alpha diff luma => ?_, fun alpha diff luma => ?_⟩
  · exact (if_pos alpha).trans (if_pos diff)
  · exact (if_pos alpha).trans ((if_neg diff).trans (if_pos luma))
  · exact (if_pos alpha).trans ((if_neg diff).trans (if_neg luma))

@[simp] theorem channelAdd_zero (y : Byte) : channelAdd y 0 = y := by simp [channelAdd_eq]

/-- No delta, no change (R161). -/
@[simp] theorem diffPixel_zero (prev : Pixel) : diffPixel prev 0 0 0 = prev := by simp [diffPixel]

/-- A chunk of selections (c) to (e) is no RUN and no INDEX, and a DIFF of three zero deltas only for `prev` itself
(R222). -/
theorem Codes.changes {prev p : Pixel} {i : Instr} (h : Codes prev p i) (differs : p ≠ prev) :
    (∀ len, i ≠ .run len) ∧ i ≠ .diff 0 0 0 ∧ ∀ slot, i ≠ .index slot := by
  refine ⟨?_, ?_, ?_⟩
  · rintro len rfl
    cases h
  · rintro rfl
    cases h with
    | diff _ _ _ _ gives => exact differs (gives.symm.trans (diffPixel_zero prev))
  · rintro slot rfl
    cases h

/-- Settles O32: an index hit is INDEX of its own slot, and every other chunk is one of `Codes`. -/
theorem encChunkIsWellFormedAndNoIdleDiff : Obligations.EncChunkIsWellFormedAndNoIdleDiff := by
  intro prev p idx differs
  refine ⟨wellFormed_chunkFor prev p idx, ?_⟩
  by_cases hit : cacheLookup idx (pixelHash p) = p
  · rw [chunkFor_of_hit hit]
    refine ⟨nofun, nofun, fun slot e => ?_⟩
    cases e
    exact ⟨rfl, hit⟩
  · rw [chunkFor_of_miss hit]
    obtain ⟨noRun, noIdle, noIndex⟩ := (codes_codedChunk prev p).changes differs
    exact ⟨noRun, noIdle, fun slot e => absurd e (noIndex slot)⟩

/-! ### The checks of VALIDATE -/

/-- The latches that VALIDATE takes from the registers before its checks (R37). -/
def encLatched (x : UnitState) : Latches :=
  { x.lat with
    w := x.regs.width, hgt := x.regs.height, ch := x.regs.channels, cs := x.regs.colorspace
    inLen := x.regs.inLen, outCap := x.regs.outCap }

/-- The pixel count of the registers (R37). -/
def pixelCount (r : Regs) : Nat := r.width.toNat * r.height.toNat

/-- The latches once the image is known not to be empty. -/
def encCounted (x : UnitState) : Latches := { encLatched x with n := BitVec.ofNat 64 (pixelCount x.regs) }

/-- What a failing check of VALIDATE raises, and the latches at that check. -/
structure FailedCheck where
  error : PassError
  info0 : Nat
  info1 : Nat
  lat : Latches

/-- The first check of the sizes of R205 that fails, in the order of R286. -/
def encFailedSize (maxPixels : Word64) (prevInit : Pixel) (x : UnitState) : Option FailedCheck :=
  let r := x.regs
  let size := pixelCount r * r.channels.toNat
  let longest := maxLen prevInit (pixelCount r) r.channels.toNat
  if maxPixels.toNat < pixelCount r then some ⟨.imageTooLarge, r.width.toNat, r.height.toNat, encCounted x⟩
  else if r.inLen.toNat ≠ size then some ⟨.badEncodingDataSize, r.inLen.toNat, size, encCounted x⟩
  else if r.outCap.toNat < longest then some ⟨.outputBufferTooSmall, r.outCap.toNat, longest, encCounted x⟩
  else none

/-- The first check of R205 that fails, in the order of R286. -/
def encFailedCheck (maxPixels : Word64) (prevInit : Pixel) (x : UnitState) : Option FailedCheck :=
  let r := x.regs
  if r.channels ≠ 3 ∧ r.channels ≠ 4 then some ⟨.invalidChannels, r.channels.toNat, 0, encLatched x⟩
  else if r.colorspace ≠ 0 ∧ r.colorspace ≠ 1 then some ⟨.invalidColorSpace, r.colorspace.toNat, 0, encLatched x⟩
  else if r.width = 0 ∨ r.height = 0 then some ⟨.emptyImage, r.width.toNat, r.height.toNat, encLatched x⟩
  else encFailedSize maxPixels prevInit x

/-- ENC before its HEADER step (R322). -/
def encStarted (prevInit : Pixel) (x : UnitState) : UnitState :=
  { x with
    lat := encCounted x, prev := prevInit, run := 0, k := 0, ipos := 0, opos := 0, idx := cacheCleared
    phase := .header }

/-- VALIDATE's answer to its checks: the error of the failing one, or the start of the header phase (R205). -/
def encReport (s : State) : Option FailedCheck → Result
  | some c => .next (raise .enc c.error c.info0 c.info1 { s with enc := { s.enc with lat := c.lat } })
  | none => .next { s with enc := encStarted s.params.prevInit s.enc }

theorem encValidate_eq (s : State) :
    encValidate s = encReport s (encFailedCheck s.params.maxPixels s.params.prevInit s.enc) := by
  simp only [encFailedCheck, encFailedSize, apply_ite (encReport s)]
  rfl

theorem encValidate_of_failedCheck {s : State} {c : FailedCheck}
    (h : encFailedCheck s.params.maxPixels s.params.prevInit s.enc = some c) :
    encValidate s = .next (raise .enc c.error c.info0 c.info1 { s with enc := { s.enc with lat := c.lat } }) := by
  rw [encValidate_eq, h, encReport]

theorem encValidate_of_passed {s : State} (h : encFailedCheck s.params.maxPixels s.params.prevInit s.enc = none) :
    encValidate s = .next { s with enc := encStarted s.params.prevInit s.enc } := by
  rw [encValidate_eq, h, encReport]

theorem step_encValidate {s : State} (ha : nextAgent s = .enc) (phase : s.enc.phase = .validate) :
    step s = encValidate (afterChoice s) := by
  rw [step_enc ha, encStep, afterChoice_enc, phase]

/-- A register's value is its own info word (R282). -/
theorem infoWord_toNat {w : Nat} (d : Nat) (v : BitVec w) (h : w ≤ 64) : infoWord d v.toNat = v.setWidth 64 := by
  have small : v.toNat < 2 ^ 64 := v.isLt.trans_le (Nat.pow_le_pow_right (by decide) h)
  rw [infoWord_fits small, BitVec.ofNat_toNat]

/-- A step in which a check fails raises its error and leaves storage alone (R88, R290). -/
theorem step_failedCheck {s : State} {c : FailedCheck} {i0 i1 : Word64} (ha : nextAgent s = .enc)
    (phase : s.enc.phase = .validate) (h : encFailedCheck s.params.maxPixels s.params.prevInit s.enc = some c)
    (info0 : infoWord (afterChoice s).draws c.info0 = i0) (info1 : infoWord ((afterChoice s).draws + 1) c.info1 = i1) :
    ∃ t, step s = .next t ∧
      ValidateRaised .enc (afterChoice s) t c.lat s.enc.regs (errorCode c.error) i0 i1 := by
  subst info0 info1
  rw [← afterChoice_params, ← afterChoice_enc] at h
  refine ⟨_, (step_encValidate ha phase).trans (encValidate_of_failedCheck h), ?_, raise_unit_other .., raise_mem ..,
    raise_contested .., raise_params .., raise_hostIn .., raise_hostOut .., raise_schedule ..⟩
  rw [raise_unit, ← afterChoice_enc s]
  rfl

theorem not_ne_and_ne {b v w : Byte} (h : b = v ∨ b = w) : ¬(b ≠ v ∧ b ≠ w) := by tauto

/-- A header that can be valid leaves the checks of the sizes. -/
theorem encFailedCheck_of_header {maxPixels : Word64} {prevInit : Pixel} {x : UnitState}
    (ch : x.regs.channels = 3 ∨ x.regs.channels = 4) (cs : x.regs.colorspace = 0 ∨ x.regs.colorspace = 1)
    (hw : x.regs.width ≠ 0) (hh : x.regs.height ≠ 0) : encFailedCheck maxPixels prevInit x =
      encFailedSize maxPixels prevInit x :=
  (if_neg (not_ne_and_ne ch)).trans ((if_neg (not_ne_and_ne cs)).trans (if_neg (not_or.2 ⟨hw, hh⟩)))

/-- `MaxLen` as R202 writes it. -/
theorem maxLen_eq_ite (prevInit : Pixel) (n : Nat) (ch : Byte) : maxLen prevInit n ch.toNat =
    22 + n * (ch.toNat + 1) + (if ch = 3 ∧ prevInit.a ≠ 255 then 1 else 0) := maxLen_eq prevInit n ch

/-- Settles O26: under each clause's premises its check is the first that fails. -/
theorem encChecksInOrder : Obligations.EncChecksInOrder := by
  rintro s r n lat latN ha phase rfl rfl rfl rfl
  simp only [← maxLen_eq_ite]
  have failed {c : FailedCheck} {i0 i1 : Word64} := step_failedCheck (c := c) (i0 := i0) (i1 := i1) ha phase
  have word8 (d : Nat) (v : Byte) : infoWord d v.toNat = v.setWidth 64 := infoWord_toNat d v (by decide)
  have word32 (d : Nat) (v : Word32) : infoWord d v.toNat = v.setWidth 64 := infoWord_toNat d v (by decide)
  have word64 (d : Nat) (v : Word64) : infoWord d v.toNat = v := (infoWord_toNat d v le_rfl).trans v.setWidth_eq
  refine ⟨fun c3 c4 => ?_, fun ch cs0 cs1 => ?_, fun ch cs empty => ?_, fun ch cs hw hh large => ?_,
    fun ch cs hw hh fits wrong => ?_, fun ch cs hw hh fits len small => ?_⟩
  · exact failed (if_pos ⟨c3, c4⟩) (word8 ..) rfl
  · exact failed ((if_neg (not_ne_and_ne ch)).trans (if_pos ⟨cs0, cs1⟩)) (word8 ..) rfl
  · exact failed ((if_neg (not_ne_and_ne ch)).trans ((if_neg (not_ne_and_ne cs)).trans (if_pos empty)))
      (word32 ..) (word32 ..)
  · exact failed (encFailedCheck_of_header ch cs hw hh |>.trans (if_pos large)) (word32 ..) (word32 ..)
  · exact failed (encFailedCheck_of_header ch cs hw hh |>.trans ((if_neg fits.not_gt).trans (if_pos wrong)))
      (word64 ..) rfl
  · exact failed (encFailedCheck_of_header ch cs hw hh |>.trans
      ((if_neg fits.not_gt).trans ((if_neg (not_not.2 len)).trans (if_pos small)))) (word64 ..) rfl

/-- Settles O27: no check fails. -/
theorem encValidateStartsHeader : Obligations.EncValidateStartsHeader := by
  rintro s r n ha phase rfl rfl ch cs hw hh fits len room
  rw [← maxLen_eq_ite] at room
  have passed : encFailedCheck (afterChoice s).params.maxPixels (afterChoice s).params.prevInit (afterChoice s).enc =
      none := by
    rw [afterChoice_params, afterChoice_enc]
    exact encFailedCheck_of_header ch cs hw hh |>.trans
      ((if_neg fits.not_gt).trans ((if_neg (not_not.2 len)).trans (if_neg room.not_gt)))
  refine ⟨_, (step_encValidate ha phase).trans (encValidate_of_passed passed), by simp, by simp, by simp, by simp,
    by simp, by simp, cacheLookup_cacheCleared, ?_⟩
  rw [afterChoice_params, afterChoice_enc]
  rfl

end Sys2Proof.Safety
end

section
/-! PROOF. The steps of ENC that write OUT (spec/42_encoder.md R210 to R221): for each phase its answer where the bytes
fit, then what the bytes are and what stays. -/

namespace Sys2Proof.Safety

open Sys2Proof.Machine

/-! ### HEADER, PIXELS and FOOTER where their bytes fit OUT -/

theorem encHeader_eq {s : State} {bs : List Byte}
    (header : bs = headerBytes s.params.magic s.enc.lat.w s.enc.lat.hgt s.enc.lat.ch s.enc.lat.cs)
    (fits : s.enc.opos.toNat + bs.length ≤ s.enc.lat.outCap.toNat) : encHeader s = .next { s with
      mem := s.mem.writeBytes (s.enc.outBase + s.enc.opos.toNat) bs
      enc := { s.enc with opos := s.enc.opos + BitVec.ofNat 64 bs.length, phase := .pixels } } := by
  subst header
  simp only [encHeader, emit_eq_some.2 ⟨fits, rfl⟩]

theorem encPixel_eq {s : State} {bs : List Byte} {p : Pixel} {effect : List Byte × UnitState}
    (read : memRead .enc s (s.enc.k.toNat * s.enc.lat.ch.toNat) s.enc.lat.ch.toNat = some bs)
    (pixel : pixelOfBytes bs = some p)
    (made : effect = encPixelEffect (decide (s.enc.k.toNat + 1 = s.enc.lat.n.toNat)) p s.enc)
    (fits : s.enc.opos.toNat + effect.1.length ≤ s.enc.lat.outCap.toNat) : encPixel s = .next { s with
      mem := s.mem.writeBytes (s.enc.outBase + s.enc.opos.toNat) effect.1, enc := encAfterPixel s.enc effect } := by
  subst made
  obtain ⟨u, emitted⟩ := emit_effect_answers fits
  have answer : encPixel s = .next (encAdvance u) := by
    simp only [encPixel, read, pixel]
    rw [emitted]
  obtain ⟨_, _, _, -, rfl, pixel', rfl, -, next⟩ := encPixel_next answer
  rw [(memRead_eq_some.1 read).2] at pixel
  obtain rfl := Option.some.inj (pixel'.symm.trans pixel)
  rw [answer, next]
  rfl

theorem encFooter_eq {s : State} (fits : s.enc.opos.toNat + 8 ≤ s.enc.lat.outCap.toNat) :
    encFooter s = .next (settleOutput .enc (s.enc.opos + 8).toNat { s with
      mem := s.mem.writeBytes (s.enc.outBase + s.enc.opos.toNat) endMarker
      enc := completePass (s.enc.opos + 8) (BitVec.ofNat 64 (s.enc.lat.n.toNat * s.enc.lat.ch.toNat))
        { s.enc with opos := s.enc.opos + 8 } }) := by
  rw [encFooter, emit_eq_some.2 ⟨fits, rfl⟩]
  rfl

/-! ### A step of ENC in these phases -/

/-- Settles O28: the 14 bytes are written at the start of OUT, where `opos` stands. -/
theorem encHeaderWritesFourteenBytes : Obligations.EncHeaderWritesFourteenBytes := by
  intro s ha phase opos room
  obtain ⟨bs, header⟩ : ∃ bs, bs = headerBytes s.params.magic s.enc.lat.w s.enc.lat.hgt s.enc.lat.ch s.enc.lat.cs :=
    ⟨_, rfl⟩
  have len : bs.length = 14 := by rw [header]; rfl
  have answer : step s = encHeader (afterChoice s) := by rw [step_enc ha, encStep, afterChoice_enc, phase]
  rw [encHeader_eq (bs := bs) (by simpa using header) (by simpa [opos, len] using room), afterChoice_enc,
    afterChoice_mem, opos, len] at answer
  refine ⟨_, answer, ?_, fun a outside => ?_, rfl, by simp, by simp, by simp, by simp, by simp, rfl⟩
  · have stored := Memory.readBytes_writeBytes s.mem s.enc.outBase bs
    rw [len] at stored
    exact stored.trans header
  · exact Memory.read_writeBytes_outside bs s.mem s.enc.outBase a (len.symm ▸ outside)

@[simp] theorem memRead_afterChoice (u : UnitId) (s : State) (a count : Nat) :
    memRead u (afterChoice s) a count = memRead u s a count := by simp [memRead]

/-- A PIXELS step of ENC that codes the pixel `p` (R211). -/
theorem step_encPixel {s : State} {bs : List Byte} {p : Pixel} {effect : List Byte × UnitState}
    (ha : nextAgent s = .enc) (phase : s.enc.phase = .pixels)
    (read : memRead .enc s (s.enc.k.toNat * s.enc.lat.ch.toNat) s.enc.lat.ch.toNat = some bs)
    (pixel : pixelOfBytes bs = some p)
    (made : encPixelEffect (decide (s.enc.k.toNat + 1 = s.enc.lat.n.toNat)) p s.enc = effect)
    (fits : s.enc.opos.toNat + effect.1.length ≤ s.enc.lat.outCap.toNat) : step s = .next { afterChoice s with
      mem := s.mem.writeBytes (s.enc.outBase + s.enc.opos.toNat) effect.1, enc := encAfterPixel s.enc effect } := by
  have answer : step s = encPixel (afterChoice s) := by rw [step_enc ha, encStep, afterChoice_enc, phase]
  rw [answer, encPixel_eq (s := afterChoice s) (bs := bs) (p := p) (effect := effect)]
  · simp only [afterChoice_enc, afterChoice_mem]
  · simpa using read
  · exact pixel
  · simp [made]
  · simpa using fits

/-- The unit after a PIXELS step, with its phase written out (R211). -/
theorem encAfterPixel_of_pixels {x : UnitState} (effect : List Byte × UnitState) (phase : x.phase = .pixels) :
    encAfterPixel x effect = { x with
      prev := effect.2.prev, run := effect.2.run, idx := effect.2.idx
      opos := x.opos + BitVec.ofNat 64 effect.1.length, k := x.k + 1
      ipos := x.ipos + x.lat.ch.setWidth 64
      phase := if x.k + 1 = x.lat.n then .footer else .pixels } := by
  rw [encAfterPixel, phase]

/-- The byte of a RUN chunk (R107). -/
theorem encode_run {len : Nat} (h : len ≤ 62) : encode (.run len) = [0xC0#8 ||| BitVec.ofNat 8 (len - 1)] := by
  have byte : ∀ l ≤ 62, (0b11#2 ++ BitVec.ofNat 6 (l - 1) : BitVec 8) = 0xC0#8 ||| BitVec.ofNat 8 (l - 1) := by decide
  rw [encode, byte len h]

theorem run_add_one_eq_62_iff {run : BitVec 6} (h : run.toNat ≤ 61) : run + 1 = 62 ↔ run.toNat + 1 = 62 := by
  bv_omega

/-- Settles O29: a run that is flushed is one byte, any other grows. -/
theorem encRepetitionGrowsOrFlushesRun : Obligations.EncRepetitionGrowsOrFlushesRun := by
  intro s bs ha phase read pixel run room
  have grown : (s.enc.run + 1).toNat = s.enc.run.toNat + 1 := by bv_omega
  have full : (s.enc.run + 1 = 62 ∨ decide (s.enc.k.toNat + 1 = s.enc.lat.n.toNat) = true) ↔
      (s.enc.run.toNat + 1 = 62 ∨ s.enc.k.toNat + 1 = s.enc.lat.n.toNat) := by
    rw [run_add_one_eq_62_iff run, decide_eq_true_iff]
  by_cases flushed : s.enc.run.toNat + 1 = 62 ∨ s.enc.k.toNat + 1 = s.enc.lat.n.toNat
  · have effect := encPixelEffect_flush (full.2 flushed)
    rw [grown, encode_run (by omega), Nat.add_sub_cancel] at effect
    refine ⟨_, step_encPixel ha phase read pixel effect room, by simp, by simp, by simp, by simp, by simp,
      fun _ => ⟨?_, fun a other => ?_, encAfterPixel_of_pixels _ phase⟩, fun short notLast => ?_⟩
    · simp [Memory.writeBytes, Memory.read_write]
    · simp [Memory.writeBytes, Memory.read_write, other]
    · exact absurd flushed (not_or.2 ⟨short, notLast⟩)
  · have effect := encPixelEffect_grow (mt full.1 flushed)
    refine ⟨_, step_encPixel ha phase read pixel effect (Nat.le_of_succ_le room), by simp, by simp, by simp, by simp,
      by simp, fun flush => absurd flush flushed, fun _ _ => ⟨rfl, ?_⟩⟩
    rw [encAfterPixel_of_pixels _ phase]
    simp

/-- The cache takes the pixel, be it by a WRITE or because its slot held it (R142, R216). -/
theorem cacheTook_of_hit_or_write (idx : Cache) (p : Pixel) :
    CacheTook idx (if cacheLookup idx (pixelHash p) = p then idx else cacheWrite idx p) p := by
  have took := CacheTook.cacheWrite idx p
  split
  · rename_i hit
    rwa [cacheWrite_of_hit hit] at took
  · exact took

/-- Settles O30: what is owed and the chunk are written in a row. -/
theorem encBreakFlushesThenEmitsChunk : Obligations.EncBreakFlushesThenEmitsChunk := by
  intro s bs flush p ha phase read pixel differs run owed room
  have flushed : (if runActive s.enc then encode (.run s.enc.run.toNat) else []) = flush := by
    rw [owed, encode_run (by omega), runActive]
    by_cases none : s.enc.run = 0 <;> simp [none]
  have effect := encPixelEffect_break (last := decide (s.enc.k.toNat + 1 = s.enc.lat.n.toNat)) differs
  rw [flushed] at effect
  rw [Nat.add_assoc, ← List.length_append] at room
  refine ⟨_, step_encPixel ha phase read pixel effect room, by simp, by simp, by simp, by simp, by simp, ?_,
    fun a outside => ?_, fun hit => if_pos hit, cacheTook_of_hit_or_write _ p, ?_⟩
  · rw [← List.length_append]
    exact Memory.readBytes_writeBytes ..
  · refine Memory.read_writeBytes_outside _ _ _ _ ?_
    rwa [List.length_append, ← Nat.add_assoc]
  · rw [← List.length_append]
    exact encAfterPixel_of_pixels _ phase

/-- Settles O34: the marker is written at `opos`, and only bytes that DEC's writes are in no order with are settled to
free values. -/
theorem encFooterAppendsEndMarker : Obligations.EncFooterAppendsEndMarker := by
  intro s ha phase room
  have answer : step s = encFooter (afterChoice s) := by rw [step_enc ha, encStep, afterChoice_enc, phase]
  have marked : (s.enc.opos + 8).toNat = s.enc.opos.toNat + 8 := by bv_omega
  rw [encFooter_eq (by simpa using room), afterChoice_enc, afterChoice_mem] at answer
  refine ⟨_, answer, fun j inside ordered => ?_, fun a kept => ?_, fun a => by simp, rfl, by simp, by simp, by simp,
    by simp⟩
  · have marker : ∀ j (h : j < 8), endMarker[j] = if j = 7 then 1 else 0 := by decide
    rw [settleOutput_mem, ← marker j inside]
    exact (Memory.read_drawCovered_outside _ _ _ _ _ _ (.inr (.inr ordered))).trans
      (Memory.read_writeBytes_inside endMarker s.mem _ j inside)
  · rw [settleOutput_mem]
    refine (Memory.read_drawCovered_outside _ _ _ _ _ _ ?_).trans (Memory.read_writeBytes_outside _ _ _ _ ?_)
    · simp only [State.unit_enc, completePass_outBase, completePass_unorderedOut, marked]
      tauto
    · show _ ∨ _ + 8 ≤ _
      omega

end Sys2Proof.Safety
end

section
/-! PROOF. The order of a pass (spec/42_encoder.md R200, spec/43_decoder.md R240): the moves of the phase that each
agent's step can make. -/

namespace Sys2Proof.Machine

open Sys2Proof.Safety

/-! ### The steps of the units -/

/-- The moves of ENC's phase in a step of ENC (R200). -/
def encMoves : List (Phase × Phase) :=
  [(.validate, .header), (.validate, .error), (.header, .pixels), (.pixels, .footer), (.footer, .done)]

/-- The moves of DEC's phase in a step of DEC (R240). -/
def decMoves : List (Phase × Phase) :=
  [(.validate, .pixels), (.validate, .error), (.pixels, .footer), (.pixels, .error), (.footer, .done),
    (.footer, .error)]

/-- After a pixel the phase stays, or FOOTER follows PIXELS (R211, R253). -/
theorem pixels_stay_or_end (last : Prop) [Decidable last] {moves : List (Phase × Phase)}
    (h : (Phase.pixels, Phase.footer) ∈ moves) : (if last then Phase.footer else .pixels) = .pixels ∨
      (Phase.pixels, if last then Phase.footer else .pixels) ∈ moves := by
  split
  · exact .inr h
  · exact .inl rfl

theorem encStep_phase {s t : State} (h : encStep s = .next t) :
    t.enc.phase = s.enc.phase ∨ (s.enc.phase, t.enc.phase) ∈ encMoves := by
  unfold encStep at h
  cases phase : s.enc.phase <;> rw [phase] at h
  case idle | done | error => cases h; exact .inl phase
  case validate =>
    obtain ⟨_, _, _, _, rfl, -⟩ | ⟨-, -, -, -, -, -, -, rfl⟩ := encValidate_next h
    · exact .inr (by simp [encMoves, raise])
    · exact .inr (by simp [encMoves])
  case header =>
    obtain ⟨_, -, -, rfl⟩ := encHeader_next h
    exact .inr (by simp [encMoves])
  case pixels =>
    obtain ⟨_, _, _, -, -, -, -, -, rfl⟩ := encPixel_next h
    rw [phase]
    exact pixels_stay_or_end _ (by decide)
  case footer =>
    obtain ⟨-, rfl⟩ := encFooter_next h
    exact .inr (by simp [encMoves])

theorem decStep_phase {s t : State} (h : decStep s = .next t) :
    t.dec.phase = s.dec.phase ∨ (s.dec.phase, t.dec.phase) ∈ decMoves := by
  have raised : ∀ e, (raiseDecoding e s).dec.phase = .error := fun e => by rw [raiseDecoding_eq]
  unfold decStep at h
  cases phase : s.dec.phase <;> rw [phase] at h
  case idle | done | error => cases h; exact .inl phase
  case validate =>
    obtain ⟨_, _, _, _, _, rfl, -⟩ | ⟨_, _, _, _, -, -, -, -, -, -, -, -, rfl⟩ := decValidate_next h
    · exact .inr (by simp [decMoves, raise])
    · exact .inr (by simp [decMoves])
  case header => cases h
  case pixels =>
    obtain rfl | ⟨_, _, made⟩ := decPixel_next h
    · exact .inr (by simp [decMoves, raised])
    · rw [made.phase, phase]
      exact pixels_stay_or_end _ (by decide)
  case footer =>
    obtain rfl | ⟨-, -, rfl⟩ := decFooter_next h
    · exact .inr (by simp [decMoves, raised])
    · exact .inr (by simp [decMoves])

/-- A step of a unit leaves the other unit alone. -/
theorem UnitNotes.other {u : UnitId} {s t : State} (h : UnitNotes u s t) :
    t.unit (otherUnit u) = s.unit (otherUnit u) := by
  cases h with
  | kept other => exact other
  | ended _ other => exact other

/-! ### The host's actions -/

/-- What the host's step can do to a unit's phase: nothing, a START of a unit that is not BUSY (R52), or a hardware
reset (R320). -/
inductive HostPhase (u : UnitId) (s t : State) : Prop
  | kept : (t.unit u).phase = (s.unit u).phase → HostPhase u s t
  | started (v : Word64) (rest : List HostAction) : s.hostIn = .writeReg u 0 v :: rest → v.getLsbD 0 = true →
      busy (s.unit u).phase = false → (t.unit u).phase = .validate → HostPhase u s t
  | reset (rest : List HostAction) : s.hostIn = .hardwareReset :: rest → (t.unit u).phase = .idle → HostPhase u s t

/-- A change of a unit that keeps its phase. -/
theorem HostPhase.of_setUnit {u v : UnitId} {s : State} {x : UnitState} (rest : List HostAction)
    (phase : x.phase = (s.unit v).phase) : HostPhase u s (({ s with hostIn := rest } : State).setUnit v x) := by
  refine .kept ?_
  obtain rfl | rfl := eq_or_eq_otherUnit v u
  · rw [State.unit_setUnit, phase]
  · rw [State.unit_setUnit_other, unit_popped]

theorem hostReadReg_phase (v : UnitId) (reg : Nat) (s : State) (u : UnitId) :
    ((hostReadReg v reg s).unit u).phase = (s.unit u).phase := by
  obtain ⟨_, _, _, _, _, _, e⟩ := hostReadReg_eq v reg s
  rw [e]
  cases u <;> rfl

theorem hostReadMem_unit (a : Nat) (s : State) (u : UnitId) : (hostReadMem a s).unit u = s.unit u := by
  unfold hostReadMem
  split <;> cases u <;> rfl

theorem hostStep_phase {s t : State} (u : UnitId) (h : hostStep s = .next t) : HostPhase u s t := by
  have popped (rest : List HostAction) : (({ s with hostIn := rest } : State).unit u).phase = (s.unit u).phase :=
    congrArg _ (unit_popped s rest u)
  cases hostStep_next h with
  | none _ e => exact .kept (by rw [e])
  | readReg v reg rest _ e => exact .kept (by rw [e, hostReadReg_phase, popped])
  | start v w rest hin start idle _ e =>
    obtain rfl | rfl := eq_or_eq_otherUnit v u
    · exact .started w rest hin start idle (by rw [e, startPass_unit])
    · exact .kept (by rw [e, startPass_unit_other, popped])
  | ignored _ _ _ rest _ e => exact .kept (by rw [e, popped])
  | writeReg _ _ _ rest _ _ _ e => exact e ▸ .of_setUnit rest rfl
  | readMem a rest _ e => exact .kept (by rw [e, hostReadMem_unit, popped])
  | writeMem _ _ _ _ _ e => exact .kept (by rw [e]; cases u <;> rfl)
  | bind _ _ _ rest _ _ e => exact e ▸ .of_setUnit rest rfl
  | reset rest hin e =>
    obtain ⟨d, unit⟩ := hardwareReset_unit { s with hostIn := rest } u
    exact .reset rest hin (by rw [e, unit]; rfl)

/-! ### Every step -/

/-- The moves of the phase of a unit in its own steps. -/
def unitMoves : UnitId → List (Phase × Phase)
  | .enc => encMoves
  | .dec => decMoves

theorem step_phase {s t : State} (u : UnitId) (h : step s = .next t) :
    (nextAgent s = .host ∧ HostPhase u (afterChoice s) t) ∨ (t.unit u).phase = (s.unit u).phase ∨
      ((s.unit u).phase, (t.unit u).phase) ∈ unitMoves u := by
  cases ha : nextAgent s with
  | host =>
    rw [step_host ha] at h
    exact .inl ⟨rfl, hostStep_phase u h⟩
  | enc =>
    rw [step_enc ha] at h
    have moved := encStep_phase h
    have other := (encStep_notes h).other
    rw [afterChoice_enc] at moved
    rw [afterChoice_unit] at other
    cases u with
    | enc => exact .inr moved
    | dec => exact .inr (.inl (congrArg UnitState.phase other))
  | dec =>
    rw [step_dec ha] at h
    have moved := decStep_phase h
    have other := (decStep_notes h).other
    rw [afterChoice_dec] at moved
    rw [afterChoice_unit] at other
    cases u with
    | enc => exact .inr (.inl (congrArg UnitState.phase other))
    | dec => exact .inr moved

theorem step_phase_cases {s t : State} (u : UnitId) (h : step s = .next t) :
    (t.unit u).phase = (s.unit u).phase ∨
    ((t.unit u).phase = .idle ∧ nextAgent s = .host ∧ ∃ rest, s.hostIn = .hardwareReset :: rest) ∨
    (busy (s.unit u).phase = false ∧ (t.unit u).phase = .validate) ∨
    ((s.unit u).phase, (t.unit u).phase) ∈ unitMoves u := by
  obtain ⟨ha, host⟩ | kept | moved := step_phase u h
  · cases host with
    | kept phase => exact .inl (by rw [phase, afterChoice_unit])
    | started _ _ _ _ idle phase => exact .inr (.inr (.inl ⟨by rwa [afterChoice_unit] at idle, phase⟩))
    | reset rest hin phase => exact .inr (.inl ⟨phase, ha, rest, by rwa [afterChoice_hostIn] at hin⟩)
  · exact .inl kept
  · exact .inr (.inr (.inr moved))

/-- Settles O36, by the moves of each unit. -/
theorem phasesFollowThePassOrder : Obligations.PhasesFollowThePassOrder := fun _ _ h =>
  ⟨step_phase_cases .enc h, step_phase_cases .dec h⟩

/-! ### Units that are not BUSY -/

theorem encStep_of_idle {s : State} (idle : busy s.enc.phase = false) : encStep s = .next s := by
  unfold encStep
  cases phase : s.enc.phase
  case idle | done | error => rfl
  case validate | header | pixels | footer => simp [phase, busy, statusCode] at idle

theorem decStep_of_idle {s : State} (idle : busy s.dec.phase = false) : decStep s = .next s := by
  unfold decStep
  cases phase : s.dec.phase
  case idle | done | error => rfl
  case validate | header | pixels | footer => simp [phase, busy, statusCode] at idle

/-- Settles O49: the phases that are not BUSY are those without a step. -/
theorem quiescentUnitHasNoStep : Obligations.QuiescentUnitHasNoStep := fun s =>
  ⟨fun ha idle => (step_enc ha).trans (encStep_of_idle (by rwa [afterChoice_enc])),
    fun ha idle => (step_dec ha).trans (decStep_of_idle (by rwa [afterChoice_dec]))⟩

end Sys2Proof.Machine
end

section
/-! PROOF. A step of ENC as a function of ENC, three parameters and the ordered bytes of its IN (spec/42_encoder.md
R223, spec/10_state.md R30, spec/20_memory.md R84): each step's answer, read in the other state. -/

namespace Sys2Proof.Safety

open Sys2Proof.Machine

/-! ### Storage -/

/-- A write of one byte keeps the addresses where two storages agree. -/
theorem read_write_congr {m m' : Memory} {x : Nat} (a : Nat) (v : Byte) (h : m.read x = m'.read x) :
    (m.write a v).read x = (m'.write a v).read x := by
  rw [Memory.read_write, Memory.read_write, h]

theorem read_writeBytes_congr {m m' : Memory} {x : Nat} (a : Nat) (bs : List Byte) (h : m.read x = m'.read x) :
    (m.writeBytes a bs).read x = (m'.writeBytes a bs).read x := by
  induction bs generalizing m m' a with
  | nil => exact h
  | cons v rest ih => exact ih (a + 1) (read_write_congr a v h)

theorem read_drawCovered_congr {m m' : Memory} {x : Nat} (ws : List Window) (a d count : Nat)
    (h : m.read x = m'.read x) : (m.drawCovered ws a d count).read x = (m'.drawCovered ws a d count).read x := by
  induction count with
  | zero => exact h
  | succ c ih =>
    simp only [Memory.drawCovered]
    split
    · exact read_write_congr _ _ ih
    · exact ih

/-! ### What ENC can tell of a state -/

/-- What a step of ENC depends on agrees in two states (R223). -/
structure EncAgree (s s' : State) : Prop where
  enc : s.enc = s'.enc
  magic : s.params.magic = s'.params.magic
  prevInit : s.params.prevInit = s'.params.prevInit
  maxPixels : s.params.maxPixels = s'.params.maxPixels
  draws : s.draws = s'.draws
  input : ∀ a, inInput s.enc a = true → covered s.enc.unorderedIn a = false → s.mem.read a = s'.mem.read a

/-- The step to `t` can be made from `s'` too: ENC becomes the same, and so do the bytes that were the same. -/
def Matched (s s' t : State) (answer : Result) : Prop :=
  ∃ t', answer = .next t' ∧ t.enc = t'.enc ∧ ∀ a, s.mem.read a = s'.mem.read a → t.mem.read a = t'.mem.read a

/-- Bytes of IN are the same in both states. -/
theorem EncAgree.inBytes_eq {s s' : State} {a count : Nat} (h : EncAgree s s') (run : running s.enc.phase = true)
    (low : s.enc.inBase ≤ a) (high : a + count ≤ s.enc.inBase + s.enc.lat.inLen.toNat) :
    inBytes s'.enc s'.mem a count = inBytes s.enc s.mem a count := by
  rw [← h.enc]
  refine (inBytes_congr rfl rfl fun j from_a below ordered => h.input j (decide_eq_true ?_) ordered).symm
  rw [passInLen_of_running run]
  omega

theorem EncAgree.encValidate_matched {s s' t : State} (h : EncAgree s s') (made : encValidate s = .next t) :
    Matched s s' t (encValidate s') := by
  obtain ⟨enc, -, prevInit, maxPixels, draws, -⟩ := h
  rw [encValidate_eq] at made ⊢
  rw [← enc, ← prevInit, ← maxPixels]
  cases failed : encFailedCheck s.params.maxPixels s.params.prevInit s.enc with
  | some c =>
    rw [failed] at made
    cases made
    exact ⟨_, rfl, by simp only [raise, State.setUnit_enc, State.unit_enc, enc, draws], fun a => id⟩
  | none =>
    rw [failed] at made
    cases made
    exact ⟨_, rfl, by simp only [enc, prevInit], fun a => id⟩

theorem EncAgree.encHeader_matched {s s' t : State} (h : EncAgree s s') (made : encHeader s = .next t) :
    Matched s s' t (encHeader s') := by
  obtain ⟨bs, header, fits, rfl⟩ := encHeader_next made
  rw [h.enc] at fits
  refine ⟨_, encHeader_eq (by rw [header, h.magic, h.enc]) fits, by rw [h.enc], fun a same => ?_⟩
  rw [h.enc]
  exact read_writeBytes_congr _ _ same

theorem EncAgree.encPixel_matched {s s' t : State} (h : EncAgree s s') (phase : s.enc.phase = .pixels)
    (made : encPixel s = .next t) : Matched s s' t (encPixel s') := by
  obtain ⟨bs, p, effect, inside, read, pixel, rfl, fits, rfl⟩ := encPixel_next made
  have same_bytes := h.inBytes_eq (a := s.enc.inBase + s.enc.k.toNat * s.enc.lat.ch.toNat)
    (count := s.enc.lat.ch.toNat) (by rw [phase]; rfl) (Nat.le_add_right _ _) (by omega)
  rw [← read, h.enc] at same_bytes
  rw [h.enc] at inside fits
  refine ⟨_, encPixel_eq (memRead_eq_some.2 ⟨inside, same_bytes.symm⟩) pixel rfl fits, ?_, fun a same => ?_⟩
  · rw [h.enc]
    rfl
  · rw [h.enc]
    exact read_writeBytes_congr _ _ same

theorem EncAgree.encFooter_matched {s s' t : State} (h : EncAgree s s') (made : encFooter s = .next t) :
    Matched s s' t (encFooter s') := by
  obtain ⟨fits, rfl⟩ := encFooter_next made
  rw [h.enc] at fits
  refine ⟨_, encFooter_eq fits, by simp only [settleOutput_enc, h.enc], fun a same => ?_⟩
  simp only [settleOutput_mem, State.unit_enc, h.enc, h.draws]
  exact read_drawCovered_congr _ _ _ _ (read_writeBytes_congr _ _ same)

/-- Settles O54: every phase's step looks at what `EncAgree` names only. -/
theorem encStepDependsOnlyOnItsInput : Obligations.EncStepDependsOnlyOnItsInput := by
  intro s s' t enc magic prevInit maxPixels draws input made
  have agree : EncAgree s s' := ⟨enc, magic, prevInit, maxPixels, draws, input⟩
  unfold encStep at made ⊢
  rw [← enc]
  cases phase : s.enc.phase <;> rw [phase] at made
  case idle | done | error => cases made; exact ⟨s', rfl, enc, fun _ => id⟩
  case validate => exact agree.encValidate_matched made
  case header => exact agree.encHeader_matched made
  case pixels => exact agree.encPixel_matched phase made
  case footer => exact agree.encFooter_matched made

end Sys2Proof.Safety
end

section
/-! PROOF. The PIXELS and FOOTER steps of DEC (spec/43_decoder.md R250 to R254, R262): the decoder's answer where the
stream ends, and what each step does once its agent is chosen. -/

namespace Sys2Proof.Safety

open Sys2Proof.Machine

/-! ### The choice of DEC -/

/-- DEC's room in OUT is no matter of the choice of the agent. -/
theorem PixelRoom.afterChoice {s : State} (room : PixelRoom s) : PixelRoom (afterChoice s) := by
  simpa only [PixelRoom, afterChoice_dec] using room

@[simp] theorem chunkWindow_afterChoice (s : State) : chunkWindow (afterChoice s) = chunkWindow s := by
  simp only [chunkWindow, afterChoice_dec, afterChoice_mem]

theorem step_decPixel {s : State} (ha : nextAgent s = .dec) (phase : s.dec.phase = .pixels) :
    step s = decPixel (afterChoice s) := by
  rw [step_dec ha, decStep, afterChoice_dec, phase]

theorem step_decFooter {s : State} (ha : nextAgent s = .dec) (phase : s.dec.phase = .footer) :
    step s = decFooter (afterChoice s) := by
  rw [step_dec ha, decStep, afterChoice_dec, phase]

/-! ### PIXELS -/

/-- Settles O16: only RGB, RGBA and LUMA have more than one byte, and each tests for the end of IN first. -/
theorem chunkPastEndRaises : Obligations.ChunkPastEndRaises := by
  intro i s long past
  have raised := raiseDecoding_raised .unexpectedBufferEnd s
  cases i with
  | rgb r g b => exact ⟨_, longChunk_raised (px := ⟨r, g, b, s.dec.prev.a⟩) past, raised⟩
  | rgba r g b a => exact ⟨_, longChunk_raised (px := ⟨r, g, b, a⟩) past, raised⟩
  | luma dg drg dbg => exact ⟨_, longChunk_raised past, raised⟩
  | index slot | diff dr dg db | run len => simp [encode] at long

theorem not_runActive {x : UnitState} (idle : x.run = 0) : ¬runActive x = true := by simp [runActive, idle]

/-- With no run active DEC executes the chunk that its window decodes to (R250). -/
theorem decPixel_of_decoded {s : State} {i : Instr} {rest : List Byte} (idle : s.dec.run = 0)
    (decoded : decode (chunkWindow s) = .ok i rest) : decPixel s = exec i s := by
  rw [decPixel, if_neg (not_runActive idle), decoded]

/-- With no run active DEC raises where its window holds no chunk (R252). -/
theorem decPixel_of_undecoded {s : State} (idle : s.dec.run = 0)
    (undecoded : decode (chunkWindow s) = .noTagByte ∨ decode (chunkWindow s) = .truncated) :
    decPixel s = .next (raiseDecoding .unexpectedBufferEnd s) := by
  rw [decPixel, if_neg (not_runActive idle)]
  obtain none | cut := undecoded
  · rw [none]
  · rw [cut]

/-- Settles O18: the choice of the agent leaves the window as it is. -/
theorem stepRunsTheDecodedChunk : Obligations.StepRunsTheDecodedChunk := by
  intro s i rest ha phase idle decoded
  rw [step_decPixel ha phase]
  exact decPixel_of_decoded (by rwa [afterChoice_dec]) (by rwa [chunkWindow_afterChoice])

/-- Settles O19: the window begins with the chunk's bytes, and decoding inverts encoding. -/
theorem stepRunsTheChunkInTheStream : Obligations.StepRunsTheChunkInTheStream := by
  intro s i ha phase idle wf fits bytes
  rw [step_decPixel ha phase]
  exact decPixel_of_chunk (by rwa [afterChoice_dec]) wf (by rwa [afterChoice_dec])
    (by rwa [afterChoice_dec, afterChoice_mem])

/-- No first byte selects more than 5 bytes (R110). -/
theorem chunkLength_le (b1 : Byte) : chunkLength b1 ≤ 5 := by
  unfold chunkLength
  repeat' split
  all_goals decide

/-- A tag byte or a chunk that passes the end of IN leaves no chunk in the window (R252): the window is as long as the
longest chunk or ends where IN ends. -/
theorem decode_chunkWindow_of_streamEnd {s : State}
    (past : s.dec.lat.inLen.toNat < s.dec.ipos.toNat + 1 ∨ s.dec.lat.inLen.toNat <
      s.dec.ipos.toNat + chunkLength (inByte s.dec s.mem (s.dec.inBase + s.dec.ipos.toNat))) :
    decode (chunkWindow s) = .noTagByte ∨ decode (chunkWindow s) = .truncated := by
  rw [chunkWindow]
  cases size : min 5 (s.dec.lat.inLen.toNat - s.dec.ipos.toNat) with
  | zero => exact .inl rfl
  | succ n =>
    have longest := chunkLength_le (inByte s.dec s.mem (s.dec.inBase + s.dec.ipos.toNat))
    rw [inBytes]
    obtain ⟨-, -, -, whole⟩ | ⟨truncated, -⟩ := decode_cons_cases
      (inByte s.dec s.mem (s.dec.inBase + s.dec.ipos.toNat))
      (inBytes s.dec s.mem (s.dec.inBase + s.dec.ipos.toNat + 1) n)
    · rw [length_inBytes] at whole
      omega
    · exact .inr truncated

/-- Settles O20: where the stream ends the window holds no chunk. -/
theorem streamEndRaises : Obligations.StreamEndRaises := by
  intro s ha phase idle past
  have undecoded := decode_chunkWindow_of_streamEnd past
  rw [← chunkWindow_afterChoice] at undecoded
  exact ⟨_, (step_decPixel ha phase).trans (decPixel_of_undecoded (by rwa [afterChoice_dec]) undecoded),
    raiseDecoding_raised _ _⟩

/-- Settles O21: the repetition of `decPixel_repeats`. -/
theorem activeRunRepeatsThePixel : Obligations.ActiveRunRepeatsThePixel := by
  intro s ha phase active room
  obtain ⟨t, next, made, prev, idx, fewer⟩ :=
    decPixel_repeats (s := afterChoice s) (by rwa [afterChoice_dec]) room.afterChoice
  rw [afterChoice_dec] at made prev idx fewer
  exact ⟨t, (step_decPixel ha phase).trans next, made, fewer, prev, idx⟩

/-! ### FOOTER -/

/-- FOOTER of DEC with too few bytes for a marker (R262). -/
theorem decFooter_of_short {s : State} (short : s.dec.lat.inLen.toNat < s.dec.ipos.toNat + 8) :
    decFooter s = .next (raiseDecoding .invalidPadding s) := if_pos short

/-- FOOTER of DEC at 8 bytes that are no marker (R262). -/
theorem decFooter_of_noMarker {s : State} (fits : s.dec.ipos.toNat + 8 ≤ s.dec.lat.inLen.toNat)
    (other : inBytes s.dec s.mem (s.dec.inBase + s.dec.ipos.toNat) 8 ≠ endMarker) :
    decFooter s = .next (raiseDecoding .invalidPadding s) := by
  have read := (memRead_eq_some (u := .dec) (s := s)).2 ⟨fits, rfl⟩
  simp only [decFooter, if_neg (Nat.not_lt.2 fits), read]
  exact if_pos other

/-- Settles O25: each clause has its own answer of FOOTER; at the marker only bytes that the other unit's writes are in
no order with are settled to free values. -/
theorem decFooterChecksEndMarker : Obligations.DecFooterChecksEndMarker := by
  intro s ha phase
  rw [step_decFooter ha phase]
  have raised := raiseDecoding_raised .invalidPadding (afterChoice s)
  refine ⟨fun short => ⟨_, decFooter_of_short ?_, raised⟩, fun fits other => ⟨_, decFooter_of_noMarker ?_ ?_, raised⟩,
    fun fits marker => ⟨_, decFooter_of_marker ?_ ?_, ?_, fun a kept => ?_, fun a => ?_, ?_⟩⟩
  iterate 5 simpa only [afterChoice_dec, afterChoice_mem]
  · simp [completePass]
  · have settled : s.dec.lat.n.toNat * s.dec.lat.ch.toNat % 2 ^ 64 ≤ s.dec.lat.n.toNat * s.dec.lat.ch.toNat :=
      Nat.mod_le ..
    simp only [settleOutput_mem, State.unit_dec, completePass_outBase, completePass_unorderedOut, afterChoice_dec,
      afterChoice_mem, BitVec.toNat_ofNat]
    exact Memory.read_drawCovered_outside _ _ _ _ _ _
      (kept.imp_right (Or.imp_left (Nat.add_le_add_left settled _).trans))
  · simp
  · simp

end Sys2Proof.Safety
end

section
/-! PROOF. DEC's VALIDATE (spec/43_decoder.md R244 to R247): its checks of a header, in the order of R286, as one function
of the header and the unit, which VALIDATE reports. -/

namespace Sys2Proof.Safety

open Sys2Proof.Machine

/-! ### The header -/

/-- What the 14 header bytes hold (R100). -/
structure Header where
  magic : Word32
  w : Word32
  hgt : Word32
  ch : Byte
  cs : Byte

/-- The bytes of a header. -/
def Header.bytes (h : Header) : List Byte := headerBytes h.magic h.w h.hgt h.ch h.cs

/-- Any 14 bytes are those of a header: its checks are no matter of its form. -/
theorem exists_header {bs : List Byte} (len : bs.length = 14) : ∃ h : Header, bs = h.bytes := by
  match bs, len with
  | [m0, m1, m2, m3, w0, w1, w2, w3, h0, h1, h2, h3, ch, cs], _ =>
    exact ⟨⟨be32 m0 m1 m2 m3, be32 w0 w1 w2 w3, be32 h0 h1 h2 h3, ch, cs⟩, (headerBytes_be32 ..).symm⟩

/-- The latches that VALIDATE takes from the header and the registers (R37). -/
def Header.latched (h : Header) (x : UnitState) : Latches :=
  { x.lat with w := h.w, hgt := h.hgt, ch := h.ch, cs := h.cs, inLen := x.regs.inLen, outCap := x.regs.outCap }

/-- The latches once the image is known not to be empty. -/
def Header.counted (h : Header) (x : UnitState) : Latches :=
  { h.latched x with n := BitVec.ofNat 64 (h.w.toNat * h.hgt.toNat) }

/-- The registers with the header's values (R244). -/
def Header.shown (h : Header) (x : UnitState) : Regs :=
  { x.regs with width := h.w, height := h.hgt, channels := h.ch, colorspace := h.cs }

/-! ### The checks of VALIDATE -/

/-- The first check of the sizes of R244 that fails, in the order of R286. -/
def decFailedSize (params : Params) (x : UnitState) (h : Header) : Option FailedCheck :=
  let n := h.w.toNat * h.hgt.toNat
  if params.maxPixels.toNat < n then some ⟨.imageTooLarge, h.w.toNat, h.hgt.toNat, h.counted x⟩
  else if x.regs.outCap.toNat < n * h.ch.toNat then
    some ⟨.outputBufferTooSmall, x.regs.outCap.toNat, n * h.ch.toNat, h.counted x⟩
  else none

/-- The first check of R244 that the header fails, in the order of R286. -/
def decFailedCheck (params : Params) (x : UnitState) (h : Header) : Option FailedCheck :=
  if h.magic ≠ params.magic then some ⟨.invalidMagic, h.magic.toNat, 0, h.latched x⟩
  else if h.ch ≠ 3 ∧ h.ch ≠ 4 then some ⟨.invalidChannels, h.ch.toNat, 0, h.latched x⟩
  else if h.cs ≠ 0 ∧ h.cs ≠ 1 then some ⟨.invalidColorSpace, h.cs.toNat, 0, h.latched x⟩
  else if h.w = 0 ∨ h.hgt = 0 then some ⟨.emptyImage, h.w.toNat, h.hgt.toNat, h.latched x⟩
  else decFailedSize params x h

/-- VALIDATE's answer to its checks: the error of the failing one, or the start of the pixel phase (R244, R247). -/
def decReport (s : State) (h : Header) : Option FailedCheck → Result
  | some c => .next (raise .dec c.error c.info0 c.info1
      { s with dec := { s.dec with lat := c.lat, regs := h.shown s.dec } })
  | none => .next { s with dec := decStarted s.params s.dec h.w h.hgt h.ch h.cs }

/-- VALIDATE of DEC with an IN that can hold a stream reads the header and reports its checks (R244). -/
theorem decValidate_eq {s : State} {h : Header} (long : 22 ≤ s.dec.regs.inLen.toNat)
    (read : inBytes s.dec s.mem s.dec.inBase 14 = h.bytes) :
    decValidate s = decReport s h (decFailedCheck s.params s.dec h) := by
  have header : memRead .dec { s with dec := { s.dec with
      lat := { s.dec.lat with inLen := s.dec.regs.inLen, outCap := s.dec.regs.outCap } } } 0 14 = some h.bytes :=
    memRead_eq_some.2 ⟨(by decide : 14 ≤ 22).trans long,
      read.symm.trans (inBytes_congr rfl rfl fun _ _ _ _ => rfl)⟩
  simp only [decValidate, if_neg (Nat.not_lt.2 long), header, Header.bytes, headerBytes, bytesBE32, List.cons_append,
    List.nil_append, be32_extractBytes, decFailedCheck, decFailedSize, apply_ite (decReport s h)]
  rfl

/-- VALIDATE of DEC with an IN that is too short for any stream reads nothing (R244). -/
theorem decValidate_of_short {s : State} (short : s.dec.regs.inLen.toNat < 22) :
    decValidate s = .next (raise .dec .inputBufferTooSmall s.dec.regs.inLen.toNat 22 { s with dec := { s.dec with
      lat := { s.dec.lat with inLen := s.dec.regs.inLen, outCap := s.dec.regs.outCap } } }) := if_pos short

/-! ### A step of DEC in VALIDATE -/

theorem step_decValidate {s : State} (ha : nextAgent s = .dec) (phase : s.dec.phase = .validate) :
    step s = decValidate (afterChoice s) := by
  rw [step_dec ha, decStep, afterChoice_dec, phase]

/-- A raise once DEC has set latches and header registers, in the terms of Safety.lean (R290). -/
theorem decRaise_raised (e : PassError) (i0 i1 : Nat) (lat : Latches) (regs : Regs) (s : State) :
    ValidateRaised .dec s (raise .dec e i0 i1 { s with dec := { s.dec with lat := lat, regs := regs } }) lat regs
      (errorCode e) (infoWord s.draws i0) (infoWord (s.draws + 1) i1) :=
  ⟨raise_unit .., raise_unit_other .., raise_mem .., raise_contested .., raise_params .., raise_hostIn ..,
    raise_hostOut .., raise_schedule ..⟩

/-- Settles O22: the length of IN is the first check. -/
theorem decShortInputRaises : Obligations.DecShortInputRaises := by
  intro s ha phase short
  have answer := decValidate_of_short (s := afterChoice s) (by rwa [afterChoice_dec])
  have raised := decRaise_raised .inputBufferTooSmall s.dec.regs.inLen.toNat 22
    { s.dec.lat with inLen := s.dec.regs.inLen, outCap := s.dec.regs.outCap } s.dec.regs (afterChoice s)
  rw [afterChoice_dec] at answer
  rw [afterChoice_dec, infoWord_toNat _ _ le_rfl, BitVec.setWidth_eq] at raised
  exact ⟨_, (step_decValidate ha phase).trans answer, raised⟩

/-- A step in which a header fails a check raises the check's error (R246, R290). -/
theorem step_failedHeader {s : State} {h : Header} {c : FailedCheck} {i0 i1 : Word64} (ha : nextAgent s = .dec)
    (phase : s.dec.phase = .validate) (long : 22 ≤ s.dec.regs.inLen.toNat)
    (read : inBytes s.dec s.mem s.dec.inBase 14 = h.bytes) (failed : decFailedCheck s.params s.dec h = some c)
    (info0 : infoWord (afterChoice s).draws c.info0 = i0) (info1 : infoWord ((afterChoice s).draws + 1) c.info1 = i1) :
    ∃ t, step s = .next t ∧
      ValidateRaised .dec (afterChoice s) t c.lat (h.shown s.dec) (errorCode c.error) i0 i1 := by
  subst info0 info1
  have answer : step s = decReport (afterChoice s) h (some c) := by
    rw [step_decValidate ha phase, decValidate_eq (s := afterChoice s) (h := h)]
    · rw [afterChoice_params, afterChoice_dec, failed]
    · rwa [afterChoice_dec]
    · rwa [afterChoice_dec, afterChoice_mem]
  rw [← afterChoice_dec s]
  exact ⟨_, answer, decRaise_raised ..⟩

/-- A header whose fields can be valid leaves the checks of the sizes. -/
theorem decFailedCheck_of_fields {params : Params} {x : UnitState} {h : Header} (magic : h.magic = params.magic)
    (ch : h.ch = 3 ∨ h.ch = 4) (cs : h.cs = 0 ∨ h.cs = 1) (hw : h.w ≠ 0) (hh : h.hgt ≠ 0) :
    decFailedCheck params x h = decFailedSize params x h :=
  (if_neg (not_not.2 magic)).trans ((if_neg (not_ne_and_ne ch)).trans
    ((if_neg (not_ne_and_ne cs)).trans (if_neg (not_or.2 ⟨hw, hh⟩))))

/-- Settles O23: under each clause's premises its check is the first that fails. -/
theorem decHeaderChecksInOrder : Obligations.DecHeaderChecksInOrder := by
  rintro s magic w hgt ch cs lat latN regs ha phase long read rfl rfl rfl
  have failed {c : FailedCheck} {i0 i1 : Word64} :=
    step_failedHeader (h := ⟨magic, w, hgt, ch, cs⟩) (c := c) (i0 := i0) (i1 := i1) ha phase long read
  have word8 (d : Nat) (v : Byte) : infoWord d v.toNat = v.setWidth 64 := infoWord_toNat d v (by decide)
  have word32 (d : Nat) (v : Word32) : infoWord d v.toNat = v.setWidth 64 := infoWord_toNat d v (by decide)
  have word64 (d : Nat) (v : Word64) : infoWord d v.toNat = v := (infoWord_toNat d v le_rfl).trans v.setWidth_eq
  refine ⟨fun wrong => ?_, fun magic c3 c4 => ?_, fun magic ch cs0 cs1 => ?_, fun magic ch cs empty => ?_,
    fun magic ch cs hw hh large => ?_, fun magic ch cs hw hh fits small => ?_⟩
  · exact failed (if_pos wrong) (word32 ..) rfl
  · exact failed ((if_neg (not_not.2 magic)).trans (if_pos ⟨c3, c4⟩)) (word8 ..) rfl
  · exact failed ((if_neg (not_not.2 magic)).trans ((if_neg (not_ne_and_ne ch)).trans (if_pos ⟨cs0, cs1⟩)))
      (word8 ..) rfl
  · exact failed ((if_neg (not_not.2 magic)).trans ((if_neg (not_ne_and_ne ch)).trans
      ((if_neg (not_ne_and_ne cs)).trans (if_pos empty)))) (word32 ..) (word32 ..)
  · exact failed (decFailedCheck_of_fields magic ch cs hw hh |>.trans (if_pos large)) (word32 ..) (word32 ..)
  · exact failed (decFailedCheck_of_fields magic ch cs hw hh |>.trans ((if_neg fits.not_gt).trans (if_pos small)))
      (word64 ..) rfl

/-- Settles O24: the header passes every check. -/
theorem decValidateStartsPixels : Obligations.DecValidateStartsPixels := by
  intro s w hgt ch cs ha phase long read hch hcs hw hh fits room
  have answer := decValidate_of_header (s := afterChoice s) (w := w) (hgt := hgt) (ch := ch) (cs := cs)
  simp only [afterChoice_dec, afterChoice_mem, afterChoice_params] at answer
  exact ⟨_, (step_decValidate ha phase).trans (answer long read hch hcs hw hh fits room), by simp, by simp, by simp,
    by simp, by simp, by simp, cacheLookup_cacheCleared, rfl⟩

end Sys2Proof.Safety
end

section
/-! PROOF. A step of DEC as a function of DEC, the parameters and the ordered bytes of its IN (spec/43_decoder.md R264,
spec/10_state.md R30, spec/20_memory.md R84): each step's answer, read in the other state. -/

namespace Sys2Proof.Safety

open Sys2Proof.Machine

theorem read_drawBytes_congr {m m' : Memory} {x : Nat} (a d count : Nat) (h : m.read x = m'.read x) :
    (m.drawBytes a d count).read x = (m'.drawBytes a d count).read x := by
  induction count with
  | zero => exact h
  | succ c ih => exact read_write_congr _ _ ih

/-! ### What DEC can tell of a state -/

/-- What a step of DEC depends on agrees in two states (R264). -/
structure DecAgree (s s' : State) : Prop where
  dec : s.dec = s'.dec
  params : s.params = s'.params
  draws : s.draws = s'.draws
  input : ∀ a, inInput s.dec a = true → covered s.dec.unorderedIn a = false → s.mem.read a = s'.mem.read a

/-- The step to `t` can be made from `s'` too: DEC becomes the same, and so do the bytes that were the same. -/
def DecMatched (s s' t : State) (answer : Result) : Prop :=
  ∃ t', answer = .next t' ∧ t.dec = t'.dec ∧ ∀ a, s.mem.read a = s'.mem.read a → t.mem.read a = t'.mem.read a

/-- Bytes of IN are the same in both states. -/
theorem DecAgree.inBytes_eq {s s' : State} {a count : Nat} (h : DecAgree s s') (low : s.dec.inBase ≤ a)
    (high : count = 0 ∨ a + count ≤ s.dec.inBase + passInLen s.dec) :
    inBytes s'.dec s'.mem a count = inBytes s.dec s.mem a count := by
  rw [← h.dec]
  exact (inBytes_congr rfl rfl fun j from_a below ordered => h.input j (decide_eq_true (by omega)) ordered).symm

/-! ### PIXELS -/

/-- The error of a PIXELS or FOOTER step draws the same free bytes for the same part of OUT (R88). -/
theorem DecAgree.raiseDecoding_matched {s s' : State} (h : DecAgree s s') (e : PassError) :
    DecMatched s s' (raiseDecoding e s) (.next (raiseDecoding e s')) := by
  refine ⟨_, rfl, ?_, fun a same => ?_⟩
  · simp only [raiseDecoding_eq, pixelAddress, h.dec]
  · simp only [raiseDecoding_eq, h.dec, h.draws]
    exact read_drawBytes_congr _ _ _ same

/-- The end of a pixel step, reached with storage as it was, writes the same bytes at the same address (R250). -/
theorem finishPixel_matched {s s' u u' t : State} {px : Pixel} (made : finishPixel px u = .next t)
    (dec : u.dec = u'.dec) (mem : u.mem = s.mem) (mem' : u'.mem = s'.mem) :
    DecMatched s s' t (finishPixel px u') := by
  obtain ⟨room, bs, bytes, rfl⟩ := finishPixel_next made
  obtain ⟨bs', bytes', answer⟩ := finishPixel_eq (px := px) (s := u') (by rwa [PixelRoom, ← dec])
  rw [← dec, bytes, Option.some.injEq] at bytes'
  subst bytes'
  refine ⟨_, answer, by simp only [dec], fun a same => ?_⟩
  simp only [pixelAddress, dec, mem, mem']
  exact read_writeBytes_congr _ _ same

/-- A chunk of more than one byte passes the end of IN in both states or in neither (R252). -/
theorem DecAgree.longChunk_matched {s s' t : State} {len : Nat} {px : Pixel} (h : DecAgree s s')
    (made : longChunk len px s = .next t) : DecMatched s s' t (longChunk len px s') := by
  obtain ⟨past, rfl⟩ | ⟨fits, made⟩ := longChunk_next made
  · rw [h.dec] at past
    rw [longChunk_raised past]
    exact h.raiseDecoding_matched _
  · have inside : ¬chunkPastEnd len s' = true := by
      simp only [chunkPastEnd, ← h.dec, decide_eq_true_eq]
      omega
    rw [longChunk, if_neg inside]
    exact finishPixel_matched made (by simp only [takeChunk_dec, h.dec]) rfl rfl

/-- A chunk's pixel is made of its operands, `prev` and the cache (R160 to R165). -/
theorem DecAgree.exec_matched {s s' t : State} {i : Instr} (h : DecAgree s s') (made : exec i s = .next t) :
    DecMatched s s' t (exec i s') := by
  have prev : s'.dec.prev = s.dec.prev := by rw [h.dec]
  cases i with
  | rgb r g b =>
    rw [exec, execRgb, prev]
    exact h.longChunk_matched made
  | rgba r g b a => exact h.longChunk_matched (px := ⟨r, g, b, a⟩) made
  | luma dg drg dbg =>
    rw [exec, execLuma, prev]
    exact h.longChunk_matched made
  | index slot =>
    rw [exec, execIndex, ← h.dec, ← h.params]
    exact finishPixel_matched made (by simp only [takeChunk_dec, h.dec]) rfl rfl
  | diff dr dg db =>
    rw [exec, execDiff, prev]
    exact finishPixel_matched made (by simp only [takeChunk_dec, h.dec]) rfl rfl
  | run len =>
    rw [exec, execRun, ← h.dec]
    exact finishPixel_matched made rfl rfl rfl

/-- The window lies in IN, or is empty. -/
theorem DecAgree.chunkWindow_eq {s s' : State} (h : DecAgree s s') (phase : s.dec.phase = .pixels) :
    chunkWindow s' = chunkWindow s := by
  have length : passInLen s.dec = s.dec.lat.inLen.toNat := passInLen_of_running (by rw [phase]; rfl)
  rw [chunkWindow, chunkWindow, ← h.inBytes_eq (Nat.le_add_right _ _) (by omega), h.dec]

theorem DecAgree.decPixel_matched {s s' t : State} (h : DecAgree s s') (phase : s.dec.phase = .pixels)
    (made : decPixel s = .next t) : DecMatched s s' t (decPixel s') := by
  unfold decPixel at made ⊢
  rw [h.chunkWindow_eq phase, ← h.dec]
  split at made
  · rename_i active
    rw [if_pos active]
    exact finishPixel_matched made rfl rfl rfl
  · rename_i idle
    rw [if_neg idle]
    cases decoded : decode (chunkWindow s) <;> rw [decoded] at made
    case ok => exact h.exec_matched made
    case noTagByte | truncated => cases made; exact h.raiseDecoding_matched _

/-! ### VALIDATE and FOOTER -/

theorem DecAgree.decValidate_matched {s s' t : State} (h : DecAgree s s') (phase : s.dec.phase = .validate)
    (made : decValidate s = .next t) : DecMatched s s' t (decValidate s') := by
  by_cases short : s.dec.regs.inLen.toNat < 22
  · rw [decValidate_of_short short] at made
    cases made
    rw [h.dec] at short
    exact ⟨_, decValidate_of_short short, by simp only [raise, State.setUnit_dec, State.unit_dec, h.dec, h.draws],
      fun _ => id⟩
  have long := Nat.not_lt.1 short
  obtain ⟨header, read⟩ := exists_header (length_inBytes s.dec s.mem s.dec.inBase 14)
  have length : passInLen s.dec = s.dec.regs.inLen.toNat := if_pos phase
  have read' := (h.inBytes_eq (count := 14) le_rfl (by omega)).trans read
  rw [decValidate_eq long read] at made
  rw [h.dec] at long read'
  rw [decValidate_eq long read', ← h.dec, ← h.params]
  cases failed : decFailedCheck s.params s.dec header with
  | some c =>
    rw [failed] at made
    cases made
    exact ⟨_, rfl, by simp only [raise, State.setUnit_dec, State.unit_dec, h.dec, h.draws], fun _ => id⟩
  | none =>
    rw [failed] at made
    cases made
    exact ⟨_, rfl, by simp only [h.dec, h.params], fun _ => id⟩

theorem DecAgree.decFooter_matched {s s' t : State} (h : DecAgree s s') (phase : s.dec.phase = .footer)
    (made : decFooter s = .next t) : DecMatched s s' t (decFooter s') := by
  by_cases short : s.dec.lat.inLen.toNat < s.dec.ipos.toNat + 8
  · rw [decFooter_of_short short] at made
    cases made
    rw [h.dec] at short
    rw [decFooter_of_short short]
    exact h.raiseDecoding_matched _
  have fits := Nat.not_lt.1 short
  have length : passInLen s.dec = s.dec.lat.inLen.toNat := passInLen_of_running (by rw [phase]; rfl)
  have read := h.inBytes_eq (a := s.dec.inBase + s.dec.ipos.toNat) (count := 8) (Nat.le_add_right _ _) (by omega)
  have fits' := fits
  rw [h.dec] at fits'
  by_cases marker : inBytes s.dec s.mem (s.dec.inBase + s.dec.ipos.toNat) 8 = endMarker
  · have marker' := read.trans marker
    rw [h.dec] at marker'
    rw [decFooter_of_marker fits marker] at made
    cases made
    refine ⟨_, decFooter_of_marker fits' marker', by simp only [settleOutput_dec, h.dec], fun a same => ?_⟩
    simp only [settleOutput_mem, State.unit_dec, h.dec, h.draws]
    exact read_drawCovered_congr _ _ _ _ same
  · have other := read.trans_ne marker
    rw [h.dec] at other
    rw [decFooter_of_noMarker fits marker] at made
    cases made
    rw [decFooter_of_noMarker fits' other]
    exact h.raiseDecoding_matched _

/-- Settles O53: every phase's step looks at what `DecAgree` names only. -/
theorem decStepDependsOnlyOnItsInput : Obligations.DecStepDependsOnlyOnItsInput := by
  intro s s' t dec params draws input made
  have agree : DecAgree s s' := ⟨dec, params, draws, input⟩
  unfold decStep at made ⊢
  rw [← dec]
  cases phase : s.dec.phase <;> rw [phase] at made
  case idle | done | error => cases made; exact ⟨s', rfl, dec, fun _ => id⟩
  case validate => exact agree.decValidate_matched phase made
  case header => cases made
  case pixels => exact agree.decPixel_matched phase made
  case footer => exact agree.decFooter_matched phase made

end Sys2Proof.Safety
end

section
/-! PROOF. The phase of a unit that is not BUSY (spec/60_exceptions.md R292, R302): its own steps move
only BUSY phases, so what moves it is the host. -/

namespace Sys2Proof.Machine

theorem busy_of_mem_unitMoves {u : UnitId} {p q : Phase} (h : (p, q) ∈ unitMoves u) : busy p = true := by
  have enc : ∀ m ∈ encMoves, busy m.1 = true := by decide
  have dec : ∀ m ∈ decMoves, busy m.1 = true := by decide
  cases u with
  | enc => exact enc _ h
  | dec => exact dec _ h

/-- Settles O37: of the moves a step can make, those of the unit itself start from a BUSY phase, and the host's are a
START and a hardware reset. -/
theorem quiescentUnitLeftOnlyByHost : Obligations.QuiescentUnitLeftOnlyByHost := by
  intro u s t h idle moves
  obtain ⟨ha, host⟩ | kept | moved := step_phase u h
  · refine ⟨ha, ?_⟩
    cases host with
    | kept phase => exact absurd (by rw [phase, afterChoice_unit]) moves
    | started v rest hin start _ phase => exact .inl ⟨v, rest, by rwa [afterChoice_hostIn] at hin, start, phase⟩
    | reset rest hin phase => exact .inr ⟨rest, by rwa [afterChoice_hostIn] at hin, phase⟩
  · exact absurd kept moves
  · exact absurd (busy_of_mem_unitMoves moved) (by rw [idle]; decide)

end Sys2Proof.Machine
end

section
/-! PROOF. Reset (spec/70_reset_and_hazards.md R320, R321): the state right after it, and what a hardware reset leaves
of the units, of storage and of the notes of the order. -/

namespace Sys2Proof.Safety

open Sys2Proof.Machine

/-! ### The state right after reset -/

/-- A unit in IDLE whose registers are clear reads 0 everywhere (R50, R321). -/
theorem regValue_of_reset {x : UnitState} (phase : x.phase = .idle) (regs : x.regs = Regs.reset) (reg : Nat) :
    regValue x reg = 0 := by
  unfold regValue
  rw [phase, regs]
  split <;> rfl

/-- Settles O48: in IDLE STATUS is 0, and every other register is clear. -/
theorem resetStateIsIdle : Obligations.ResetStateIsIdle := by
  intro u
  have phase : (State.reset.unit u).phase = .idle := by cases u <;> rfl
  have regs : (State.reset.unit u).regs = Regs.reset := by cases u <;> rfl
  exact ⟨phase, by rw [phase]; rfl, regValue_of_reset phase regs⟩

/-- The invariant holds of either unit after reset, wherever its buffers are bound (R321). -/
theorem UnitSound.reset (u : UnitId) (params : Params) (inBase outBase : Nat) :
    UnitSound u params (UnitState.reset inBase outBase) :=
  .of_not_running (RegsClear.sound ⟨rfl, rfl, rfl, rfl, rfl⟩ nofun) rfl

/-- Settles O55: no pass runs, so the invariant speaks of the clear registers and of empty storage only. -/
theorem resetIsSound : Obligations.ResetIsSound :=
  ⟨rfl, UnitSound.reset .enc _ _ _, UnitSound.reset .dec _ _ _, ⟨nofun, nofun, nofun⟩⟩

/-! ### Hardware reset -/

@[simp] theorem drawRunningOutput_hostIn (x : UnitState) (s : State) :
    (drawRunningOutput x s).hostIn = s.hostIn := by
  unfold drawRunningOutput
  split <;> rfl

@[simp] theorem drawRunningOutput_hostOut (x : UnitState) (s : State) :
    (drawRunningOutput x s).hostOut = s.hostOut := by
  unfold drawRunningOutput
  split <;> rfl

@[simp] theorem hardwareReset_hostIn (s : State) : (hardwareReset s).hostIn = s.hostIn := by simp [hardwareReset]

@[simp] theorem hardwareReset_hostOut (s : State) : (hardwareReset s).hostOut = s.hostOut := by simp [hardwareReset]

/-- Of what is contested a reset takes out OUT of the passes that it ends (log entry 23). -/
theorem hardwareReset_contested (s : State) (a : Nat) : covered (hardwareReset s).contested a =
    (covered s.contested a && !(busy s.enc.phase && inOutput s.enc a) &&
      !(busy s.dec.phase && inOutput s.dec a)) := by
  simp [hardwareReset]

/-- What a unit holds after a hardware reset (R320, R321). -/
theorem hardwareReset_unit_fields (s : State) (u : UnitId) :
    ((hardwareReset s).unit u).phase = .idle ∧ ((hardwareReset s).unit u).inBase = (s.unit u).inBase ∧
    ((hardwareReset s).unit u).outBase = (s.unit u).outBase ∧
    (∀ a, covered ((hardwareReset s).unit u).unseen a = (covered (s.unit u).unseen a ||
      (busy (s.unit u).phase && inOutput (s.unit u) a))) ∧
    ((hardwareReset s).unit u).regs = Regs.reset := by
  obtain ⟨d, unit⟩ := hardwareReset_unit s u
  rw [unit]
  refine ⟨rfl, rfl, rfl, fun a => ?_, rfl⟩
  rw [covered_resetUnit_unseen, hiddenFromHost, outputOfRunningPass, Bool.or_comm]

/-- Settles O47: a reset writes the units, the notes of the order and OUT of the passes that it ends. -/
theorem hardwareResetClearsRegisters : Obligations.HardwareResetClearsRegisters := by
  intro s rest ha hin
  have answer : step s = .next (hardwareReset { afterChoice s with hostIn := rest }) := by
    rw [step_host ha, hostStep, afterChoice_hostIn, hin]
    rfl
  refine ⟨_, answer, by simp, by simp, by simp, fun a => by simp [hardwareReset_contested], fun u => ?_,
    fun a outside => ?_⟩
  · have fields := hardwareReset_unit_fields { afterChoice s with hostIn := rest } u
    rwa [unit_popped (afterChoice s), afterChoice_unit] at fields
  · refine (read_hardwareReset ?_).trans (by simp)
    rintro ⟨u, written⟩
    rw [unit_popped (afterChoice s), afterChoice_unit, outputOfRunningPass, Bool.and_eq_true] at written
    exact absurd written.2 (by simp [outside u written.1])

end Sys2Proof.Safety
end

section
/-! PROOF. How many steps a unit scheduled alone takes to end its pass (spec/70_reset_and_hazards.md R340): the steps
that are left of a pass fall by one in each step of the unit, so ENC is DONE and DEC has ended when none is left. -/

namespace Sys2Proof.Safety

open Sys2Proof.Machine

/-! ### The steps that are left -/

/-- The steps that a pass which raises no error still takes once VALIDATE has passed (R200, R240). -/
def stepsLeft (x : UnitState) : Nat :=
  match x.phase with
  | .header => x.lat.n.toNat + 2
  | .pixels => x.lat.n.toNat - x.k.toNat + 1
  | .footer => 1
  | _ => 0

theorem stepsLeft_of_header {x : UnitState} (phase : x.phase = .header) : stepsLeft x = x.lat.n.toNat + 2 := by
  rw [stepsLeft, phase]

theorem stepsLeft_of_pixels {x : UnitState} (phase : x.phase = .pixels) :
    stepsLeft x = x.lat.n.toNat - x.k.toNat + 1 := by
  rw [stepsLeft, phase]

theorem stepsLeft_of_footer {x : UnitState} (phase : x.phase = .footer) : stepsLeft x = 1 := by
  rw [stepsLeft, phase]

theorem stepsLeft_eq_zero_iff {x : UnitState} : stepsLeft x = 0 ↔ running x.phase = false := by
  cases phase : x.phase <;> simp [stepsLeft, phase, running]

/-- A pixel takes one step (R211, R250). -/
theorem stepsLeft_pixel {x y : UnitState} (phase : x.phase = .pixels) (more : x.k.toNat < x.lat.n.toNat)
    (next : y.phase = if x.k + 1 = x.lat.n then .footer else x.phase) (k : y.k = x.k + 1) (lat : y.lat = x.lat) :
    stepsLeft y + 1 = stepsLeft x := by
  have count := toNat_succ_of_lt more
  rw [stepsLeft_of_pixels phase]
  split at next
  · rename_i last
    rw [stepsLeft_of_footer next, ← last, count]
    omega
  · rw [stepsLeft_of_pixels (next.trans phase), k, lat, count]
    omega

/-- After a pixel the pass goes on (R211, R253). -/
theorem running_pixel {x y : UnitState} {last : Prop} [Decidable last] (phase : x.phase = .pixels)
    (next : y.phase = if last then .footer else x.phase) : running y.phase = true := by
  rw [next, phase]
  split <;> rfl

/-! ### ENC -/

/-- A step of a pass of ENC that is past VALIDATE: one step less is left, and the pass goes on or is DONE. -/
theorem encStep_passes {s t : State} (hs : EncSound s.params s.enc) (run : running s.enc.phase = true)
    (h : encStep s = .next t) : stepsLeft t.enc + 1 = stepsLeft s.enc ∧
      (running t.enc.phase = true ∨ t.enc.phase = .done) ∧ t.schedule = s.schedule := by
  unfold encStep at h
  cases phase : s.enc.phase <;> rw [phase] at h run
  case idle | validate | done | error => cases run
  case header =>
    obtain ⟨k, -⟩ := hs.start phase
    obtain ⟨_, -, -, rfl⟩ := encHeader_next h
    refine ⟨?_, .inl rfl, rfl⟩
    rw [stepsLeft_of_header phase, stepsLeft_of_pixels rfl, k]
    rfl
  case pixels =>
    obtain ⟨_, _, _, -, -, -, -, -, rfl⟩ := encPixel_next h
    exact ⟨stepsLeft_pixel phase (hs.pixel phase).1 rfl rfl rfl, .inl (running_pixel phase rfl), rfl⟩
  case footer =>
    obtain ⟨-, rfl⟩ := encFooter_next h
    exact ⟨(stepsLeft_of_footer phase).symm, .inr rfl, rfl⟩

/-- ENC is BUSY before each of the next `d` steps and DONE after them. -/
def BusyThenDone (d : Nat) (s : State) : Prop :=
  (∃ t, core.run d s = .next t ∧ t.enc.phase = .done) ∧
    ∀ j, j < d → ∃ t, core.run j s = .next t ∧ busy t.enc.phase = true

theorem BusyThenDone.zero {s : State} (done : s.enc.phase = .done) : BusyThenDone 0 s :=
  ⟨⟨s, rfl, done⟩, nofun⟩

theorem BusyThenDone.succ {d : Nat} {s t : State} (running : busy s.enc.phase = true) (next : step s = .next t)
    (h : BusyThenDone d t) : BusyThenDone (d + 1) s := by
  obtain ⟨⟨u, runs, done⟩, before⟩ := h
  refine ⟨⟨u, (core_run_next next d).trans runs, done⟩, fun j lt => ?_⟩
  cases j with
  | zero => exact ⟨s, rfl, running⟩
  | succ j =>
    obtain ⟨m, runs', running'⟩ := before j (Nat.lt_of_succ_lt_succ lt)
    exact ⟨m, (core_run_next next j).trans runs', running'⟩

/-- Scheduled alone past VALIDATE, ENC takes the steps that are left. -/
theorem enc_busyThenDone {d : Nat} {s : State} (hs : Sound s)
    (passing : running s.enc.phase = true ∨ s.enc.phase = .done) (left : stepsLeft s.enc = d)
    (schedule : s.schedule = List.replicate d .enc) : BusyThenDone d s := by
  induction d generalizing s with
  | zero => exact .zero (passing.resolve_left (by rw [stepsLeft_eq_zero_iff.1 left]; exact nofun))
  | succ d ih =>
    have run : running s.enc.phase = true := passing.resolve_right fun done => by simp [stepsLeft, done] at left
    have hs' := hs.scheduled (List.replicate d .enc)
    obtain ⟨t, made⟩ := encStep_answers hs'.enc
    have next : step s = .next t := (step_scheduled schedule).trans made
    obtain ⟨fewer, passing', schedule'⟩ := encStep_passes hs'.enc run made
    exact .succ (busy_of_running run) next
      (ih (step_sound hs next) passing' (Nat.succ_inj.1 (fewer.trans left)) schedule')

/-- Settles O58: a check of VALIDATE fails, or ENC stands before HEADER with `n + 2` steps left. -/
theorem encPassTakesPixelsPlusThreeSteps : Obligations.EncPassTakesPixelsPlusThreeSteps := by
  rintro s n hs phase rfl schedule
  have next : step s = encValidate { s with schedule := List.replicate (pixelCount s.enc.regs + 2) .enc } := by
    rw [step_scheduled schedule, agentStep, encStep, phase]
    rfl
  rw [encValidate_eq] at next
  cases failed : encFailedCheck s.params.maxPixels s.params.prevInit s.enc with
  | some c =>
    rw [failed] at next
    exact .inl ⟨_, (core_run_next next 0).trans rfl, rfl⟩
  | none =>
    rw [failed] at next
    have left : stepsLeft (encStarted s.params.prevInit s.enc) = pixelCount s.enc.regs + 2 :=
      congrArg (· + 2) (toNat_pixelCount _ _)
    exact .inr (BusyThenDone.succ (by rw [phase]; rfl) next
      (enc_busyThenDone (step_sound hs next) (.inl rfl) left rfl))

/-! ### DEC -/

/-- The pass has ended, in DONE or ERROR (R240). -/
def Ended (p : Phase) : Prop := p = .done ∨ p = .error

theorem Ended.not_busy {p : Phase} (h : Ended p) : busy p = false := by
  obtain rfl | rfl := h <;> rfl

/-- A step of a pass of DEC that is past VALIDATE: it ends the pass, or the pass goes on with one step less left. -/
theorem decStep_passes {s t : State} (hs : DecSound s.params s.dec) (run : running s.dec.phase = true)
    (h : decStep s = .next t) : (Ended t.dec.phase ∨
      (running t.dec.phase = true ∧ stepsLeft t.dec + 1 = stepsLeft s.dec)) ∧ t.schedule = s.schedule := by
  have raised : ∀ e, Ended (raiseDecoding e s).dec.phase ∧ (raiseDecoding e s).schedule = s.schedule := fun e =>
    have made := raiseDecoding_raised e s
    ⟨.inr (by rw [made.dec]), made.outside.2.2⟩
  unfold decStep at h
  cases phase : s.dec.phase <;> rw [phase] at h run
  case idle | validate | done | error => cases run
  case header => cases h
  case pixels =>
    obtain rfl | ⟨_, _, made⟩ := decPixel_next h
    · exact ⟨.inl (raised _).1, (raised _).2⟩
    · exact ⟨.inr ⟨running_pixel phase made.phase,
        stepsLeft_pixel phase (hs.pixel phase) made.phase made.k made.lat⟩, made.outside.2.2.1⟩
  case footer =>
    obtain rfl | ⟨-, -, rfl⟩ := decFooter_next h
    · exact ⟨.inl (raised _).1, (raised _).2⟩
    · exact ⟨.inl (.inl rfl), rfl⟩

/-- Scheduled alone past VALIDATE, DEC ends within the steps that are left, and rests from then on. -/
theorem dec_ends {d : Nat} {s : State} (hs : Sound s)
    (passing : Ended s.dec.phase ∨ (running s.dec.phase = true ∧ stepsLeft s.dec ≤ d))
    (schedule : s.schedule = List.replicate d .dec) : ∃ t, core.run d s = .next t ∧ Ended t.dec.phase := by
  induction d generalizing s with
  | zero =>
    refine ⟨s, rfl, passing.resolve_right fun ⟨run, left⟩ => ?_⟩
    rw [stepsLeft_eq_zero_iff.1 (Nat.le_zero.1 left)] at run
    cases run
  | succ d ih =>
    have hs' := hs.scheduled (List.replicate d .dec)
    obtain ⟨t, made⟩ := decStep_answers hs'.dec
    have next : step s = .next t := (step_scheduled schedule).trans made
    obtain ⟨passing', schedule'⟩ : (Ended t.dec.phase ∨ (running t.dec.phase = true ∧ stepsLeft t.dec ≤ d)) ∧
        t.schedule = List.replicate d .dec := by
      obtain ended | ⟨run, left⟩ := passing
      · rw [decStep_of_idle (by exact ended.not_busy)] at made
        obtain rfl := Host.Outcome.next.inj made
        exact ⟨.inl ended, rfl⟩
      · obtain ⟨passing', schedule'⟩ := decStep_passes hs'.dec run made
        exact ⟨passing'.imp_right fun ⟨run', fewer⟩ => ⟨run', Nat.le_of_succ_le_succ (fewer.trans_le left)⟩,
          schedule'⟩
    obtain ⟨u, runs, ended⟩ := ih (step_sound hs next) passing' schedule'
    exact ⟨u, (core_run_next next d).trans runs, ended⟩

/-- Settles O59: at the first pixel `n + 1` steps are left. -/
theorem decPassEndsWithinPixelsPlusTwoSteps : Obligations.DecPassEndsWithinPixelsPlusTwoSteps := by
  intro s hs phase first schedule
  have left : stepsLeft s.dec = s.dec.lat.n.toNat + 1 := by rw [stepsLeft_of_pixels phase, first]; rfl
  exact dec_ends hs (.inr ⟨by rw [phase]; rfl, left.le⟩) schedule

end Sys2Proof.Safety
end
